-- ==== Sys2Proof/Word.lean ====
section
/-! DEFINITION. The word types of the core and nothing else (10_state.md R20, 30_encoding.md R100, R106).

Bit numbering is the spec's (00_scope.md R13): bit 0 is the least significant bit, every word is unsigned, a slice
`w[hi:lo]` is `BitVec.extractLsb' lo (hi - lo + 1) w`, and `{a, b}` is `a ++ b` with `a` in the high bits. -/

namespace Sys2Proof

/-- One byte of the bus: the only unit of transfer (20_memory.md R72). -/
abbrev Byte := BitVec 8

/-- The command word, `op` in bits 35:32 and `arg` in bits 31:0 (30_encoding.md R100). -/
abbrev CmdWord := BitVec 36

/-- The response word, bit 0 `ok`, bit 1 `nack`, bit 2 `ill` (30_encoding.md R106). -/
abbrev RspWord := BitVec 3

/-- A number of TMR ticks (41_encoder_ops.md R161). -/
abbrev Ticks := BitVec 16

/-- A bit as the spec writes it, 1 for true: ACK = 0 and NACK = 1, success = 1 and failure = 0 (00_scope.md R18). -/
abbrev bit (b : Bool) : BitVec 1 := BitVec.ofBool b

end Sys2Proof
end

