-- ==== Sys2Proof/Config.lean ====
section
/-! DEFINITION. What one implementation of the core fixes (00_scope.md R11), and the model's free values.

`Params` holds every parameter of R11. A machine's parameters stand in a field of `State` that no step writes
(notes/assumptions/3.md), so a statement about every state is a statement about every choice of them.

The two constants without a body are the free values: nothing can evaluate them, so nothing proved rests on a value
of theirs (notes/assumptions/4.md, notes/assumptions/5.md). -/

namespace Sys2Proof

/-- The hardware this is a model of, as 00_scope.md R2 has a model name it. -/
def hardwareName : String := "I2C-ME+NSE core, Tombstone-1 LCD-via-I2C, source revision unstated"

/-- The parameters of 00_scope.md R11, under the spec's names. -/
structure Params where
  /-- `EXP_ADDR_BYTE`: the address byte SEND_FRAME puts on the bus; bit 0 must be 0 -/
  expAddrByte : Byte
  /-- `N_STROBE`: ticks of the delay after each frame byte -/
  nStrobe : Ticks
  /-- `N_CLEAR`: ticks of the settle delay of CLEAR -/
  nClear : Ticks
  /-- `T_TICK`: the period of the TMR tick, in microseconds -/
  tTickUs : Nat
  /-- `BRG_DIV`: the clock-rate divisor INIT loads into `DIV` -/
  brgDiv : Byte
  /-- `F_SCL_NOMINAL`, in hertz: informative, no rule depends on it -/
  fSclNominalHz : Nat
  /-- `CMD_FS4`: first bring-up command -/
  cmdFs4 : Byte
  /-- `CMD_FS4_5X8`: second bring-up command -/
  cmdFs4_5x8 : Byte
  /-- `CMD_CLEAR`: clear-display -/
  cmdClear : Byte
  /-- `CMD_DISPLAY_ON`: display-on/cursor-on -/
  cmdDisplayOn : Byte
  /-- `CMD_ENTRY_MODE`: entry-mode (auto-increment) -/
  cmdEntryMode : Byte
  /-- `ROW0_BASE`: DDRAM base of row 0 -/
  row0Base : Byte
  /-- `ROW1_BASE`: DDRAM base of row 1 -/
  row1Base : Byte
  /-- `ENC_CHECK_START`: SEND_FRAME gives up when its BEGIN fails -/
  encCheckStart : Bool
  deriving DecidableEq, Repr

/-- The bring-up commands in the order INIT_DISPLAY sends them, `INITSEQ` (42_display_ops.md R180). -/
def Params.initSeq (p : Params) : List Byte :=
  [p.cmdFs4, p.cmdFs4_5x8, p.cmdClear, p.cmdDisplayOn, p.cmdEntryMode]

/-- The constraint R11 puts on `EXP_ADDR_BYTE`: "bit 0 must be 0" (the write direction, 30_encoding.md R108). -/
def Params.valid (p : Params) : Bool := p.expAddrByte.getLsbD 0 == false

/-- The premise of 00_scope.md R12 and 70_reset_and_hazards.md R236, for a display that needs `needUs` microseconds
between frame bytes: the delay procedure guarantees more than `(N_STROBE - 1) × T_TICK`. A claim about a real display
states it; the core never checks it. -/
def Params.meetsSettle (p : Params) (needUs : Nat) : Bool := needUs ≤ (p.nStrobe.toNat - 1) * p.tTickUs

/-- FREE VALUE: the default of `BRG_DIV`, which R11 leaves "open". Nothing proved can rest on its value. -/
opaque Config.brgDiv : Byte

/-- FREE VALUE: what a register the spec calls unspecified after a Reset step holds (70_reset_and_hazards.md R230).
It is read at `State.freeCtr`, a counter that moves on at each reading. -/
opaque Config.freeWord : Nat → BitVec 36

/-- The defaults of R11's table. 20, 10, 0x80 and 0xC0 are the source's; 0x40 and the five command values are the
spec's "from general knowledge" defaults (notes/assumptions/3.md). -/
def Params.default : Params where
  expAddrByte := 0x40
  nStrobe := 20
  nClear := 10
  tTickUs := 1000
  brgDiv := Config.brgDiv
  fSclNominalHz := 100000
  cmdFs4 := 0x02
  cmdFs4_5x8 := 0x28
  cmdClear := 0x01
  cmdDisplayOn := 0x0E
  cmdEntryMode := 0x06
  row0Base := 0x80
  row1Base := 0xC0
  encCheckStart := true

end Sys2Proof
end

