-- ==== Sys2Proof/Syntax.lean ====
section
/-! DEFINITION. The command set: one constructor per row of spec/opcode_table.json (30_encoding.md R101, R102, R104).

Every constructor carries ALL 32 bits of `arg`: the operands under the names of R102, and last, under the name `u`, the
bits R103 calls unassigned. They affect nothing, but they are in the word the host issued, so they are in `CWR` and in
the event `EvCmd`, and the model keeps them. -/

namespace Sys2Proof

/-- A command of the host. -/
inductive Instr where
  /-- INIT, `initialize()` (R131) -/
  | init (u : BitVec 32)
  /-- WAIT_READY, `waitReady()` (R132) -/
  | waitReady (u : BitVec 32)
  /-- BEGIN a, `beginTransaction(address)` (R133) -/
  | beginTx (a : Byte) (u : BitVec 24)
  /-- WRITE v, `writeByte(value)` (R134) -/
  | write (v : Byte) (u : BitVec 24)
  /-- END, `endTransaction()` (R135) -/
  | endTx (u : BitVec 32)
  /-- SEND_FRAME f0, f1, f2, f3, `sendFrame(frame[4])` (R162); it assigns every bit -/
  | sendFrame (f0 f1 f2 f3 : Byte)
  /-- SEND_CMD v, `sendCommand(cmd)` (R163) -/
  | sendCmd (v : Byte) (u : BitVec 24)
  /-- SEND_CHAR v, `sendCharacter(ch)` (R164) -/
  | sendChar (v : Byte) (u : BitVec 24)
  /-- INIT_DISPLAY, `initializeDisplay()` (R181) -/
  | initDisplay (u : BitVec 32)
  /-- CLEAR, `clear()` (R182) -/
  | clear (u : BitVec 32)
  /-- SET_CURSOR row, col, `setCursor(row, col)` (R183) -/
  | setCursor (row : BitVec 1) (col : Byte) (u : BitVec 23)
  /-- reserved opcode 0xB (R104) -/
  | reservedB (u : BitVec 32)
  /-- reserved opcode 0xC (R104) -/
  | reservedC (u : BitVec 32)
  /-- reserved opcode 0xD (R104) -/
  | reservedD (u : BitVec 32)
  /-- reserved opcode 0xE (R104) -/
  | reservedE (u : BitVec 32)
  /-- reserved opcode 0xF (R104) -/
  | reservedF (u : BitVec 32)
  deriving DecidableEq, Repr

/-- The opcode of a command, `op` of R101. -/
def Instr.opcode : Instr → BitVec 4
  | .init _ => 0x0
  | .waitReady _ => 0x1
  | .beginTx _ _ => 0x2
  | .write _ _ => 0x3
  | .endTx _ => 0x4
  | .sendFrame _ _ _ _ => 0x5
  | .sendCmd _ _ => 0x6
  | .sendChar _ _ => 0x7
  | .initDisplay _ => 0x8
  | .clear _ => 0x9
  | .setCursor _ _ _ => 0xA
  | .reservedB _ => 0xB
  | .reservedC _ => 0xC
  | .reservedD _ => 0xD
  | .reservedE _ => 0xE
  | .reservedF _ => 0xF

/-- The pseudo-operation WRITE_STRING (30_encoding.md R112 (a), 42_display_ops.md R184): one SEND_CHAR per character,
in order, stopping before the first 0x00; the terminator is not sent and the empty string expands to nothing. -/
def writeString (text : List Byte) : List Instr :=
  (text.takeWhile (· != 0)).map fun c => .sendChar c 0

/-- The pseudo-operation MemWrite (30_encoding.md R112 (b), 00_scope.md R17): one transaction of `v.length` data
bytes to the address byte `addr`. -/
def memWrite (addr : Byte) (v : List Byte) : List Instr :=
  .beginTx addr 0 :: v.map (fun b => .write b 0) ++ [.endTx 0]

end Sys2Proof
end

