-- ==== Sys2Proof/WellFormed.lean ====
section
/-! DEFINITION. The commands an assembler writes and the contract allows by their operands alone.

Nothing in the decoder, the dispatch or a meaning asks for `Instr.wellFormed`: a word with unassigned bits set is
accepted and runs like any other (30_encoding.md R103), and the core does not check the direction bit (R108). The two
checks say which commands the syntax of R111 can spell and R108 calls in contract. -/

namespace Sys2Proof

/-- The bits of `arg` R102 does not assign are 0: "An assembler writes them as 0" (R103, R111). -/
def Instr.canonical : Instr → Bool
  | .init u => u == 0
  | .waitReady u => u == 0
  | .beginTx _ u => u == 0
  | .write _ u => u == 0
  | .endTx u => u == 0
  | .sendFrame _ _ _ _ => true
  | .sendCmd _ u => u == 0
  | .sendChar _ u => u == 0
  | .initDisplay u => u == 0
  | .clear u => u == 0
  | .setCursor _ _ u => u == 0
  | .reservedB u => u == 0
  | .reservedC u => u == 0
  | .reservedD u => u == 0
  | .reservedE u => u == 0
  | .reservedF u => u == 0

/-- The address byte of BEGIN names the write direction: "In contract `a[0] = 0`, because the core cannot receive"
(R108, 93_implementation_defined.md U11). Every other command passes. -/
def Instr.writeDirection : Instr → Bool
  | .beginTx a _ => a.getLsbD 0 == false
  | .init _ => true
  | .waitReady _ => true
  | .write _ _ => true
  | .endTx _ => true
  | .sendFrame _ _ _ _ => true
  | .sendCmd _ _ => true
  | .sendChar _ _ => true
  | .initDisplay _ => true
  | .clear _ => true
  | .setCursor _ _ _ => true
  | .reservedB _ => true
  | .reservedC _ => true
  | .reservedD _ => true
  | .reservedE _ => true
  | .reservedF _ => true

/-- Both checks. -/
def Instr.wellFormed (i : Instr) : Bool := i.canonical && i.writeDirection

end Sys2Proof
end

