-- ==== Sys2Proof/Decode.lean ====
section
/-! DEFINITION. From words to commands and back (30_encoding.md R100 to R105, R114).

A command word is decoded from `op` alone (R105), every `op` has a constructor (R101, R104), and every bit of `arg` is
kept, so `decodeWord` is total on 36-bit words and refuses none. What can be refused is a sequence of bytes that is no
36-bit word: the port of R113 is 36 bits wide and has no byte layout of its own, and the model's layout (five bytes,
the low byte first, the top four bits 0) is notes/assumptions/8.md. -/

namespace Sys2Proof

/-- `op`, bits 35:32 (R100). -/
def opField (w : CmdWord) : BitVec 4 := w.extractLsb' 32 4

/-- `arg`, bits 31:0 (R100). -/
def argField (w : CmdWord) : BitVec 32 := w.extractLsb' 0 32

/-- `arg[7:0]`: `a`, `v`, `col` or `f0` (R102). -/
def byte0 (w : CmdWord) : Byte := w.extractLsb' 0 8

/-- `arg[15:8]`: `f1` (R102). -/
def byte1 (w : CmdWord) : Byte := w.extractLsb' 8 8

/-- `arg[23:16]`: `f2` (R102). -/
def byte2 (w : CmdWord) : Byte := w.extractLsb' 16 8

/-- `arg[31:24]`: `f3` (R102). -/
def byte3 (w : CmdWord) : Byte := w.extractLsb' 24 8

/-- `arg[8]`: `row` (R102). -/
def rowField (w : CmdWord) : BitVec 1 := w.extractLsb' 8 1

/-- `arg[31:8]`: unassigned where the one operand is a byte (R103). -/
def rest24 (w : CmdWord) : BitVec 24 := w.extractLsb' 8 24

/-- `arg[31:9]`: unassigned in SET_CURSOR (R103). -/
def rest23 (w : CmdWord) : BitVec 23 := w.extractLsb' 9 23

/-- The decoder: R101's opcode map with R102's operand fields. -/
def decodeWord (w : CmdWord) : Instr :=
  match (opField w).toNat with
  | 0x0 => .init (argField w)
  | 0x1 => .waitReady (argField w)
  | 0x2 => .beginTx (byte0 w) (rest24 w)
  | 0x3 => .write (byte0 w) (rest24 w)
  | 0x4 => .endTx (argField w)
  | 0x5 => .sendFrame (byte0 w) (byte1 w) (byte2 w) (byte3 w)
  | 0x6 => .sendCmd (byte0 w) (rest24 w)
  | 0x7 => .sendChar (byte0 w) (rest24 w)
  | 0x8 => .initDisplay (argField w)
  | 0x9 => .clear (argField w)
  | 0xA => .setCursor (rowField w) (byte0 w) (rest23 w)
  | 0xB => .reservedB (argField w)
  | 0xC => .reservedC (argField w)
  | 0xD => .reservedD (argField w)
  | 0xE => .reservedE (argField w)
  | _ => .reservedF (argField w)

/-- `arg` of a command, assembled by R102. -/
def Instr.arg : Instr → BitVec 32
  | .init u => u
  | .waitReady u => u
  | .beginTx a u => u ++ a
  | .write v u => u ++ v
  | .endTx u => u
  | .sendFrame f0 f1 f2 f3 => f3 ++ f2 ++ f1 ++ f0
  | .sendCmd v u => u ++ v
  | .sendChar v u => u ++ v
  | .initDisplay u => u
  | .clear u => u
  | .setCursor row col u => u ++ row ++ col
  | .reservedB u => u
  | .reservedC u => u
  | .reservedD u => u
  | .reservedE u => u
  | .reservedF u => u

/-- The encoder: `{op, arg}` (R100, R111). -/
def encode (i : Instr) : CmdWord := i.opcode ++ i.arg

/-- Why a sequence of bytes is no command word. -/
inductive DecodeError where
  /-- fewer than the five bytes of a word; safe, nothing is decoded -/
  | tooFewBytes
  /-- more than the five bytes of a word; safe, nothing is decoded -/
  | tooManyBytes
  /-- bits 39:36 are not all 0, so the number does not fit the 36-bit port; safe, nothing is decoded -/
  | widerThanPort
  deriving DecidableEq, Repr

/-- The command five bytes stand for, the low byte first (notes/assumptions/8.md). -/
def decodeBytes : List Byte → Except DecodeError Instr
  | [b0, b1, b2, b3, b4] =>
    if b4.extractLsb' 4 4 = 0#4 then .ok (decodeWord (b4.extractLsb' 0 4 ++ b3 ++ b2 ++ b1 ++ b0))
    else .error .widerThanPort
  | _ :: _ :: _ :: _ :: _ :: _ :: _ => .error .tooManyBytes
  | _ => .error .tooFewBytes

/-- The five bytes of a command word, the low byte first (notes/assumptions/8.md). -/
def bytesOf (w : CmdWord) : List Byte :=
  [byte0 w, byte1 w, byte2 w, byte3 w, 0#4 ++ opField w]

/-- The low 36 bits of a number with `nbits` bits, every bit above `nbits` 0. -/
def tableWord (nbits w : Nat) : CmdWord := BitVec.ofNat 36 (w % 2 ^ nbits)

/-- The command the decoder reads from a row of the opcode table written as a number: its five bytes, the low byte
first, given to `decodeBytes`; `none` where the number needs more than 36 bits. -/
def decodeTableWord (nbits w : Nat) : Option Instr :=
  let n := w % 2 ^ nbits
  if n < 2 ^ 40 then
    (decodeBytes [BitVec.ofNat 8 n, BitVec.ofNat 8 (n >>> 8), BitVec.ofNat 8 (n >>> 16), BitVec.ofNat 8 (n >>> 24),
      BitVec.ofNat 8 (n >>> 32)]).toOption
  else none

end Sys2Proof
end

