-- ==== Sys2Proof/Machine/State.lean ====
section
/-! DEFINITION. The state of the core as plain data (10_state.md R20, R42, R43, R50), reset, and the reasons a step may
stop.

A flag or a control bit of one bit is a `Bool`, true for 1. The last three fields of `State` are the model's own, not
the spec's: the parameters of the run, the inputs that have not arrived yet, and the counter of the free values
(notes/assumptions/3.md, notes/assumptions/6.md, notes/assumptions/4.md). -/

namespace Sys2Proof.Machine

/-- Why a step stops. Both faults are SAFE (the model stops where the spec has nothing to say) and neither is ever
raised in a run of a command: each needs a `SEQ` no rule of the spec can build (10_state.md R42, 40_engine_ops.md R140). -/
inductive Fault where
  /-- Raised by an ENG step when `SEQ` is no chain of calls of R140: a `ret` with no caller that awaits its result, or a
  step that reads a result no `ret` has bound. Safe. -/
  | malformedSeq
  /-- Raised by SF.3 when `FIDX` is 5 to 7 (`FRAME` has the elements 0 to 3, R44) and by ID.1 when `k` is 6 or 7
  (`INITSEQ` has the elements 0 to 4, R180). R45 and R43 say neither value occurs. Safe. -/
  | noSuchElement
  deriving DecidableEq, Repr

/-- Why a command has no meaning. No step of this model refuses: every row of the opcode table has its meaning. -/
inductive Refusal where
  /-- Raised by an arm of `exec` whose command has no meaning yet; there is none. Safe. -/
  | notModelled (mnemonic : String)
  deriving DecidableEq, Repr

/-- What a step answers. -/
abbrev Result := Host.Outcome

/-- `TSTATE`, the per-transaction state (R38). STOP_CONFIRMED is IDLE; the values 6 and 7 are never taken and have no
constructor (notes/assumptions/11.md). -/
inductive TState where
  | idle
  | startPending
  | startConfirmed
  | addressSent
  | dataSent
  | stopPending
  deriving DecidableEq, Repr

/-- The encoding of R38, as the port `tstate` shows it. -/
def TState.code : TState → BitVec 3
  | .idle => 0
  | .startPending => 1
  | .startConfirmed => 2
  | .addressSent => 3
  | .dataSent => 4
  | .stopPending => 5

/-- A bus activity (20_memory.md R77). -/
inductive Activity where
  | start
  | byte
  | stop
  deriving DecidableEq, Repr

/-- The events of `TRACE` (R50). In `byte` and `err` the bit is 1 for true: `byte v true` is `EvByte(v, NACK)`. -/
inductive Event where
  /-- `EvCmd(cw)` -/
  | cmd (w : CmdWord)
  /-- `EvRsp(rw)` -/
  | rsp (r : RspWord)
  /-- `EvStart` -/
  | start
  /-- `EvByte(v, a)` -/
  | byte (v : Byte) (nack : Bool)
  /-- `EvStop` -/
  | stop
  /-- `EvColl(p)` -/
  | coll (p : Activity)
  /-- `EvDelay(n)` -/
  | delay (n : Ticks)
  /-- `EvErr(b)` -/
  | err (b : Bool)
  /-- `EvReset` -/
  | reset
  deriving DecidableEq, Repr

/-- The Nibble-Strobe Frame, `FRAME[0..3]` (R44). -/
structure Frame where
  f0 : Byte
  f1 : Byte
  f2 : Byte
  f3 : Byte
  deriving DecidableEq, Repr

/-- One entry of `SEQ` (R42): the procedure and the label of its next step, which the constructor names as the listings
of 40_engine_ops.md, 41_encoder_ops.md and 42_display_ops.md do, with the arguments and locals of R43. An argument or local
stays in its entry up to the step that reads it last and is dropped there, which R43 leaves open (DESIGN CHOICE,
notes/assumptions/22.md). A result that a `ret` binds in its caller is `none` until it is bound (notes/assumptions/20.md). -/
inductive Entry where
  -- operation INIT (R131)
  | in0 | in1 | in2 | in3 | in4
  -- procedure waitReady and operation WAIT_READY (R132)
  | wt0 | wt1 | wt2 | wt3
  | hw0 | hw1
  -- procedure beginTransaction and operation BEGIN (R133)
  | bg0 (a : Byte) | bg1 (a : Byte) | bg2 (a : Byte) | bg3 (a : Byte) | bg4 (a : Byte) | bg5
  | hb0 | hb1 (r : Option Bool)
  -- procedure writeByte and operation WRITE (R134)
  | wr0 (v : Byte) | wr1 (v : Byte) | wr2 | wr3 | wr4
  | hx0 | hx1 (k : Option Bool)
  -- procedure endTransaction and operation END (R135)
  | en0 | en1 | en2 | en3
  | he0 | he1 (r : Option Bool)
  -- procedure delay (R161)
  | dl0 (n : Ticks) | dl1 (n : Ticks) | dl2 (n : Ticks)
  -- procedure sendFrame and operation SEND_FRAME (R162); a result is the pair (ok, nack)
  | sf0 | sf1 | sf2 (r : Option Bool) | sf3 | sf4 (k : Option Bool) | sf5 | sf6 | sf7 (r2 : Option Bool)
  | hf0 | hf1 | hf2 (r : Option (Bool × Bool))
  -- procedure sendCommand and operation SEND_CMD (R163)
  | sc0 (v : Byte) | sc1 | sc2 (r : Option (Bool × Bool))
  | hc0 | hc1 (r : Option (Bool × Bool))
  -- procedure sendCharacter and operation SEND_CHAR (R164)
  | sd0 (v : Byte) | sd1 | sd2 (r : Option (Bool × Bool))
  | hd0 | hd1 (r : Option (Bool × Bool))
  -- operation INIT_DISPLAY (R181)
  | id0 | id1 (k : BitVec 3) | id2 (k : BitVec 3) (r : Option (Bool × Bool)) | id3
  -- operation CLEAR (R182)
  | cl0 | cl1 (r : Option (Bool × Bool)) | cl2 (r : Option (Bool × Bool))
  -- operation SET_CURSOR (R183)
  | cu0 | cu1 (r : Option (Bool × Bool))
  -- a reserved opcode (R104): its one step, the response
  | rv0
  deriving DecidableEq, Repr

/-- The draw of `StartDone` or `StopDone` (20_memory.md R78, R80). -/
inductive CondOutcome where
  | detected
  | missing
  | collided
  deriving DecidableEq, Repr

/-- The draw of `ByteDone`; a collision also draws `d` for `XDONE` and `k` for `ACKSTAT` (20_memory.md R79). -/
inductive ByteOutcome where
  | acked
  | nacked
  | collided (d k : Bool)
  deriving DecidableEq, Repr

/-- Whose step it is, of the agents whose steps interleave (00_scope.md R8, R15): ENG, BUS completing one activity, TMR, RST. -/
inductive Turn where
  | eng
  | bus (p : Activity)
  | tmr
  | rst
  deriving DecidableEq, Repr

/-- The MODEL's own field: the inputs that have not arrived yet (10_state.md R49 calls them inputs and an oracle, not
state). Each kind of draw has its list, read in order; an empty list is a bus that never completes such an activity
(20_memory.md R82). -/
structure Env where
  /-- the command words the host will issue, the next one first -/
  cmds : List CmdWord
  /-- the outcomes of the coming start conditions -/
  starts : List CondOutcome
  /-- the outcomes of the coming byte transfers -/
  bytes : List ByteOutcome
  /-- the outcomes of the coming stop conditions -/
  stops : List CondOutcome
  /-- the order of the coming steps of the agents, Reset steps among them, as far as it is given (notes/assumptions/7.md) -/
  turns : List Turn
  deriving DecidableEq, Repr

/-- No input: the host issues nothing, the bus completes nothing, `rst` stays 0, and no order of the steps is given. -/
def Env.none : Env where
  cmds := []
  starts := []
  bytes := []
  stops := []
  turns := []

/-- The state of the core (R20), under the spec's names. -/
structure State where
  /-- `EN`: the peripheral is armed (R22) -/
  en : Bool
  /-- `CFG_SLEW`: slew-rate control configured (R23) -/
  cfgSlew : Bool
  /-- `CFG_MASTER`: serial port in master mode (R23) -/
  cfgMaster : Bool
  /-- `DIV`: clock-rate divisor (R24) -/
  div : Byte
  /-- `BCL`: bus-collision flag (R25) -/
  bcl : Bool
  /-- `WCOL`: write-collision flag (R26) -/
  wcol : Bool
  /-- `XDONE`: transfer-complete flag (R27) -/
  xdone : Bool
  /-- `XBUSY`: a byte transfer is in progress (R28) -/
  xbusy : Bool
  /-- `RBUSY`: a hardware-receive condition is in progress (R29) -/
  rbusy : Bool
  /-- `SPEND`: start-condition-in-progress flag (R30) -/
  spend : Bool
  /-- `PPEND`: stop-condition-in-progress flag (R31) -/
  ppend : Bool
  /-- `SDET`: the last condition detected was a start (R32) -/
  sdet : Bool
  /-- `PDET`: the last condition detected was a stop (R33) -/
  pdet : Bool
  /-- `ACKSTAT`: received-acknowledgment-status bit, false = ACK, true = NACK (R34) -/
  ackstat : Bool
  /-- `TXBUF`: the hardware shift register (R36) -/
  txbuf : Byte
  /-- `ERR`: the sticky Error Signal (R37) -/
  err : Bool
  /-- `TSTATE`: the per-transaction state (R38) -/
  tstate : TState
  /-- `CWR`: the command word register (R40) -/
  cwr : CmdWord
  /-- `RSP`: the response word of the last completed command (R41) -/
  rsp : RspWord
  /-- `SEQ`: the sequencer's stack, the top entry first; empty when the core is idle (R42) -/
  seq : List Entry
  /-- `FRAME[0..3]` (R44) -/
  frame : Frame
  /-- `FIDX`: index of the next frame byte (R45) -/
  fidx : BitVec 3
  /-- `FOK`: frame result accumulator, success so far (R46) -/
  fok : Bool
  /-- `FNACK`: frame result accumulator, a NACK was seen (R46) -/
  fnack : Bool
  /-- `AOK`: INIT_DISPLAY result accumulator, success so far (R46) -/
  aok : Bool
  /-- `ANACK`: INIT_DISPLAY result accumulator, a NACK was seen (R46) -/
  anack : Bool
  /-- `DLY`: the delay down-counter, in ticks (R47) -/
  dly : Ticks
  /-- `TRACE`: the observable history, the oldest event first (R50) -/
  trace : List Event
  /-- the MODEL's own: the parameters of this run, written by no step (R49: "fixed for a run") -/
  cfg : Params
  /-- the MODEL's own: the inputs still to come -/
  env : Env
  /-- the MODEL's own: how many free values have been read -/
  freeCtr : Nat
  deriving DecidableEq, Repr

/-- The state right after reset (R51). `txbuf`, `cwr`, `rsp` and `frame` are unspecified there; their 0 is the model's
(notes/assumptions/1.md). The last three fields are the model's own (notes/assumptions/3.md, 4.md, 6.md). -/
def State.reset : State where
  en := false
  cfgSlew := false
  cfgMaster := false
  div := 0
  bcl := false
  wcol := false
  xdone := false
  xbusy := false
  rbusy := false
  spend := false
  ppend := false
  sdet := false
  pdet := false
  ackstat := false
  txbuf := 0
  err := false
  tstate := .idle
  cwr := 0
  rsp := 0
  seq := []
  frame := ⟨0, 0, 0, 0⟩
  fidx := 0
  fok := false
  fnack := false
  aok := false
  anack := false
  dly := 0
  trace := [.reset]
  cfg := Params.default
  env := Env.none
  freeCtr := 0

end Sys2Proof.Machine
end

