-- ==== Sys2Proof/Machine/Ops.lean ====
section
/-! DEFINITION. The named operations every meaning is built from: the sequencer's primitives (00_scope.md R15), the
activity requests (20_memory.md R77), the two ways a bus condition is confirmed or fails (60_exceptions.md R201, R208,
R210), the response (30_encoding.md R106), acceptance (R113), and the steps of TMR and RST.

This core takes no exception: a failure transfers control nowhere and nothing is saved (60_exceptions.md R208). What
stands in an exception's place is `raiseBusFailure`, the complete effect of a bus-condition failure, and beside it
`confirmBoundary`, which ends one (R210). -/

namespace Sys2Proof.Machine

/-- `emit E`: append an event to `TRACE` (R15, R50). -/
def emit (e : Event) (s : State) : State := { s with trace := s.trace ++ [e] }

/-- `goto L`, and the advance to the next label: the top entry becomes `l` (R15, R42). -/
def goto (l : Entry) (k : List Entry) (s : State) : State := { s with seq := l :: k }

/-- `call P`: the caller advances to `next` and `callee` is pushed (R15, R42). -/
def call (callee next : Entry) (k : List Entry) (s : State) : State := { s with seq := callee :: next :: k }

/-- What a procedure hands to its caller. -/
inductive Ret where
  /-- `ret` (waitReady, delay) -/
  | unit
  /-- `ret (r)`: success or failure of beginTransaction and endTransaction, the acknowledgment of writeByte -/
  | bit (b : Bool)
  /-- `ret (ok, nack)` of sendFrame, sendCommand and sendCharacter -/
  | pair (ok nack : Bool)
  deriving DecidableEq, Repr

/-- Bind a result in the caller, which stands at the label after its call (R15, R42). Only a caller of R140's list that
awaits a result of this kind takes it; beginTransaction discards the result of writeByte (BG.4). -/
def bindResult (r : Ret) (caller : Entry) : Option Entry :=
  match r, caller with
  | .unit, .hw1 => some .hw1
  | .unit, .bg1 a => some (.bg1 a)
  | .unit, .wr1 v => some (.wr1 v)
  | .unit, .en1 => some .en1
  | .unit, .sf1 => some .sf1
  | .unit, .sf5 => some .sf5
  | .unit, .cl2 p => some (.cl2 p)
  | .bit b, .hb1 _ => some (.hb1 (some b))
  | .bit b, .hx1 _ => some (.hx1 (some b))
  | .bit b, .he1 _ => some (.he1 (some b))
  | .bit _, .bg5 => some .bg5
  | .bit b, .sf2 _ => some (.sf2 (some b))
  | .bit b, .sf4 _ => some (.sf4 (some b))
  | .bit b, .sf7 _ => some (.sf7 (some b))
  | .pair ok nack, .hf2 _ => some (.hf2 (some (ok, nack)))
  | .pair ok nack, .sc2 _ => some (.sc2 (some (ok, nack)))
  | .pair ok nack, .sd2 _ => some (.sd2 (some (ok, nack)))
  | .pair ok nack, .hc1 _ => some (.hc1 (some (ok, nack)))
  | .pair ok nack, .hd1 _ => some (.hd1 (some (ok, nack)))
  | .pair ok nack, .id2 i _ => some (.id2 i (some (ok, nack)))
  | .pair ok nack, .cl1 _ => some (.cl1 (some (ok, nack)))
  | .pair ok nack, .cu1 _ => some (.cu1 (some (ok, nack)))
  | _, _ => none

/-- `ret (r)`: pop the top entry and bind the result in the caller (R15, R42). -/
def ret (r : Ret) (k : List Entry) (s : State) : Result State Fault Refusal :=
  match k with
  | [] => .fault .malformedSeq
  | caller :: k' =>
    match bindResult r caller with
    | some e => .next (goto e k' s)
    | none => .fault .malformedSeq

/-- The step that reads a bound result: it stops on one that no `ret` has bound. -/
def withBound {α : Type} (r : Option α) (f : α → Result State Fault Refusal) : Result State Fault Refusal :=
  match r with
  | some a => f a
  | none => .fault .malformedSeq

/-- The response word `{ill, nack, ok}` (30_encoding.md R106). -/
def rspWord (ok nack ill : Bool) : RspWord := bit ill ++ bit nack ++ bit ok

/-- `respond(ok, nack, ill)`: `RSP` is written, `EvRsp` emitted and `SEQ` emptied (30_encoding.md R106). -/
def respond (ok nack ill : Bool) (s : State) : State :=
  emit (.rsp (rspWord ok nack ill)) { s with rsp := rspWord ok nack ill, seq := [] }

/-- `StartReq` (20_memory.md R77), with the state BG.1 enters (10_state.md R39). -/
def requestStart (s : State) : State := { s with spend := true, tstate := .startPending }

/-- `ByteReq(v)` (20_memory.md R77): `TXBUF` is loaded. -/
def requestByte (v : Byte) (s : State) : State := { s with txbuf := v, xbusy := true }

/-- `StopReq` (20_memory.md R77), with the state EN.1 enters (10_state.md R39). -/
def requestStop (s : State) : State := { s with ppend := true, tstate := .stopPending }

/-- `raise Failure` for F1 and F2, a start or a stop that is not confirmed: this is its complete effect
(60_exceptions.md R201, R208). -/
def raiseBusFailure (s : State) : State := emit (.err true) { s with err := true, tstate := .idle }

/-- A confirmed start or stop clears the Error Signal (60_exceptions.md R210); `t` is the state it enters
(10_state.md R39). -/
def confirmBoundary (t : TState) (s : State) : State := emit (.err false) { s with err := false, tstate := t }

/-- The same state with another order of the agents' steps to come. -/
def State.withTurns (ts : List Turn) (s : State) : State := { s with env := { s.env with turns := ts } }

/-- One step of ENG, BUS, TMR or RST passes: the turn that was given for it, if one was, is over. -/
def State.elapse (s : State) : State := s.withTurns s.env.turns.tail

/-- The next step is a Reset step: `rst = 1`. -/
def State.resetDue (s : State) : Bool :=
  match s.env.turns with
  | .rst :: _ => true
  | _ => false

/-- The port `busy`: an operation is in progress (30_encoding.md R113). -/
def State.busy (s : State) : Bool := !s.seq.isEmpty

/-- The port `cmd_ready`: `SEQ` empty and `rst = 0` (30_encoding.md R113). -/
def State.cmdReady (s : State) : Bool := s.seq.isEmpty && !s.resetDue

/-- Acceptance of the command word `w`, whose operation begins at the entry `e`: HOST's one step (30_encoding.md R113). -/
def accept (w : CmdWord) (e : Entry) (s : State) : State :=
  emit (.cmd w) { s with cwr := w, seq := [e] }

/-- TMR step `Tick` (60_exceptions.md R214): `DLY` counts down to 0 and stays there. -/
def tick (s : State) : State := { s with dly := if s.dly = 0 then 0 else s.dly - 1 }

/-- RST step `Reset` (70_reset_and_hazards.md R230): every piece of state at its reset value and `EvReset` emitted. The
operation in progress is abandoned with no response and no stop condition (R231). What R230 leaves unspecified is a free
value (notes/assumptions/4.md). The parameters and the inputs are not the core's and stay. -/
def resetStep (s : State) : State :=
  let c := s.freeCtr
  { State.reset with
    txbuf := (Config.freeWord c).setWidth 8
    frame := ⟨(Config.freeWord (c + 1)).setWidth 8, (Config.freeWord (c + 2)).setWidth 8,
      (Config.freeWord (c + 3)).setWidth 8, (Config.freeWord (c + 4)).setWidth 8⟩
    cwr := Config.freeWord (c + 5)
    rsp := (Config.freeWord (c + 6)).setWidth 3
    trace := s.trace ++ [.reset]
    cfg := s.cfg
    env := s.env
    freeCtr := c + 7 }

end Sys2Proof.Machine
end

