-- ==== Sys2Proof/Machine/Flags.lean ====
section
/-! DEFINITION. What the flags are computed from and to: the collision recovery of waitReady (40_engine_ops.md R132), the
load of the shift register with its write-collision case (R134), the outcomes of the three activities (20_memory.md R78 to
R80), the state after a returned byte (10_state.md R39), and the derived predicate `BusIdle` (R35). -/

namespace Sys2Proof.Machine

/-- WT.0: if a collision flag is set, both are cleared (R132, 60_exceptions.md R203). -/
def recoverCollision (s : State) : State :=
  if s.bcl || s.wcol then { s with bcl := false, wcol := false } else s

/-- What WT.1 waits for (R132). -/
def State.transferring (s : State) : Bool := s.xbusy || s.rbusy

/-- The condition of the write-collision branch of WR.1 (R134, 10_state.md R26). -/
def State.loadBlocked (s : State) : Bool := s.xbusy || s.spend || s.ppend

/-- WR.1: the load of the shift register; a load while the bus hardware is busy is discarded and sets `WCOL` (R134). -/
def loadShift (v : Byte) (s : State) : State :=
  if s.loadBlocked then { s with wcol := true } else requestByte v s

/-- `TSTATE` after a byte has returned, WR.4 (10_state.md R39). -/
def TState.afterByte : TState → TState
  | .addressSent => .dataSent
  | .dataSent => .dataSent
  | .idle => .idle
  | .startPending => .startPending
  | .startConfirmed => .startConfirmed
  | .stopPending => .stopPending

/-- BUS step `StartDone` with the draw `o` (20_memory.md R78). -/
def startDone (o : CondOutcome) (s : State) : State :=
  match o with
  | .detected => emit .start { s with spend := false, sdet := true, pdet := false }
  | .missing => { s with spend := false, sdet := false }
  | .collided => emit (.coll .start) { s with spend := false, sdet := false, bcl := true }

/-- BUS step `ByteDone` with the draw `o` (20_memory.md R79). -/
def byteDone (o : ByteOutcome) (s : State) : State :=
  match o with
  | .acked => emit (.byte s.txbuf false) { s with xbusy := false, xdone := true, ackstat := false }
  | .nacked => emit (.byte s.txbuf true) { s with xbusy := false, xdone := true, ackstat := true }
  | .collided d k => emit (.coll .byte) { s with xbusy := false, bcl := true, xdone := d, ackstat := k }

/-- BUS step `StopDone` with the draw `o` (20_memory.md R80). -/
def stopDone (o : CondOutcome) (s : State) : State :=
  match o with
  | .detected => emit .stop { s with ppend := false, pdet := true, sdet := false }
  | .missing => { s with ppend := false, pdet := false }
  | .collided => emit (.coll .stop) { s with ppend := false, pdet := false, bcl := true }

/-- `BusIdle` (10_state.md R35). -/
def State.busIdle (s : State) : Bool := !s.xbusy && !s.rbusy && !s.spend && !s.ppend

end Sys2Proof.Machine
end

