-- ==== Sys2Proof/Machine/Operands.lean ====
section
/-! DEFINITION. What the operations compute their operands with: the fields of `CWR` (30_encoding.md R102), the encode
function (41_encoder_ops.md R160), the command byte of SET_CURSOR (42_display_ops.md R183), and the elements of `FRAME`
and `INITSEQ`. These are all the computed operands there are (30_encoding.md R114, 41_encoder_ops.md R168). -/

namespace Sys2Proof.Machine

/-- The byte operand `CWR[7:0]` of BEGIN, WRITE, SEND_CMD, SEND_CHAR and SET_CURSOR, and `f0` of SEND_FRAME. -/
def State.opByte (s : State) : Byte := byte0 s.cwr

/-- The four operands of SEND_FRAME as HF.0 loads them (R162). -/
def State.opFrame (s : State) : Frame := ⟨byte0 s.cwr, byte1 s.cwr, byte2 s.cwr, byte3 s.cwr⟩

/-- The operand `row`, `CWR[8]` (R183). -/
def State.opRow (s : State) : BitVec 1 := rowField s.cwr

/-- The control bits of an expander byte: backlight on, read/write 0, register-select `rs` (R160). -/
def ctlBits (rs : Bool) : Byte := 0x08 ||| (bit rs).setWidth 8

/-- `encode(v, rs)` (R160): the value as four expander bytes. -/
def encodeFrame (v : Byte) (rs : Bool) : Frame :=
  let ctl := ctlBits rs
  let hi := v &&& 0xF0
  let lo := (v <<< 4) &&& 0xF0
  ⟨hi ||| ctl ||| 0x04, hi ||| ctl, lo ||| ctl ||| 0x04, lo ||| ctl⟩

/-- The command byte of SET_CURSOR, `base | col`, unmasked and unchecked (R183). -/
def cursorByte (p : Params) (row : BitVec 1) (col : Byte) : Byte :=
  (if row = 0 then p.row0Base else p.row1Base) ||| col

/-- `FRAME[i]` (R44); there are four elements. -/
def Frame.get? (f : Frame) (i : BitVec 3) : Option Byte :=
  match i.toNat with
  | 0 => some f.f0
  | 1 => some f.f1
  | 2 => some f.f2
  | 3 => some f.f3
  | _ => none

/-- `INITSEQ[k]` (R180); there are five elements. -/
def Params.initCmd? (p : Params) (k : BitVec 3) : Option Byte := p.initSeq[k.toNat]?

end Sys2Proof.Machine
end

