-- ==== Sys2Proof/Machine/Display.lean ====
section
/-! DEFINITION. The labelled steps of the display operations, one definition per label of the listings of
42_display_ops.md R181 to R183, in the form of Machine/Engine.lean. -/

namespace Sys2Proof.Machine

/-! ## operation INIT_DISPLAY (R181) -/

/-- ID.0 -/
def id0 (k : List Entry) (s : State) : Result State Fault Refusal :=
  .next (goto (.id1 0) k { s with aok := true, anack := false })

/-- ID.1: the loop over the five commands of `INITSEQ`. -/
def id1 (i : BitVec 3) (k : List Entry) (s : State) : Result State Fault Refusal :=
  if i = 5 then .next (goto .id3 k s)
  else match Params.initCmd? s.cfg i with
    | some c => .next (call (.sc0 c) (.id2 i none) k s)
    | none => .fault .noSuchElement

/-- ID.2: the frame's result is accumulated; a failed frame does not stop the sequence. -/
def id2 (i : BitVec 3) (r : Option (Bool × Bool)) (k : List Entry) (s : State) : Result State Fault Refusal :=
  withBound r fun r => .next (goto (.id1 (i + 1)) k { s with aok := s.aok && r.1, anack := s.anack || r.2 })

/-- ID.3 -/
def id3 (_k : List Entry) (s : State) : Result State Fault Refusal := .next (respond s.aok s.anack false s)

/-! ## operation CLEAR (R182) -/

/-- CL.0 -/
def cl0 (k : List Entry) (s : State) : Result State Fault Refusal := .next (call (.sc0 s.cfg.cmdClear) (.cl1 none) k s)

/-- CL.1: the settle delay, made whether or not the frame succeeded. -/
def cl1 (r : Option (Bool × Bool)) (k : List Entry) (s : State) : Result State Fault Refusal :=
  .next (call (.dl0 s.cfg.nClear) (.cl2 r) k s)

/-- CL.2 -/
def cl2 (r : Option (Bool × Bool)) (_k : List Entry) (s : State) : Result State Fault Refusal :=
  withBound r fun r => .next (respond r.1 r.2 false s)

/-! ## operation SET_CURSOR (R183) -/

/-- CU.0 -/
def cu0 (k : List Entry) (s : State) : Result State Fault Refusal :=
  .next (call (.sc0 (cursorByte s.cfg s.opRow s.opByte)) (.cu1 none) k s)

/-- CU.1 -/
def cu1 (r : Option (Bool × Bool)) (_k : List Entry) (s : State) : Result State Fault Refusal :=
  withBound r fun r => .next (respond r.1 r.2 false s)

end Sys2Proof.Machine
end

