-- ==== Sys2Proof/Machine/Encoder.lean ====
section
/-! DEFINITION. The labelled steps of the encoder's operations and procedures, one definition per label of the listings of
41_encoder_ops.md R161 to R164, in the form of Machine/Engine.lean. -/

namespace Sys2Proof.Machine

/-! ## procedure delay (R161) -/

/-- DL.0: the counter is loaded. -/
def dl0 (n : Ticks) (k : List Entry) (s : State) : Result State Fault Refusal := .next (goto (.dl1 n) k { s with dly := n })

/-- DL.1: passed when the counter is 0. -/
def dl1 (n : Ticks) (k : List Entry) (s : State) : Result State Fault Refusal := .next (goto (.dl2 n) k s)

/-- DL.2 -/
def dl2 (n : Ticks) (k : List Entry) (s : State) : Result State Fault Refusal := ret .unit k (emit (.delay n) s)

/-! ## procedure sendFrame and operation SEND_FRAME (R162) -/

/-- SF.0 -/
def sf0 (k : List Entry) (s : State) : Result State Fault Refusal := .next (call .wt0 .sf1 k s)

/-- SF.1: the transaction to the expander is opened. -/
def sf1 (k : List Entry) (s : State) : Result State Fault Refusal :=
  .next (call (.bg0 s.cfg.expAddrByte) (.sf2 none) k { s with fnack := false, fidx := 0 })

/-- SF.2: on a failed start the frame is given up, if `ENC_CHECK_START`; on success the address byte's answer is taken
from `ACKSTAT`. -/
def sf2 (r : Option Bool) (k : List Entry) (s : State) : Result State Fault Refusal :=
  withBound r fun r =>
    if r then .next (goto .sf3 k { s with fok := true, fnack := s.ackstat })
    else if s.cfg.encCheckStart then ret (.pair false false) k { s with fok := false }
    else .next (goto .sf3 k { s with fok := false })

/-- SF.3: the loop over the four bytes. -/
def sf3 (k : List Entry) (s : State) : Result State Fault Refusal :=
  if s.fidx = 4 then .next (goto .sf6 k s)
  else match s.frame.get? s.fidx with
    | some v => .next (call (.wr0 v) (.sf4 none) k s)
    | none => .fault .noSuchElement

/-- SF.4: the answer is accumulated and the post-write delay made, whatever the answer. -/
def sf4 (a : Option Bool) (k : List Entry) (s : State) : Result State Fault Refusal :=
  withBound a fun a => .next (call (.dl0 s.cfg.nStrobe) .sf5 k { s with fnack := s.fnack || a })

/-- SF.5 -/
def sf5 (k : List Entry) (s : State) : Result State Fault Refusal := .next (goto .sf3 k { s with fidx := s.fidx + 1 })

/-- SF.6: the transaction is closed. -/
def sf6 (k : List Entry) (s : State) : Result State Fault Refusal := .next (call .en0 (.sf7 none) k s)

/-- SF.7 -/
def sf7 (r2 : Option Bool) (k : List Entry) (s : State) : Result State Fault Refusal :=
  withBound r2 fun r2 => ret (.pair (s.fok && r2) s.fnack) k { s with fok := s.fok && r2 }

/-- HF.0: the four operands are loaded, unchecked. -/
def hf0 (k : List Entry) (s : State) : Result State Fault Refusal := .next (goto .hf1 k { s with frame := s.opFrame })

/-- HF.1 -/
def hf1 (k : List Entry) (s : State) : Result State Fault Refusal := .next (call .sf0 (.hf2 none) k s)

/-- HF.2 -/
def hf2 (r : Option (Bool × Bool)) (_k : List Entry) (s : State) : Result State Fault Refusal :=
  withBound r fun r => .next (respond r.1 r.2 false s)

/-! ## procedure sendCommand and operation SEND_CMD (R163) -/

/-- SC.0: the frame with register-select cleared. -/
def sc0 (v : Byte) (k : List Entry) (s : State) : Result State Fault Refusal :=
  .next (goto .sc1 k { s with frame := encodeFrame v false })

/-- SC.1 -/
def sc1 (k : List Entry) (s : State) : Result State Fault Refusal := .next (call .sf0 (.sc2 none) k s)

/-- SC.2 -/
def sc2 (r : Option (Bool × Bool)) (k : List Entry) (s : State) : Result State Fault Refusal :=
  withBound r fun r => ret (.pair r.1 r.2) k s

/-- HC.0 -/
def hc0 (k : List Entry) (s : State) : Result State Fault Refusal := .next (call (.sc0 s.opByte) (.hc1 none) k s)

/-- HC.1 -/
def hc1 (r : Option (Bool × Bool)) (_k : List Entry) (s : State) : Result State Fault Refusal :=
  withBound r fun r => .next (respond r.1 r.2 false s)

/-! ## procedure sendCharacter and operation SEND_CHAR (R164) -/

/-- SD.0: the frame with register-select set. -/
def sd0 (v : Byte) (k : List Entry) (s : State) : Result State Fault Refusal :=
  .next (goto .sd1 k { s with frame := encodeFrame v true })

/-- SD.1 -/
def sd1 (k : List Entry) (s : State) : Result State Fault Refusal := .next (call .sf0 (.sd2 none) k s)

/-- SD.2 -/
def sd2 (r : Option (Bool × Bool)) (k : List Entry) (s : State) : Result State Fault Refusal :=
  withBound r fun r => ret (.pair r.1 r.2) k s

/-- HD.0 -/
def hd0 (k : List Entry) (s : State) : Result State Fault Refusal := .next (call (.sd0 s.opByte) (.hd1 none) k s)

/-- HD.1 -/
def hd1 (r : Option (Bool × Bool)) (_k : List Entry) (s : State) : Result State Fault Refusal :=
  withBound r fun r => .next (respond r.1 r.2 false s)

end Sys2Proof.Machine
end

