-- ==== Sys2Proof/Machine/Engine.lean ====
section
/-! DEFINITION. The labelled steps of the engine's operations and procedures, one definition per label of the listings of
40_engine_ops.md R131 to R135. Each is one atomic ENG step (00_scope.md R15). `k` is the stack below the entry that is
taken; `s` still holds that entry on top. A `hold while` step is defined for the case that its condition is false: while
the condition holds the step is not enabled (`State.held`, Machine/Sequencer.lean). -/

namespace Sys2Proof.Machine

/-! ## operation INIT (R131) -/

/-- IN.0: slew-rate control is configured. -/
def in0 (k : List Entry) (s : State) : Result State Fault Refusal := .next (goto .in1 k { s with cfgSlew := true })

/-- IN.1: master mode; the peripheral is armed. -/
def in1 (k : List Entry) (s : State) : Result State Fault Refusal :=
  .next (goto .in2 k { s with cfgMaster := true, en := true })

/-- IN.2: the clock-rate divisor. -/
def in2 (k : List Entry) (s : State) : Result State Fault Refusal := .next (goto .in3 k { s with div := s.cfg.brgDiv })

/-- IN.3: the transfer-complete flag is cleared. -/
def in3 (k : List Entry) (s : State) : Result State Fault Refusal := .next (goto .in4 k { s with xdone := false })

/-- IN.4: "No error return". -/
def in4 (_k : List Entry) (s : State) : Result State Fault Refusal := .next (respond true false false s)

/-! ## procedure waitReady and operation WAIT_READY (R132) -/

/-- WT.0: the collision flags are tested, once. -/
def wt0 (k : List Entry) (s : State) : Result State Fault Refusal := .next (goto .wt1 k (recoverCollision s))

/-- WT.1: passed when no transfer is in progress. -/
def wt1 (k : List Entry) (s : State) : Result State Fault Refusal := .next (goto .wt2 k s)

/-- WT.2: the transfer-complete flag is cleared. -/
def wt2 (k : List Entry) (s : State) : Result State Fault Refusal := .next (goto .wt3 k { s with xdone := false })

/-- WT.3 -/
def wt3 (k : List Entry) (s : State) : Result State Fault Refusal := ret .unit k s

/-- HW.0 -/
def hw0 (k : List Entry) (s : State) : Result State Fault Refusal := .next (call .wt0 .hw1 k s)

/-- HW.1: collisions are "never surfaced". -/
def hw1 (_k : List Entry) (s : State) : Result State Fault Refusal := .next (respond true false false s)

/-! ## procedure beginTransaction and operation BEGIN (R133) -/

/-- BG.0 -/
def bg0 (a : Byte) (k : List Entry) (s : State) : Result State Fault Refusal := .next (call .wt0 (.bg1 a) k s)

/-- BG.1: the start condition is requested. -/
def bg1 (a : Byte) (k : List Entry) (s : State) : Result State Fault Refusal := .next (goto (.bg2 a) k (requestStart s))

/-- BG.2: passed when the start-condition-in-progress flag is clear. -/
def bg2 (a : Byte) (k : List Entry) (s : State) : Result State Fault Refusal := .next (goto (.bg3 a) k s)

/-- BG.3: the start check. -/
def bg3 (a : Byte) (k : List Entry) (s : State) : Result State Fault Refusal :=
  if s.sdet then .next (goto (.bg4 a) k (confirmBoundary .startConfirmed s))
  else ret (.bit false) k (raiseBusFailure s)

/-- BG.4: the address byte. -/
def bg4 (a : Byte) (k : List Entry) (s : State) : Result State Fault Refusal := .next (call (.wr0 a) .bg5 k s)

/-- BG.5: success, whatever the peer answered to the address byte. -/
def bg5 (k : List Entry) (s : State) : Result State Fault Refusal := ret (.bit true) k { s with tstate := .addressSent }

/-- HB.0 -/
def hb0 (k : List Entry) (s : State) : Result State Fault Refusal := .next (call (.bg0 s.opByte) (.hb1 none) k s)

/-- HB.1 -/
def hb1 (r : Option Bool) (_k : List Entry) (s : State) : Result State Fault Refusal :=
  withBound r fun r => .next (respond r false false s)

/-! ## procedure writeByte and operation WRITE (R134) -/

/-- WR.0 -/
def wr0 (v : Byte) (k : List Entry) (s : State) : Result State Fault Refusal := .next (call .wt0 (.wr1 v) k s)

/-- WR.1: the byte is loaded into the shift register. -/
def wr1 (v : Byte) (k : List Entry) (s : State) : Result State Fault Refusal := .next (goto .wr2 k (loadShift v s))

/-- WR.2: passed when the transfer-complete flag is set. -/
def wr2 (k : List Entry) (s : State) : Result State Fault Refusal := .next (goto .wr3 k s)

/-- WR.3: the transfer-complete flag is cleared. -/
def wr3 (k : List Entry) (s : State) : Result State Fault Refusal := .next (goto .wr4 k { s with xdone := false })

/-- WR.4: the acknowledgment is returned. -/
def wr4 (k : List Entry) (s : State) : Result State Fault Refusal :=
  ret (.bit s.ackstat) k { s with tstate := s.tstate.afterByte }

/-- HX.0 -/
def hx0 (k : List Entry) (s : State) : Result State Fault Refusal := .next (call (.wr0 s.opByte) (.hx1 none) k s)

/-- HX.1 -/
def hx1 (a : Option Bool) (_k : List Entry) (s : State) : Result State Fault Refusal :=
  withBound a fun a => .next (respond true a false s)

/-! ## procedure endTransaction and operation END (R135) -/

/-- EN.0 -/
def en0 (k : List Entry) (s : State) : Result State Fault Refusal := .next (call .wt0 .en1 k s)

/-- EN.1: the stop condition is requested. -/
def en1 (k : List Entry) (s : State) : Result State Fault Refusal := .next (goto .en2 k (requestStop s))

/-- EN.2: passed when the stop-condition-in-progress flag is clear. -/
def en2 (k : List Entry) (s : State) : Result State Fault Refusal := .next (goto .en3 k s)

/-- EN.3: the stop check. -/
def en3 (k : List Entry) (s : State) : Result State Fault Refusal :=
  if s.pdet then ret (.bit true) k (confirmBoundary .idle s)
  else ret (.bit false) k (raiseBusFailure s)

/-- HE.0 -/
def he0 (k : List Entry) (s : State) : Result State Fault Refusal := .next (call .en0 (.he1 none) k s)

/-- HE.1 -/
def he1 (r : Option Bool) (_k : List Entry) (s : State) : Result State Fault Refusal :=
  withBound r fun r => .next (respond r false false s)

/-! ## a reserved opcode (30_encoding.md R104) -/

/-- The one step of a reserved opcode: `ill = 1, ok = 0, nack = 0`. -/
def rv0 (_k : List Entry) (s : State) : Result State Fault Refusal := .next (respond false false true s)

end Sys2Proof.Machine
end

