-- ==== Sys2Proof/Machine/Sequencer.lean ====
section
/-! DEFINITION. What a step of each agent is, and who takes the next one (00_scope.md R8, R15, R16).

`engStep` is one labelled step of the operation in progress; `busStep p` completes the pending activity `p` with the next draw
of its kind (20_memory.md R78 to R82); `tick` and `resetStep` (Machine/Ops.lean) are the steps of TMR and RST. Between two ENG
steps any step of BUS, TMR or RST may fall (R15), so the order is an input: `env.turns` gives it, as far as it is given. After
that ENG goes on when its step is enabled, else BUS, else TMR (notes/assumptions/7.md). `run` takes these steps until the
operation has ended or nobody moves. -/

namespace Sys2Proof.Machine

/-- The top entry is a `hold while` step whose condition holds, so that ENG has no step (R15). -/
def State.held (s : State) : Bool :=
  match s.seq with
  | .wt1 :: _ => s.transferring
  | .bg2 _ :: _ => s.spend
  | .wr2 :: _ => !s.xdone
  | .en2 :: _ => s.ppend
  | .dl1 _ :: _ => s.dly != 0
  | _ => false

/-- The step at the top entry `e`, with the stack `k` below it. -/
def stepAt (e : Entry) (k : List Entry) (s : State) : Result State Fault Refusal :=
  match e with
  | .in0 => in0 k s
  | .in1 => in1 k s
  | .in2 => in2 k s
  | .in3 => in3 k s
  | .in4 => in4 k s
  | .wt0 => wt0 k s
  | .wt1 => wt1 k s
  | .wt2 => wt2 k s
  | .wt3 => wt3 k s
  | .hw0 => hw0 k s
  | .hw1 => hw1 k s
  | .bg0 a => bg0 a k s
  | .bg1 a => bg1 a k s
  | .bg2 a => bg2 a k s
  | .bg3 a => bg3 a k s
  | .bg4 a => bg4 a k s
  | .bg5 => bg5 k s
  | .hb0 => hb0 k s
  | .hb1 r => hb1 r k s
  | .wr0 v => wr0 v k s
  | .wr1 v => wr1 v k s
  | .wr2 => wr2 k s
  | .wr3 => wr3 k s
  | .wr4 => wr4 k s
  | .hx0 => hx0 k s
  | .hx1 a => hx1 a k s
  | .en0 => en0 k s
  | .en1 => en1 k s
  | .en2 => en2 k s
  | .en3 => en3 k s
  | .he0 => he0 k s
  | .he1 r => he1 r k s
  | .dl0 n => dl0 n k s
  | .dl1 n => dl1 n k s
  | .dl2 n => dl2 n k s
  | .sf0 => sf0 k s
  | .sf1 => sf1 k s
  | .sf2 r => sf2 r k s
  | .sf3 => sf3 k s
  | .sf4 a => sf4 a k s
  | .sf5 => sf5 k s
  | .sf6 => sf6 k s
  | .sf7 r => sf7 r k s
  | .hf0 => hf0 k s
  | .hf1 => hf1 k s
  | .hf2 r => hf2 r k s
  | .sc0 v => sc0 v k s
  | .sc1 => sc1 k s
  | .sc2 r => sc2 r k s
  | .hc0 => hc0 k s
  | .hc1 r => hc1 r k s
  | .sd0 v => sd0 v k s
  | .sd1 => sd1 k s
  | .sd2 r => sd2 r k s
  | .hd0 => hd0 k s
  | .hd1 r => hd1 r k s
  | .id0 => id0 k s
  | .id1 i => id1 i k s
  | .id2 i r => id2 i r k s
  | .id3 => id3 k s
  | .cl0 => cl0 k s
  | .cl1 r => cl1 r k s
  | .cl2 r => cl2 r k s
  | .cu0 => cu0 k s
  | .cu1 r => cu1 r k s
  | .rv0 => rv0 k s

/-- ENG's step is enabled: an operation is in progress and its next step does not hold (R15). -/
def State.engReady (s : State) : Bool := !s.seq.isEmpty && !s.held

/-- One ENG step; a `hold while` step whose condition holds is not enabled and does nothing (R15). -/
def engStep (s : State) : Result State Fault Refusal :=
  match s.seq with
  | [] => .next s
  | e :: k => if s.held then .next s else stepAt e k s

/-- BUS can complete a pending start now: the peripheral is armed, a start is pending and a draw has arrived (R78, R81). -/
def State.startReady (s : State) : Bool := s.en && s.spend && !s.env.starts.isEmpty

/-- BUS can complete a pending byte now (R79, R81). -/
def State.byteReady (s : State) : Bool := s.en && s.xbusy && !s.env.bytes.isEmpty

/-- BUS can complete a pending stop now (R80, R81). -/
def State.stopReady (s : State) : Bool := s.en && s.ppend && !s.env.stops.isEmpty

/-- BUS can complete the activity `p` now. -/
def State.activityReady (p : Activity) (s : State) : Bool :=
  match p with
  | .start => s.startReady
  | .byte => s.byteReady
  | .stop => s.stopReady

/-- BUS has a step (R81). -/
def State.busReady (s : State) : Bool := s.startReady || s.byteReady || s.stopReady

/-- The BUS step that completes the activity `p`, with the next draw of its kind; where it is not enabled it does nothing
(R81). -/
def busStep (p : Activity) (s : State) : State :=
  if s.activityReady p then
    match p with
    | .start =>
      match s.env.starts with
      | o :: os => startDone o { s with env := { s.env with starts := os } }
      | [] => s
    | .byte =>
      match s.env.bytes with
      | o :: os => byteDone o { s with env := { s.env with bytes := os } }
      | [] => s
    | .stop =>
      match s.env.stops with
      | o :: os => stopDone o { s with env := { s.env with stops := os } }
      | [] => s
  else s

/-- Whose step is next: the turn that is given, else the model's own order; `none` when no turn is given and nobody can move:
an idle core, or an unbounded wait (60_exceptions.md R204). -/
def mover (s : State) : Option Turn :=
  match s.env.turns with
  | a :: _ => some a
  | [] =>
    if s.engReady then some .eng
    else if s.startReady then some (.bus .start)
    else if s.byteReady then some (.bus .byte)
    else if s.stopReady then some (.bus .stop)
    else if s.dly != 0 then some .tmr
    else none

/-- One step of one agent, in any order: a step of ENG or BUS that is not enabled does nothing, a tick may fall at any time
(60_exceptions.md R214), and so may a Reset step (70_reset_and_hazards.md R230). -/
def agentStep (a : Turn) (s : State) : Result State Fault Refusal :=
  match a with
  | .eng => engStep s.elapse
  | .bus p => .next (busStep p s.elapse)
  | .tmr => .next (tick s.elapse)
  | .rst => .next (resetStep s.elapse)

/-- The step of the agent whose turn it is; where nobody can move, nothing changes, for ever (U13). -/
def microStep (s : State) : Result State Fault Refusal :=
  match mover s with
  | none => .next s
  | some a => agentStep a s

/-- Steps of the agents, at most `fuel` of them, until `SEQ` is empty or nobody can move. -/
def run : Nat → State → Result State Fault Refusal
  | 0, s => .next s
  | fuel + 1, s =>
    if s.seq.isEmpty then .next s
    else match mover s with
      | none => .next s
      | some a =>
        match agentStep a s with
        | .next s' => run fuel s'
        | .fault r => .fault r
        | .refused r => .refused r

/-- More steps than any operation takes: its own labelled steps, its activities, its ticks and the turns that are given
(notes/assumptions/9.md). -/
def opFuel (s : State) : Nat :=
  1000 + s.dly.toNat + 20 * s.cfg.nStrobe.toNat + s.cfg.nClear.toNat + s.env.turns.length

/-- Execution of an operation (40_engine_ops.md R130): the command is accepted and its steps are taken, with the steps of
the other agents that fall between them, until it responds or waits with nobody to move. While `cmd_ready = 0` no command is
accepted and nothing changes (30_encoding.md R113). -/
def issue (i : Instr) (e : Entry) (s : State) : Result State Fault Refusal :=
  if s.cmdReady then run (opFuel s) (accept (encode i) e s) else .next s

end Sys2Proof.Machine
end

