-- ==== Sys2Proof/Machine/DisplayOps.lean ====
section
/-! DEFINITION. The meanings of the display operations, INIT_DISPLAY, CLEAR and SET_CURSOR (42_display_ops.md R181 to R183,
steps in Machine/Display.lean). -/

namespace Sys2Proof.Machine

/-- INIT_DISPLAY (R181). -/
def execInitDisplay (u : BitVec 32) (s : State) : Result State Fault Refusal := issue (.initDisplay u) .id0 s

/-- CLEAR (R182). -/
def execClear (u : BitVec 32) (s : State) : Result State Fault Refusal := issue (.clear u) .cl0 s

/-- SET_CURSOR (R183). -/
def execSetCursor (row : BitVec 1) (col : Byte) (u : BitVec 23) (s : State) : Result State Fault Refusal :=
  issue (.setCursor row col u) .cu0 s

end Sys2Proof.Machine
end

