-- ==== Sys2Proof/Machine/EncoderOps.lean ====
section
/-! DEFINITION. The meanings of the encoder's operations, SEND_FRAME, SEND_CMD and SEND_CHAR (41_encoder_ops.md R162 to
R164, steps in Machine/Encoder.lean). -/

namespace Sys2Proof.Machine

/-- SEND_FRAME (R162). -/
def execSendFrame (f0 f1 f2 f3 : Byte) (s : State) : Result State Fault Refusal := issue (.sendFrame f0 f1 f2 f3) .hf0 s

/-- SEND_CMD (R163). -/
def execSendCmd (v : Byte) (u : BitVec 24) (s : State) : Result State Fault Refusal := issue (.sendCmd v u) .hc0 s

/-- SEND_CHAR (R164). -/
def execSendChar (v : Byte) (u : BitVec 24) (s : State) : Result State Fault Refusal := issue (.sendChar v u) .hd0 s

end Sys2Proof.Machine
end

