-- ==== Sys2Proof/Machine/EngineOps.lean ====
section
/-! DEFINITION. The meanings of the engine's operations, INIT, WAIT_READY, BEGIN, WRITE and END: execution from the first
step of the operation's listing (40_engine_ops.md R130 to R135, steps in Machine/Engine.lean). -/

namespace Sys2Proof.Machine

/-- INIT (R131). -/
def execInit (u : BitVec 32) (s : State) : Result State Fault Refusal := issue (.init u) .in0 s

/-- WAIT_READY (R132). -/
def execWaitReady (u : BitVec 32) (s : State) : Result State Fault Refusal := issue (.waitReady u) .hw0 s

/-- BEGIN (R133). -/
def execBegin (a : Byte) (u : BitVec 24) (s : State) : Result State Fault Refusal := issue (.beginTx a u) .hb0 s

/-- WRITE (R134). -/
def execWrite (v : Byte) (u : BitVec 24) (s : State) : Result State Fault Refusal := issue (.write v u) .hx0 s

/-- END (R135). -/
def execEnd (u : BitVec 32) (s : State) : Result State Fault Refusal := issue (.endTx u) .he0 s

end Sys2Proof.Machine
end

