-- ==== Sys2Proof/Machine/ReservedOps.lean ====
section
/-! DEFINITION. The meanings of the reserved opcodes 0xB to 0xF: accepted, answered at once with `ill = 1`, no other effect
(30_encoding.md R104, 60_exceptions.md R205). -/

namespace Sys2Proof.Machine

/-- Opcode 0xB. -/
def execReservedB (u : BitVec 32) (s : State) : Result State Fault Refusal := issue (.reservedB u) .rv0 s

/-- Opcode 0xC. -/
def execReservedC (u : BitVec 32) (s : State) : Result State Fault Refusal := issue (.reservedC u) .rv0 s

/-- Opcode 0xD. -/
def execReservedD (u : BitVec 32) (s : State) : Result State Fault Refusal := issue (.reservedD u) .rv0 s

/-- Opcode 0xE. -/
def execReservedE (u : BitVec 32) (s : State) : Result State Fault Refusal := issue (.reservedE u) .rv0 s

/-- Opcode 0xF. -/
def execReservedF (u : BitVec 32) (s : State) : Result State Fault Refusal := issue (.reservedF u) .rv0 s

end Sys2Proof.Machine
end

