-- ==== Sys2Proof/Machine/Dispatch.lean ====
section
/-! DEFINITION. What each command does, one arm per row of spec/opcode_table.json. -/

namespace Sys2Proof.Machine

def exec (i : Instr) (s : State) : Host.Outcome State Fault Refusal :=
  match i with
  | .init u => Sys2Proof.Machine.execInit u s
  | .waitReady u => Sys2Proof.Machine.execWaitReady u s
  | .beginTx a u => Sys2Proof.Machine.execBegin a u s
  | .write v u => Sys2Proof.Machine.execWrite v u s
  | .endTx u => Sys2Proof.Machine.execEnd u s
  | .sendFrame f0 f1 f2 f3 => Sys2Proof.Machine.execSendFrame f0 f1 f2 f3 s
  | .sendCmd v u => Sys2Proof.Machine.execSendCmd v u s
  | .sendChar v u => Sys2Proof.Machine.execSendChar v u s
  | .initDisplay u => Sys2Proof.Machine.execInitDisplay u s
  | .clear u => Sys2Proof.Machine.execClear u s
  | .setCursor row col u => Sys2Proof.Machine.execSetCursor row col u s
  | .reservedB u => Sys2Proof.Machine.execReservedB u s
  | .reservedC u => Sys2Proof.Machine.execReservedC u s
  | .reservedD u => Sys2Proof.Machine.execReservedD u s
  | .reservedE u => Sys2Proof.Machine.execReservedE u s
  | .reservedF u => Sys2Proof.Machine.execReservedF u s

end Sys2Proof.Machine
end

