-- ==== Sys2Proof/Machine/Fetch.lean ====
section
/-! DEFINITION. How a command reaches the core (30_encoding.md R113). The core fetches nothing: HOST presents command words at
the port, and the first word of `env.cmds` is the one `cmd_valid` and `cmd_word` present (20_memory.md R87). -/

namespace Sys2Proof.Machine

/-- The word that is accepted in this step, `cmd_valid = 1` and `cmd_ready = 1`, and the words after it. -/
def State.accepted (s : State) : Option (CmdWord × List CmdWord) :=
  match s.env.cmds with
  | w :: ws => if s.cmdReady then some (w, ws) else none
  | [] => none

/-- The host's words still to come. -/
def State.withCmds (ws : List CmdWord) (s : State) : State := { s with env := { s.env with cmds := ws } }

/-- The host will issue these commands after those it is to issue already. -/
def State.hostIssues (is : List Instr) (s : State) : State := s.withCmds (s.env.cmds ++ is.map encode)

/-- The word `w` of `nbits` bits stands at the command port of a core that takes it in the very next step: it is the first
of the host's words (in place of the one that stood there), no operation is in progress and `rst` is 0
(notes/assumptions/10.md). -/
def State.withPortWord (s : State) (nbits w : Nat) : State :=
  { s with
    seq := []
    env := { s.env with
      cmds := tableWord nbits w :: s.env.cmds.tail
      turns := s.env.turns.dropWhile (· == .rst) } }

end Sys2Proof.Machine
end

