-- ==== Sys2Proof/Machine/Step.lean ====
section
/-! DEFINITION. One step of the machine. When the core accepts the word at its port, the step is the command's whole
execution, `exec`. Otherwise it is one step of the agent whose turn it is: of an operation in progress, of the environment,
or, where nobody can move, nothing (60_exceptions.md R204, 93_implementation_defined.md U13). -/

namespace Sys2Proof.Machine

def step (s : State) : Host.Outcome State Fault Refusal :=
  match s.accepted with
  | some (w, ws) => exec (decodeWord w) (s.withCmds ws)
  | none => microStep s

/-- The state with a row of the opcode table at the command port, so that `step` accepts and runs it. -/
def State.withFetchWord (s : State) (nbits w : Nat) : State := s.withPortWord nbits w

end Sys2Proof.Machine
end

