-- ==== Sys2Proof/Machine/Assembly.lean ====
section
/-! DEFINITION. The assembly syntax of 30_encoding.md R111. `assemble` builds the command of a mnemonic and the values of its
operands, with the unassigned bits 0, and `Instr.assembly` takes a command apart; `parseLine` reads a line of text, the
pseudo-operation WRITE_STRING of R112 among them, and `wordText` writes a command word. What R111 leaves open about the text
is notes/assumptions/19.md. -/

namespace Sys2Proof

/-- The mnemonic of a command, as the opcode table spells it (R101). -/
def Instr.mnemonic : Instr → String
  | .init _ => "INIT"
  | .waitReady _ => "WAIT_READY"
  | .beginTx _ _ => "BEGIN"
  | .write _ _ => "WRITE"
  | .endTx _ => "END"
  | .sendFrame _ _ _ _ => "SEND_FRAME"
  | .sendCmd _ _ => "SEND_CMD"
  | .sendChar _ _ => "SEND_CHAR"
  | .initDisplay _ => "INIT_DISPLAY"
  | .clear _ => "CLEAR"
  | .setCursor _ _ _ => "SET_CURSOR"
  | .reservedB _ => "RESERVED_B"
  | .reservedC _ => "RESERVED_C"
  | .reservedD _ => "RESERVED_D"
  | .reservedE _ => "RESERVED_E"
  | .reservedF _ => "RESERVED_F"

/-- The operands in the order R111 writes them. -/
def Instr.operands : Instr → List Nat
  | .init _ => []
  | .waitReady _ => []
  | .beginTx a _ => [a.toNat]
  | .write v _ => [v.toNat]
  | .endTx _ => []
  | .sendFrame f0 f1 f2 f3 => [f0.toNat, f1.toNat, f2.toNat, f3.toNat]
  | .sendCmd v _ => [v.toNat]
  | .sendChar v _ => [v.toNat]
  | .initDisplay _ => []
  | .clear _ => []
  | .setCursor row col _ => [row.toNat, col.toNat]
  | .reservedB _ => []
  | .reservedC _ => []
  | .reservedD _ => []
  | .reservedE _ => []
  | .reservedF _ => []

/-- A line of assembly. -/
def Instr.assembly (i : Instr) : String × List Nat := (i.mnemonic, i.operands)

/-- The value of an 8-bit operand (R102). That a number above 255 is no operand, so that the line is no command, and is not
cut to its low eight bits is the model's choice: neither R102 nor R111 says which (DESIGN CHOICE,
notes/assumptions/19.md). -/
def byteOperand (n : Nat) : Option Byte := if n < 256 then some (BitVec.ofNat 8 n) else none

/-- The row operand of SET_CURSOR: 0 or 1; another row is unrepresentable (93_implementation_defined.md U5). -/
def rowOperand (n : Nat) : Option (BitVec 1) := if n < 2 then some (BitVec.ofNat 1 n) else none

/-- The command of a line: the forms R111 lists, and nothing else (a reserved opcode has no form). -/
def assemble (mnemonic : String) (operands : List Nat) : Option Instr :=
  match operands with
  | [] =>
    if mnemonic = "INIT" then some (.init 0)
    else if mnemonic = "WAIT_READY" then some (.waitReady 0)
    else if mnemonic = "END" then some (.endTx 0)
    else if mnemonic = "INIT_DISPLAY" then some (.initDisplay 0)
    else if mnemonic = "CLEAR" then some (.clear 0)
    else none
  | [n] =>
    if mnemonic = "BEGIN" then (byteOperand n).map fun a => .beginTx a 0
    else if mnemonic = "WRITE" then (byteOperand n).map fun v => .write v 0
    else if mnemonic = "SEND_CMD" then (byteOperand n).map fun v => .sendCmd v 0
    else if mnemonic = "SEND_CHAR" then (byteOperand n).map fun v => .sendChar v 0
    else none
  | [r, c] =>
    if mnemonic = "SET_CURSOR" then
      (rowOperand r).bind fun row => (byteOperand c).map fun col => .setCursor row col 0
    else none
  | [n0, n1, n2, n3] =>
    if mnemonic = "SEND_FRAME" then
      (byteOperand n0).bind fun f0 => (byteOperand n1).bind fun f1 =>
        (byteOperand n2).bind fun f2 => (byteOperand n3).map fun f3 => .sendFrame f0 f1 f2 f3
    else none
  | _ => none

/-! ## the text of a line -/

/-- A space or a tab. -/
def isBlank (c : Char) : Bool := c == ' ' || c == '\t'

/-- Without the blanks at both ends. -/
def trimBlanks (cs : List Char) : List Char := ((cs.dropWhile isBlank).reverse.dropWhile isBlank).reverse

/-- Without the comment: `;` starts one, but not inside a quoted character or a string (`quoted`). -/
def stripComment (quoted : Bool) : List Char → List Char
  | [] => []
  | '\'' :: c :: '\'' :: cs =>
    if quoted then '\'' :: c :: '\'' :: stripComment (quoted != (c == '"')) cs
    else '\'' :: c :: '\'' :: stripComment false cs
  | c :: cs =>
    if c == ';' && !quoted then []
    else c :: stripComment (quoted != (c == '"')) cs

/-- The operands between the commas; a quoted comma separates nothing. -/
def splitOperands (current : List Char) : List Char → List (List Char)
  | [] => [current.reverse]
  | '\'' :: c :: '\'' :: cs => splitOperands ('\'' :: c :: '\'' :: current) cs
  | c :: cs => if c == ',' then current.reverse :: splitOperands [] cs else splitOperands (c :: current) cs

/-- The value of a digit; small and capital letters alike. -/
def digitValue (c : Char) : Option Nat :=
  if '0' ≤ c ∧ c ≤ '9' then some (c.toNat - '0'.toNat)
  else if 'a' ≤ c ∧ c ≤ 'f' then some (c.toNat - 'a'.toNat + 10)
  else if 'A' ≤ c ∧ c ≤ 'F' then some (c.toNat - 'A'.toNat + 10)
  else none

/-- The number the digits stand for in a base; no digits, or one that the base does not have, are no number. -/
def digitsValue (base : Nat) (cs : List Char) : Option Nat :=
  if cs.isEmpty then none
  else (cs.mapM digitValue).bind fun ds => if ds.all (· < base) then some (ds.foldl (fun n d => base * n + d) 0) else none

/-- An operand: decimal, `0x` hexadecimal, or a character in single quotes standing for its code. That the code is the
character's Unicode code point is the model's choice: the spec fixes no character set (DESIGN CHOICE,
notes/assumptions/19.md). -/
def operandValue (cs : List Char) : Option Nat :=
  match cs with
  | '0' :: 'x' :: ds => digitsValue 16 ds
  | ['\'', c, '\''] => some c.toNat
  | _ => digitsValue 10 cs

/-- The codes of the characters between the double quotes of WRITE_STRING, by the same choice of a character set, and none
if a code is above 255 (DESIGN CHOICE, notes/assumptions/19.md). -/
def stringCodes (cs : List Char) : Option (List Byte) :=
  match cs with
  | '"' :: rest =>
    match rest.reverse with
    | '"' :: body => if body.contains '"' then none else body.reverse.mapM fun c => byteOperand c.toNat
    | _ => none
  | _ => none

/-- The commands of one line: none for a blank line or a comment, one for an operation, and for WRITE_STRING its expansion. -/
def parseLine (line : List Char) : Option (List Instr) :=
  let text := trimBlanks (stripComment false line)
  let mnemonic := text.takeWhile (!isBlank ·)
  let rest := trimBlanks (text.dropWhile (!isBlank ·))
  if text.isEmpty then some []
  else if mnemonic = "WRITE_STRING".toList then (stringCodes rest).map writeString
  else if rest.isEmpty then (assemble (String.ofList mnemonic) []).map ([·])
  else ((splitOperands [] rest).mapM fun cs => operandValue (trimBlanks cs)).bind fun ns =>
    (assemble (String.ofList mnemonic) ns).map ([·])

/-- A hexadecimal digit, capital as the spec writes it. -/
def hexDigit (d : BitVec 4) : Char := if d.toNat < 10 then Char.ofNat (48 + d.toNat) else Char.ofNat (55 + d.toNat)

/-- A command word as R111 writes it: `0x` and nine hexadecimal digits. -/
def wordText (w : CmdWord) : List Char :=
  '0' :: 'x' :: [32, 28, 24, 20, 16, 12, 8, 4, 0].map fun i => hexDigit (w.extractLsb' i 4)

end Sys2Proof
end

