-- ==== Sys2Proof/Machine/Ports.lean ====
section
/-! DEFINITION. What the outside sees of the core: the output ports of 30_encoding.md R113. The host sees nothing else
(40_engine_ops.md R142, 60_exceptions.md R207). `clk`, `tick`, `rst` and the command port are inputs and stand in `Env`;
`scl` and `sda` are not modelled below the level of events (00_scope.md R10). -/

namespace Sys2Proof.Machine

/-- The levels of the output ports. -/
structure Ports where
  cmdReady : Bool
  busy : Bool
  tstate : BitVec 3
  err : Bool
  rspWord : RspWord
  deriving DecidableEq, Repr

/-- The ports as the state drives them: `err` equals `ERR` at all times (60_exceptions.md R207), `busy` is 1 exactly when
`SEQ` is not empty (10_state.md R42), `rsp_word` holds `RSP`. -/
def State.ports (s : State) : Ports where
  cmdReady := s.cmdReady
  busy := s.busy
  tstate := s.tstate.code
  err := s.err
  rspWord := s.rsp

/-- An event is a response. -/
def Event.isRsp : Event → Bool
  | .rsp _ => true
  | .cmd _ => false
  | .start => false
  | .byte _ _ => false
  | .stop => false
  | .coll _ => false
  | .delay _ => false
  | .err _ => false
  | .reset => false

/-- `rsp_valid` pulses in a step that executes `respond`, so between these two states (30_encoding.md R113). -/
def rspValid (before after : State) : Bool := (after.trace.drop before.trace.length).any Event.isRsp

end Sys2Proof.Machine
end

