-- ==== Sys2Proof/Machine/Peer.lean ====
section
/-! DEFINITION. What the addressed peer sees, derived from `TRACE` (20_memory.md R90 to R92; 30_encoding.md R109). None of it is
state of the core (10_state.md R49). A claim about the pins or the LCD states the premise `peerAcks` (Safety.lean), since
whether a byte answered NACK reaches the pins is not known (R90). -/

namespace Sys2Proof.Machine

/-- Where the peer stands in the event history. -/
inductive Listening where
  /-- no transaction is open -/
  | closed
  /-- a start was seen; the next byte is the address byte -/
  | addressNext
  /-- inside a transaction with this address byte -/
  | opened (address : Byte)
  deriving DecidableEq, Repr

/-- What an event does to that. The first byte event after an `EvStart` is the address byte (R90); a Reset step sends no
stop, so the peer still sees an open transaction (70_reset_and_hazards.md R231). -/
def Listening.after : Listening → Event → Listening
  | _, .start => .addressNext
  | _, .stop => .closed
  | .addressNext, .byte v _ => .opened v
  | l, _ => l

/-- The data bytes, with their answers, of the transactions whose address byte is `a`, from `l` on. -/
def dataBytesFrom (a : Byte) : Listening → List Event → List (Byte × Bool)
  | _, [] => []
  | l, e :: es =>
    match l, e with
    | .opened b, .byte v n => if b = a then (v, n) :: dataBytesFrom a (l.after e) es else dataBytesFrom a (l.after e) es
    | _, _ => dataBytesFrom a (l.after e) es

/-- The pin history of the expander: the values its eight pins take, in order (R90). -/
def pinHistory (p : Params) (trace : List Event) : List Byte :=
  (dataBytesFrom p.expAddrByte .closed trace).map (·.1)

/-- RS, bit 0 of an expander byte: true for the data register (30_encoding.md R109). -/
def rsBit (b : Byte) : Bool := b.getLsbD 0

/-- RW, bit 1 (R109). -/
def rwBit (b : Byte) : Bool := b.getLsbD 1

/-- E, the enable strobe, bit 2 (R109). -/
def enableBit (b : Byte) : Bool := b.getLsbD 2

/-- BL, the backlight, bit 3 (R109). -/
def backlightBit (b : Byte) : Bool := b.getLsbD 3

/-- D, the data nibble, bits 7:4 (R109). -/
def dataNibble (b : Byte) : BitVec 4 := b.extractLsb' 4 4

/-- The nibbles the LCD latches, with the register each goes to: one at each falling edge of the enable bit between two
consecutive pin values, taken from the second of them (R91). -/
def latches : List Byte → List (Bool × BitVec 4)
  | b :: b' :: bs =>
    if enableBit b && !enableBit b' then (rsBit b', dataNibble b') :: latches (b' :: bs) else latches (b' :: bs)
  | _ => []

/-- The bytes an LCD in nibble mode receives: two successive latches to the same register are one byte, high half first
(R92). Which latch of a run of latches is a high half R92 does not say; DESIGN CHOICE (notes/assumptions/12.md): the first
latch of the list is one, and the pairing goes on from there, after an odd number of latches too. Two latches to different
registers form no byte, and the second one begins anew; a last latch with no partner forms none. -/
def reassemble : List (Bool × BitVec 4) → List (Bool × Byte)
  | (r, hi) :: (r', lo) :: ls => if r = r' then (r, hi ++ lo) :: reassemble ls else reassemble ((r', lo) :: ls)
  | _ => []

/-- What the LCD receives for a sequence of pin values: the register (true for data) and the byte. The sequence is taken to
begin where a byte does (DESIGN CHOICE, notes/assumptions/12.md). -/
def lcdReceives (pins : List Byte) : List (Bool × Byte) := reassemble (latches pins)

/-- The bytes of a frame in the order they go out (20_memory.md R73). -/
def Frame.bytes (f : Frame) : List Byte := [f.f0, f.f1, f.f2, f.f3]

end Sys2Proof.Machine
end

