-- ==== Sys2Proof/Machine/Summary.lean ====
section
/-! DEFINITION. The big-step summaries of 40_engine_ops.md R136, and the same for the encoder and display operations
(41_encoder_ops.md R165, R167; 42_display_ops.md R185): the effect of a whole operation as a function of the state and of the
draws that have arrived, from a state of R139's invariant with `rst` low. `none` means that the operation never returns: the
peripheral is not armed, a draw it needs never arrives, or a byte ends in a collision with `XDONE` drawn 0.

They are a second description of the operations, beside the labelled steps that `exec` takes. That the two agree is an
obligation (Certificates/Slice0/Obligations.lean), not part of the model's meaning. No summary touches `SEQ`. -/

namespace Sys2Proof.Machine

/-- `clr`: what every waitReady does (R136). -/
def clr (s : State) : State := { s with bcl := false, wcol := false, xdone := false }

/-- The draw lets writeByte return: `XDONE` gets set (R136 (b)). -/
def ByteOutcome.returns : ByteOutcome → Bool
  | .acked => true
  | .nacked => true
  | .collided d _ => d

/-- What the draw leaves in `ACKSTAT`, true for NACK (20_memory.md R79). -/
def ByteOutcome.nack : ByteOutcome → Bool
  | .acked => false
  | .nacked => true
  | .collided _ k => k

/-- The draw is a collision. -/
def ByteOutcome.collides : ByteOutcome → Bool
  | .acked => false
  | .nacked => false
  | .collided _ _ => true

/-- The event of the draw for the byte `v` (20_memory.md R79). -/
def ByteOutcome.event (v : Byte) : ByteOutcome → Event
  | .acked => .byte v false
  | .nacked => .byte v true
  | .collided _ _ => .coll .byte

/-- R136 (b): what a returning writeByte does. -/
def byteEffect (v : Byte) (o : ByteOutcome) (s : State) : State :=
  { clr s with
    bcl := o.collides
    txbuf := v
    ackstat := o.nack
    tstate := s.tstate.afterByte
    trace := s.trace ++ [o.event v] }

/-- R136 (b): writeByte with the next draw. -/
def sumByte (v : Byte) (s : State) : Option State :=
  match s.en, s.env.bytes with
  | true, o :: os => if o.returns then some (byteEffect v o { s with env := { s.env with bytes := os } }) else none
  | _, _ => none

/-- R136 (c): beginTransaction with the next draws; the result is success. -/
def sumBegin (a : Byte) (s : State) : Option (State × Bool) :=
  match s.en, s.env.starts with
  | true, o :: os =>
    let s := { clr s with env := { s.env with starts := os } }
    match o with
    | .detected =>
      match sumByte a { s with sdet := true, pdet := false, err := false, tstate := .startConfirmed,
                               trace := s.trace ++ [.start, .err false] } with
      | some s => some ({ s with tstate := .addressSent }, true)
      | none => none
    | .missing => some ({ s with sdet := false, err := true, tstate := .idle, trace := s.trace ++ [.err true] }, false)
    | .collided => some ({ s with sdet := false, bcl := true, err := true, tstate := .idle,
                                  trace := s.trace ++ [.coll .start, .err true] }, false)
  | _, _ => none

/-- R136 (d): endTransaction with the next draw; the result is success. -/
def sumEnd (s : State) : Option (State × Bool) :=
  match s.en, s.env.stops with
  | true, o :: os =>
    let s := { clr s with env := { s.env with stops := os }, tstate := .idle }
    match o with
    | .detected =>
      some ({ s with pdet := true, sdet := false, err := false, trace := s.trace ++ [.stop, .err false] }, true)
    | .missing => some ({ s with pdet := false, err := true, trace := s.trace ++ [.err true] }, false)
    | .collided => some ({ s with pdet := false, bcl := true, err := true,
                                  trace := s.trace ++ [.coll .stop, .err true] }, false)
  | _, _ => none

/-- delay (41_encoder_ops.md R161): it always returns. -/
def sumDelay (n : Ticks) (s : State) : State := { s with dly := 0, trace := s.trace ++ [.delay n] }

/-- SF.3 to SF.5 for the bytes `vs`: each byte, its answer accumulated, and the delay after it (R162). -/
def sumBytes : List Byte → State → Option State
  | [], s => some s
  | v :: vs, s =>
    match sumByte v s with
    | some s =>
      let s := sumDelay s.cfg.nStrobe { s with fnack := s.fnack || s.ackstat }
      sumBytes vs { s with fidx := s.fidx + 1 }
    | none => none

/-- sendFrame of the frame in `FRAME` (R162); the result is (ok, nack). -/
def sumFrame (s : State) : Option (State × Bool × Bool) :=
  match sumBegin s.cfg.expAddrByte { clr s with fnack := false, fidx := 0 } with
  | some (s, ok) =>
    if !ok && s.cfg.encCheckStart then some ({ s with fok := false }, false, false)
    else
      match sumBytes [s.frame.f0, s.frame.f1, s.frame.f2, s.frame.f3]
          { s with fok := ok, fnack := ok && s.ackstat } with
      | some s =>
        match sumEnd s with
        | some (s, ok2) => some ({ s with fok := s.fok && ok2 }, s.fok && ok2, s.fnack)
        | none => none
      | none => none
  | none => none

/-- sendCommand (`rs` false, R163) and sendCharacter (`rs` true, R164). -/
def sumSend (v : Byte) (rs : Bool) (s : State) : Option (State × Bool × Bool) :=
  sumFrame { s with frame := encodeFrame v rs }

/-- ID.1 to ID.2 for the commands `cs` (42_display_ops.md R181). -/
def sumInitSeq : List Byte → State → Option State
  | [], s => some s
  | c :: cs, s =>
    match sumSend c false s with
    | some (s, ok, nack) => sumInitSeq cs { s with aok := s.aok && ok, anack := s.anack || nack }
    | none => none

/-- The body of an operation, between acceptance and response; the result is (ok, nack, ill). -/
def sumBody (i : Instr) (s : State) : Option (State × Bool × Bool × Bool) :=
  match i with
  | .init _ =>
    some ({ s with cfgSlew := true, cfgMaster := true, en := true, div := s.cfg.brgDiv, xdone := false }, true, false, false)
  | .waitReady _ => some (clr s, true, false, false)
  | .beginTx a _ => (sumBegin a s).map fun r => (r.1, r.2, false, false)
  | .write v _ => (sumByte v s).map fun s => (s, true, s.ackstat, false)
  | .endTx _ => (sumEnd s).map fun r => (r.1, r.2, false, false)
  | .sendFrame f0 f1 f2 f3 => (sumFrame { s with frame := ⟨f0, f1, f2, f3⟩ }).map fun r => (r.1, r.2.1, r.2.2, false)
  | .sendCmd v _ => (sumSend v false s).map fun r => (r.1, r.2.1, r.2.2, false)
  | .sendChar v _ => (sumSend v true s).map fun r => (r.1, r.2.1, r.2.2, false)
  | .initDisplay _ =>
    (sumInitSeq s.cfg.initSeq { s with aok := true, anack := false }).map fun s => (s, s.aok, s.anack, false)
  | .clear _ => (sumSend s.cfg.cmdClear false s).map fun r => (sumDelay s.cfg.nClear r.1, r.2.1, r.2.2, false)
  | .setCursor row col _ => (sumSend (cursorByte s.cfg row col) false s).map fun r => (r.1, r.2.1, r.2.2, false)
  | .reservedB _ => some (s, false, false, true)
  | .reservedC _ => some (s, false, false, true)
  | .reservedD _ => some (s, false, false, true)
  | .reservedE _ => some (s, false, false, true)
  | .reservedF _ => some (s, false, false, true)

/-- A whole operation: the command accepted, its body, and the response (30_encoding.md R106, R113). -/
def summary (i : Instr) (s : State) : Option State :=
  (sumBody i { s with cwr := encode i, trace := s.trace ++ [.cmd (encode i)] }).map fun r =>
    respond r.2.1 r.2.2.1 r.2.2.2 r.1

end Sys2Proof.Machine
end

