-- ==== Sys2Proof/Safety.lean ====
section
/-! DEFINITION. The terms claims about the core are stated in: when an operation may begin (40_engine_ops.md R139), the named
premises on the environment (20_memory.md R83), the contract of the host (40_engine_ops.md R137), an unbounded wait
(60_exceptions.md R204), and the invariant of every run from reset (R139, R140; 10_state.md R32, R33, R38, R39, R42, R45). -/

namespace Sys2Proof.Machine

/-! ## where an operation may begin -/

/-- The core takes a command now and `rst` stays low. -/
structure Listens (s : State) : Prop where
  idle : s.seq = []
  noReset : .rst ∉ s.env.turns

/-- The state R136's summaries start from: the core takes a command, `rst` stays low, nothing is pending (R139), and no delay runs
(10_state.md R47: the counter is loaded and waited for by the delay procedure alone). -/
structure Ready (s : State) : Prop extends Listens s where
  noByte : s.xbusy = false
  noReceive : s.rbusy = false
  noStart : s.spend = false
  noStop : s.ppend = false
  noDelay : s.dly = 0

/-- An operation is in progress and nobody can move: an unbounded wait, a legal run (60_exceptions.md R204, U13). -/
def Stuck (s : State) : Prop := s.seq ≠ [] ∧ mover s = none

end Sys2Proof.Machine

namespace Sys2Proof

/-- The first entry of the operation a command names (40_engine_ops.md R130). -/
def Instr.entry : Instr → Machine.Entry
  | .init _ => .in0
  | .waitReady _ => .hw0
  | .beginTx _ _ => .hb0
  | .write _ _ => .hx0
  | .endTx _ => .he0
  | .sendFrame _ _ _ _ => .hf0
  | .sendCmd _ _ => .hc0
  | .sendChar _ _ => .hd0
  | .initDisplay _ => .id0
  | .clear _ => .cl0
  | .setCursor _ _ _ => .cu0
  | .reservedB _ => .rv0
  | .reservedC _ => .rv0
  | .reservedD _ => .rv0
  | .reservedE _ => .rv0
  | .reservedF _ => .rv0

/-- The command with the bits R103 calls unassigned set to 0. -/
def Instr.plain : Instr → Instr
  | .init _ => .init 0
  | .waitReady _ => .waitReady 0
  | .beginTx a _ => .beginTx a 0
  | .write v _ => .write v 0
  | .endTx _ => .endTx 0
  | .sendFrame f0 f1 f2 f3 => .sendFrame f0 f1 f2 f3
  | .sendCmd v _ => .sendCmd v 0
  | .sendChar v _ => .sendChar v 0
  | .initDisplay _ => .initDisplay 0
  | .clear _ => .clear 0
  | .setCursor row col _ => .setCursor row col 0
  | .reservedB _ => .reservedB 0
  | .reservedC _ => .reservedC 0
  | .reservedD _ => .reservedD 0
  | .reservedE _ => .reservedE 0
  | .reservedF _ => .reservedF 0

end Sys2Proof

namespace Sys2Proof.Machine

/-! ## what a frame leaves (41_encoder_ops.md R165, R167) -/

/-- The events of the stop check (40_engine_ops.md R136 (d)). -/
def stopEvents : CondOutcome → List Event
  | .detected => [.stop, .err false]
  | .missing => [.err true]
  | .collided => [.coll .stop, .err true]

/-- The answers of the five bytes of a frame transaction: the address byte and the four frame bytes. -/
structure Answers where
  a0 : ByteOutcome
  a1 : ByteOutcome
  a2 : ByteOutcome
  a3 : ByteOutcome
  a4 : ByteOutcome
  deriving DecidableEq, Repr

/-- The draws, in order. -/
def Answers.draws (b : Answers) : List ByteOutcome := [b.a0, b.a1, b.a2, b.a3, b.a4]

/-- `nack` of the frame: the OR of the five answers (R167). -/
def Answers.nack (b : Answers) : Bool := b.a0.nack || b.a1.nack || b.a2.nack || b.a3.nack || b.a4.nack

/-- Each of the five lets writeByte return. -/
def Answers.allReturn (b : Answers) : Bool :=
  b.a0.returns && b.a1.returns && b.a2.returns && b.a3.returns && b.a4.returns

/-- The events of a frame whose start was detected, the last ones by the stop's outcome (R167). -/
def frameEvents (p : Params) (f : Frame) (b : Answers) (o : CondOutcome) : List Event :=
  [.start, .err false, b.a0.event p.expAddrByte,
    b.a1.event f.f0, .delay p.nStrobe, b.a2.event f.f1, .delay p.nStrobe,
    b.a3.event f.f2, .delay p.nStrobe, b.a4.event f.f3, .delay p.nStrobe] ++ stopEvents o

/-- What a frame whose start was detected leaves, in every field (R162, R165, R167). -/
def frameSent (f : Frame) (b : Answers) (o : CondOutcome) (s : State) : State :=
  { s with
    bcl := o == .collided
    wcol := false
    xdone := false
    sdet := o != .detected
    pdet := o == .detected
    ackstat := b.a4.nack
    txbuf := f.f3
    err := o != .detected
    tstate := .idle
    frame := f
    fidx := 4
    fok := o == .detected
    fnack := b.nack
    dly := 0
    trace := s.trace ++ frameEvents s.cfg f b o
    env := { s.env with
      starts := s.env.starts.tail
      bytes := s.env.bytes.drop 5
      stops := s.env.stops.tail } }

/-- The draws of one frame whose start is detected stand first. -/
structure FrameDraws (b : Answers) (o : CondOutcome) (s : State) : Prop where
  starts : ∃ os, s.env.starts = .detected :: os
  bytes : ∃ bs, s.env.bytes = b.draws ++ bs
  stops : ∃ ps, s.env.stops = o :: ps
  returned : b.allReturn = true

/-- The events of a start that is not confirmed (40_engine_ops.md R136 (c)). -/
def failEvents : CondOutcome → List Event
  | .detected => []
  | .missing => [.err true]
  | .collided => [.coll .start, .err true]

/-- What a frame whose start was not confirmed leaves, in every field, with `ENC_CHECK_START` (R162, R167). -/
def frameFailed (f : Frame) (o : CondOutcome) (s : State) : State :=
  { s with
    bcl := o == .collided
    wcol := false
    xdone := false
    sdet := false
    err := true
    tstate := .idle
    frame := f
    fidx := 0
    fok := false
    fnack := false
    trace := s.trace ++ failEvents o
    env := { s.env with starts := s.env.starts.tail } }

/-- The state right after acceptance of a command, with the stack empty again: what an operation's effect is told from. -/
def acceptedState (i : Instr) (s : State) : State :=
  { s with cwr := encode i, trace := s.trace ++ [.cmd (encode i)] }

/-! ## premises on the environment (R83) -/

/-- Which transaction a byte transfer belongs to, as the history tells it. -/
structure OnBus where
  /-- the address byte of the transaction the command in progress opens, if it opens any -/
  requested : Option Byte
  /-- the address byte of the transaction that is open, whether or not that byte itself got through -/
  openTo : Option Byte
  deriving DecidableEq, Repr

/-- The address byte of the transaction a command opens: BEGIN's operand, and `EXP_ADDR_BYTE` for the encoder and display
operations (20_memory.md R76). -/
def requestedBy (p : Params) (w : CmdWord) : Option Byte :=
  if opField w = 0x2 then some (byte0 w)
  else if 0x5#4 ≤ opField w ∧ opField w ≤ 0xA#4 then some p.expAddrByte
  else none

/-- What an event does to that. A Reset step sends no stop, so it closes no transaction (70_reset_and_hazards.md R231). -/
def OnBus.after (p : Params) (b : OnBus) : Event → OnBus
  | .cmd w => { b with requested := requestedBy p w }
  | .start => { b with openTo := b.requested }
  | .stop => { b with openTo := none }
  | .rsp _ => b
  | .byte _ _ => b
  | .coll _ => b
  | .delay _ => b
  | .err _ => b
  | .reset => b

/-- Where a history leaves the bus. -/
def onBus (p : Params) (trace : List Event) : OnBus := trace.foldl (OnBus.after p) ⟨none, none⟩

/-- The transaction's address byte is in the set `A`. -/
def within (A : List Byte) (target : Option Byte) : Bool := target.any A.contains

/-- The event is no `ByteDone`, or its draw was `acked`: each `ByteDone` emits exactly one event, by its draw (R79). -/
def Event.isAckedByte : Event → Bool
  | .byte _ nack => !nack
  | .coll p => p != .byte
  | .cmd _ => true
  | .rsp _ => true
  | .start => true
  | .stop => true
  | .delay _ => true
  | .err _ => true
  | .reset => true

/-- `PeerAcks(A)` of a history, from where the bus stands: every `ByteDone` inside a transaction whose address byte is in `A`
drew `acked`, that of the address byte included. -/
def peerAckedFrom (p : Params) (A : List Byte) : OnBus → List Event → Bool
  | _, [] => true
  | b, e :: es => (!within A b.openTo || e.isAckedByte) && peerAckedFrom p A (b.after p e) es

/-- `PeerAcks(A)` of a whole history: what a history shows of the draws. -/
def peerAckedTrace (p : Params) (A : List Byte) (trace : List Event) : Bool := peerAckedFrom p A ⟨none, none⟩ trace

/-- What an operation asks of the bus, in the order of its listing. -/
inductive Ask where
  /-- the peripheral is armed (IN.1) -/
  | arm
  /-- a start whose address byte is `a`; where it is not detected, the next `skip` requests are not made -/
  | start (a : Byte) (skip : Nat)
  /-- a byte transfer -/
  | byte
  /-- a stop -/
  | stop
  deriving DecidableEq, Repr

/-- One frame transaction: the start, the address byte, the four frame bytes, the stop (41_encoder_ops.md R162). Where the
start is not detected the whole frame is given up with `ENC_CHECK_START`, and without it the address byte alone is not sent. -/
def frameAsks (p : Params) : List Ask :=
  [.start p.expAddrByte (if p.encCheckStart then 6 else 1), .byte, .byte, .byte, .byte, .byte, .stop]

/-- What a command asks of the bus. -/
def asks (p : Params) : Instr → List Ask
  | .init _ => [.arm]
  | .waitReady _ => []
  | .beginTx a _ => [.start a 1, .byte]
  | .write _ _ => [.byte]
  | .endTx _ => [.stop]
  | .sendFrame _ _ _ _ => frameAsks p
  | .sendCmd _ _ => frameAsks p
  | .sendChar _ _ => frameAsks p
  | .initDisplay _ => (List.replicate 5 (frameAsks p)).flatten
  | .clear _ => frameAsks p
  | .setCursor _ _ _ => frameAsks p
  | .reservedB _ => []
  | .reservedC _ => []
  | .reservedD _ => []
  | .reservedE _ => []
  | .reservedF _ => []

/-- What becomes of an activity: the draw that completes it, for a byte with the address byte of the transaction it falls in
(`none` outside any); or no draw, and it stays pending. -/
inductive Draw where
  | start (o : CondOutcome)
  | byte (target : Option Byte) (o : ByteOutcome)
  | stop (o : CondOutcome)
  | never
  deriving DecidableEq, Repr

/-- The draws that a list of requests takes, from the first that is made: `skip` of them are not, `en` says whether the
peripheral is armed, `target` is the address byte of the open transaction. Nothing follows an activity that stays pending, nor
a byte after which writeByte does not return. -/
def drawsOf : List Ask → (skip : Nat) → (en : Bool) → (target : Option Byte) → Env → List Draw
  | [], _, _, _, _ => []
  | _ :: as, n + 1, en, b, e => drawsOf as n en b e
  | .arm :: as, 0, _, b, e => drawsOf as 0 true b e
  | .start a n :: as, 0, en, b, e =>
    match en, e.starts with
    | true, o :: os =>
      .start o :: (if o = .detected then drawsOf as 0 true (some a) { e with starts := os }
        else drawsOf as n true b { e with starts := os })
    | _, _ => [.never]
  | .byte :: as, 0, en, b, e =>
    match en, e.bytes with
    | true, o :: os => .byte b o :: (if o.returns then drawsOf as 0 true b { e with bytes := os } else [])
    | _, _ => [.never]
  | .stop :: as, 0, en, b, e =>
    match en, e.stops with
    | true, o :: os => .stop o :: drawsOf as 0 true (if o = .detected then none else b) { e with stops := os }
    | _, _ => [.never]

/-- The draw sequence of the commands `is`, executed one after another from `s`, with `rst` low and nothing pending (R139). -/
def State.drawn (s : State) (is : List Instr) : List Draw :=
  drawsOf (is.flatMap (asks s.cfg)) 0 s.en (onBus s.cfg s.trace).openTo s.env

/-- `Responsive`: every activity is completed. -/
def responsive (ds : List Draw) : Bool := ds.all (· != .never)

/-- `NoCollision`: no draw is `collided`. -/
def noCollision (ds : List Draw) : Bool :=
  ds.all fun
    | .start o => o != .collided
    | .byte _ o => !o.collides
    | .stop o => o != .collided
    | .never => true

/-- `StartsOk`: every `StartDone` draws `detected`. -/
def startsOk (ds : List Draw) : Bool :=
  ds.all fun
    | .start o => o == .detected
    | .byte _ _ => true
    | .stop _ => true
    | .never => true

/-- `StopsOk`: every `StopDone` draws `detected`. -/
def stopsOk (ds : List Draw) : Bool :=
  ds.all fun
    | .start _ => true
    | .byte _ _ => true
    | .stop o => o == .detected
    | .never => true

/-- `PeerAcks(A)`: every `ByteDone` inside a transaction whose address byte is in `A` draws `acked`. -/
def peerAcks (A : List Byte) (ds : List Draw) : Bool :=
  ds.all fun
    | .start _ => true
    | .byte b o => !within A b || o == .acked
    | .stop _ => true
    | .never => true

/-- `WellBehaved(A)`. -/
def wellBehaved (A : List Byte) (ds : List Draw) : Bool :=
  responsive ds && noCollision ds && startsOk ds && stopsOk ds && peerAcks A ds

/-! ## the contract of the host (40_engine_ops.md R137) -/

/-- Where the host stands in the grammar of R137. -/
inductive Phase where
  /-- INIT has not run since the last reset -/
  | unarmed
  /-- INIT has run and no transaction is open -/
  | closed
  /-- the last BEGIN succeeded and no END has followed it -/
  | opened
  deriving DecidableEq, Repr

/-- The opcodes R137 allows in each phase, and the write direction of BEGIN's address byte (30_encoding.md R108). -/
def Phase.allows (p : Phase) (w : CmdWord) : Bool :=
  match p with
  | .unarmed => opField w == 0x0
  | .closed =>
    opField w == 0x1 || (opField w == 0x2 && (byte0 w).getLsbD 0 == false) || opField w == 0x4 ||
      (decide (0x5#4 ≤ opField w) && decide (opField w ≤ 0xA#4))
  | .opened => opField w == 0x1 || opField w == 0x3 || opField w == 0x4

/-- The phase after the response `r` to the command `w`. -/
def Phase.after (p : Phase) (w : CmdWord) (r : RspWord) : Phase :=
  if opField w = 0x0 then .closed
  else if opField w = 0x2 then (if r.getLsbD 0 then .opened else p)
  else if opField w = 0x4 then .closed
  else p

/-- A watcher of the history: the phase, the command that awaits its response, and whether every command so far was allowed. -/
structure Watch where
  phase : Phase
  pending : Option CmdWord
  kept : Bool
  deriving DecidableEq, Repr

/-- One event. -/
def Watch.after (c : Watch) : Event → Watch
  | .reset => ⟨.unarmed, none, c.kept⟩
  | .cmd w => ⟨c.phase, some w, c.kept && c.phase.allows w⟩
  | .rsp r =>
    match c.pending with
    | some w => ⟨c.phase.after w r, none, c.kept⟩
    | none => c
  | .start => c
  | .byte _ _ => c
  | .stop => c
  | .coll _ => c
  | .delay _ => c
  | .err _ => c

/-- The watcher after a history; before the first event the core is not armed. -/
def watch (trace : List Event) : Watch := trace.foldl Watch.after ⟨.unarmed, none, true⟩

/-- A history in which the host kept the contract. -/
def onContract (trace : List Event) : Bool := (watch trace).kept

/-- What the contract's phase says of an idle core: `EN` is set exactly after INIT, and `TSTATE` is IDLE exactly while no
transaction is open (R137 items 2, 3 and 6). -/
def PhaseAgrees (s : State) : Prop :=
  s.seq = [] ∧ (watch s.trace).pending = none ∧
    match (watch s.trace).phase with
    | .unarmed => s.en = false ∧ s.tstate = .idle
    | .closed => s.en = true ∧ s.tstate = .idle
    | .opened => s.en = true ∧ (s.tstate = .addressSent ∨ s.tstate = .dataSent)

/-- From `s`, an idle core in the state its history calls for, up to `t` the host has kept the contract. Of any other stream the
model says what the steps of the operations write and emit, and nothing about the bus and its peers (R138,
93_implementation_defined.md U7). -/
structure InContract (s t : State) : Prop where
  agrees : PhaseAgrees s
  kept : onContract t.trace = true

/-! ## the invariant -/

/-- The procedures and the operations of R140's call graph. -/
inductive Proc where
  | waitReady
  | beginTransaction
  | writeByte
  | endTransaction
  | delay
  | sendFrame
  | sendCommand
  | sendCharacter
  /-- an operation of the host -/
  | operation
  deriving DecidableEq, Repr

/-- The procedure an entry belongs to. -/
def Entry.proc : Entry → Proc
  | .wt0 | .wt1 | .wt2 | .wt3 => .waitReady
  | .bg0 _ | .bg1 _ | .bg2 _ | .bg3 _ | .bg4 _ | .bg5 => .beginTransaction
  | .wr0 _ | .wr1 _ | .wr2 | .wr3 | .wr4 => .writeByte
  | .en0 | .en1 | .en2 | .en3 => .endTransaction
  | .dl0 _ | .dl1 _ | .dl2 _ => .delay
  | .sf0 | .sf1 | .sf2 _ | .sf3 | .sf4 _ | .sf5 | .sf6 | .sf7 _ => .sendFrame
  | .sc0 _ | .sc1 | .sc2 _ => .sendCommand
  | .sd0 _ | .sd1 | .sd2 _ => .sendCharacter
  | .in0 | .in1 | .in2 | .in3 | .in4 | .hw0 | .hw1 | .hb0 | .hb1 _ | .hx0 | .hx1 _ | .he0 | .he1 _ => .operation
  | .hf0 | .hf1 | .hf2 _ | .hc0 | .hc1 _ | .hd0 | .hd1 _ => .operation
  | .id0 | .id1 _ | .id2 _ _ | .id3 | .cl0 | .cl1 _ | .cl2 _ | .cu0 | .cu1 _ | .rv0 => .operation

/-- The procedure an entry, standing at the label after a call, has called (R140). -/
def Entry.called : Entry → Option Proc
  | .hw1 | .bg1 _ | .wr1 _ | .en1 | .sf1 => some .waitReady
  | .hb1 _ | .sf2 _ => some .beginTransaction
  | .hx1 _ | .bg5 | .sf4 _ => some .writeByte
  | .he1 _ | .sf7 _ => some .endTransaction
  | .sf5 | .cl2 _ => some .delay
  | .hf2 _ | .sc2 _ | .sd2 _ => some .sendFrame
  | .hc1 _ | .id2 _ _ | .cl1 _ | .cu1 _ => some .sendCommand
  | .hd1 _ => some .sendCharacter
  | _ => none

/-- The entries call one another along R140's graph, and the lowest is an operation. -/
def callChain : List Entry → Bool
  | [] => true
  | [e] => e.proc == .operation
  | e :: c :: k => c.called == some e.proc && callChain (c :: k)

/-- A result the entry reads in its own next step is bound. -/
def Entry.bound : Entry → Bool
  | .hb1 r | .hx1 r | .he1 r | .sf2 r | .sf4 r | .sf7 r => r.isSome
  | .hf2 r | .sc2 r | .sd2 r | .hc1 r | .hd1 r | .id2 _ r | .cl1 r | .cl2 r | .cu1 r => r.isSome
  | _ => true

/-- CL.2 keeps the frame's result while the delay runs. -/
def Entry.keepsResult : Entry → Bool
  | .cl2 r => r.isSome
  | _ => true

/-- `FIDX` and `k` stay inside `FRAME` and `INITSEQ` (10_state.md R43, R45). -/
def Entry.indexOk (fidx : BitVec 3) : Entry → Bool
  | .sf2 _ | .sf3 => decide (fidx ≤ 4)
  | .sf4 _ | .sf5 => decide (fidx < 4)
  | .id1 k => decide (k ≤ 5)
  | .id2 k _ => decide (k < 5)
  | _ => true

/-- `SEQ` is a stack the listings can build. -/
def SeqOk (s : State) : Prop :=
  callChain s.seq = true ∧ s.seq.head?.all Entry.bound = true ∧ s.seq.all Entry.keepsResult = true ∧
    s.seq.all (Entry.indexOk s.fidx) = true

/-- The state BG.2 and BG.3 are in: a start is requested and not yet checked. -/
def Entry.startAsked : Entry → Bool
  | .bg2 _ | .bg3 _ => true
  | _ => false

/-- The state of BG.4 and BG.5: a start is confirmed and the address byte not yet returned. -/
def Entry.startSeen : Entry → Bool
  | .bg4 _ | .bg5 => true
  | _ => false

/-- The state of EN.2 and EN.3: a stop is requested and not yet checked. -/
def Entry.stopAsked : Entry → Bool
  | .en2 | .en3 => true
  | _ => false

/-- `TSTATE` is the one the sequencer's place calls for (10_state.md R38, R39). -/
def tstateAgrees (seq : List Entry) (t : TState) : Bool :=
  if seq.any Entry.startAsked then t == .startPending
  else if seq.any Entry.startSeen then t == .startConfirmed
  else if seq.any Entry.stopAsked then t == .stopPending
  else t == .idle || t == .addressSent || t == .dataSent

/-- ENG stands at BG.2. -/
def atStartHold : List Entry → Bool
  | .bg2 _ :: _ => true
  | _ => false

/-- ENG stands at WR.2. -/
def atByteHold : List Entry → Bool
  | .wr2 :: _ => true
  | _ => false

/-- ENG stands at WR.3. -/
def afterByteHold : List Entry → Bool
  | .wr3 :: _ => true
  | _ => false

/-- ENG stands at EN.2. -/
def atStopHold : List Entry → Bool
  | .en2 :: _ => true
  | _ => false

/-- ENG stands at DL.1. -/
def atDelayHold : List Entry → Bool
  | .dl1 _ :: _ => true
  | _ => false

/-- The last value written to `ERR` since the last reset, as the history has it; 0 if none. -/
def lastErr (trace : List Event) : Bool :=
  trace.foldl (fun b e => match e with | .err c => c | .reset => false | _ => b) false

/-- The invariant of every run from reset. -/
structure Inv (s : State) : Prop where
  /-- the stack is one the listings build (R42, R140) -/
  seqOk : SeqOk s
  /-- a pending start is one ENG waits for (R139, 10_state.md R52) -/
  startHeld : s.spend = true → atStartHold s.seq = true
  /-- a byte in progress is one ENG waits for -/
  byteHeld : s.xbusy = true → atByteHold s.seq = true
  /-- a pending stop is one ENG waits for -/
  stopHeld : s.ppend = true → atStopHold s.seq = true
  /-- `RBUSY` is never set (R29) -/
  noReceive : s.rbusy = false
  /-- `WCOL` is never set (R26) -/
  noWriteCollision : s.wcol = false
  /-- the transfer-complete flag is set only while writeByte waits for it or has just seen it -/
  doneSeen : s.xdone = true → (atByteHold s.seq || afterByteHold s.seq) = true
  /-- a byte that is done is no longer in progress (R28) -/
  doneNotBusy : s.xdone = true → s.xbusy = false
  /-- the delay counter runs only while the delay procedure waits for it -/
  delayHeld : s.dly ≠ 0 → atDelayHold s.seq = true
  /-- `FIDX` takes the values 0 to 4 (R45) -/
  fidxRange : s.fidx ≤ 4
  /-- the last condition detected was not both a start and a stop (R32, R33) -/
  oneCondition : ¬(s.sdet = true ∧ s.pdet = true)
  /-- an armed peripheral is configured (R23) -/
  configured : s.en = true → s.cfgSlew = true ∧ s.cfgMaster = true
  /-- IN.1 follows IN.0 (R131) -/
  slewFirst : s.seq.head? = some .in1 → s.cfgSlew = true
  /-- `TSTATE` follows the sequencer (R39) -/
  tstateOk : tstateAgrees s.seq s.tstate = true
  /-- `ERR` is the last value written to it (R37, R50) -/
  errTraced : s.err = lastErr s.trace

end Sys2Proof.Machine
end

