-- ==== Sys2Proof/Certificates/Slice0/Obligations.lean ====
section
/-! DEFINITION. The statements about the core, for the provers. Each docstring says which rule of spec/ it formalises. A
statement about every state is about every choice of the parameters (`s.cfg`) and of the inputs (`s.env`). `Listens` and
`Ready` (Safety.lean) say that the core is idle with `rst` low, and for `Ready` that nothing is pending; that they say it by
an input list with no reset in it is the model's form (notes/assumptions/6.md, 7.md). The order of the other agents' steps is
free (`env.turns`); `ts` is what is left of the turns that were given. -/

open Sys2Proof Sys2Proof.Machine

/-! ## encodings -/

/-- 30_encoding.md R100 to R105: no bit of a command is lost on the way to the bytes of its word and back. The layout in
bytes is the model's (notes/assumptions/8.md). -/
def Obligations.DecodingUndoesEncoding : Prop :=
  ∀ i : Instr, decodeBytes (bytesOf (encode i)) = .ok i

/-- 30_encoding.md R100 to R105: every 36-bit word is the word of exactly the command it decodes to, unassigned bits
included. -/
def Obligations.EncodingUndoesDecoding : Prop :=
  ∀ w : CmdWord, encode (decodeWord w) = w ∧ ∀ i : Instr, encode i = w → i = decodeWord w

/-- Words of 95_test_vectors.md sections 2 to 4, one for each family, decode to the commands they stand for there. -/
def Obligations.TestVectorWordsDecode : Prop :=
  decodeTableWord 36 0x000000000 = some (.init 0) ∧
  decodeTableWord 36 0x1DEADBEEF = some (.waitReady 0xDEADBEEF) ∧
  decodeTableWord 36 0x20000004E = some (.beginTx 0x4E 0) ∧
  decodeTableWord 36 0x30000000C = some (.write 0x0C 0) ∧
  decodeTableWord 36 0x5191D494D = some (.sendFrame 0x4D 0x49 0x1D 0x19) ∧
  decodeTableWord 36 0xA00000103 = some (.setCursor 1 0x03 0) ∧
  decodeTableWord 36 0xF12345678 = some (.reservedF 0x12345678)

/-- Bytes that are no 36-bit word are no command, each by its own name; five bytes with the top four bits 0 always are one
(the model's layout, notes/assumptions/8.md). -/
def Obligations.OnlyFiveBytesOfThirtySixBitsDecode : Prop :=
  ∀ bs : List Byte,
    (bs.length < 5 → decodeBytes bs = .error .tooFewBytes) ∧
    (5 < bs.length → decodeBytes bs = .error .tooManyBytes) ∧
    (∀ b0 b1 b2 b3 b4, bs = [b0, b1, b2, b3, b4] →
      (b4.toNat < 16 → ∃ i, decodeBytes bs = .ok i) ∧
      (16 ≤ b4.toNat → decodeBytes bs = .error .widerThanPort))

/-- 30_encoding.md R111: the assembly line of a canonical command names it, for every command R111 has a form for; a
reserved opcode has none. -/
def Obligations.AssemblyLineNamesItsCommand : Prop :=
  ∀ i : Instr, i.canonical = true →
    assemble i.mnemonic i.operands = if 0xB#4 ≤ i.opcode then none else some i

/-- 42_display_ops.md R184, 30_encoding.md R112 (a): WRITE_STRING issues one SEND_CHAR for each character before the first
0x00, in order, and nothing for what follows. -/
def Obligations.WriteStringIssuesOneSendCharEach : Prop :=
  ∀ cs rest : List Byte, (∀ c ∈ cs, c ≠ 0) →
    writeString (cs ++ 0 :: rest) = cs.map (fun c => .sendChar c 0) ∧ writeString cs = cs.map (fun c => .sendChar c 0)

/-! ## the encode function and what the LCD receives of it -/

/-- 41_encoder_ops.md R166, with its consequences: the nibbles, the control bits and the enable bit of the four bytes; the
LCD latches the high nibble and then the low one into register `rs`, and receives `v`; `encode` is injective. -/
def Obligations.EncodedFrameCarriesTheValue : Prop :=
  ∀ (v : Byte) (rs : Bool), let f := encodeFrame v rs
    f.f0 &&& 0xF0 = v &&& 0xF0 ∧ f.f2 &&& 0xF0 = (v <<< 4) &&& 0xF0 ∧
    (∀ b ∈ f.bytes, rsBit b = rs ∧ rwBit b = false ∧ backlightBit b = true) ∧
    f.bytes.map enableBit = [true, false, true, false] ∧
    f.bytes.map dataNibble = [v.extractLsb' 4 4, v.extractLsb' 4 4, v.extractLsb' 0 4, v.extractLsb' 0 4] ∧
    f.f1 = f.f0 &&& 0xFB ∧ f.f3 = f.f2 &&& 0xFB ∧
    latches f.bytes = [(rs, v.extractLsb' 4 4), (rs, v.extractLsb' 0 4)] ∧
    lcdReceives f.bytes = [(rs, v)] ∧
    ∀ (v' : Byte) (rs' : Bool), encodeFrame v' rs' = f → v' = v ∧ rs' = rs

/-- 20_memory.md R91, R92: from the pins' history of frames sent one after another, whatever their registers, the LCD
receives the values one after another, and nothing between them. -/
def Obligations.FramesReachTheLcdInOrder : Prop :=
  ∀ vs : List (Bool × Byte), lcdReceives (vs.flatMap fun x => (encodeFrame x.2 x.1).bytes) = vs

/-- 42_display_ops.md R183: the command byte of SET_CURSOR is the base of its row OR'd with the column; the source's two
examples, with its bases 0x80 and 0xC0. -/
def Obligations.CursorByteIsBaseOrColumn : Prop :=
  (∀ (p : Params) (col : Byte), cursorByte p 0 col = p.row0Base ||| col ∧ cursorByte p 1 col = p.row1Base ||| col) ∧
  ∀ p : Params, p.row0Base = 0x80 → p.row1Base = 0xC0 →
    cursorByte p 0 5 = 0x85 ∧ cursorByte p 1 3 = 0xC3 ∧ cursorByte p 0 0x40 = cursorByte p 1 0 ∧
    cursorByte p 0 0xFF = 0xFF ∧ cursorByte p 1 0xFF = 0xFF

/-! ## acceptance and the step -/

/-- 30_encoding.md R113: when the core is ready and the host presents a word, the core accepts it. That the step which accepts
it is the whole execution of the command it decodes to, with the next word at the port afterwards, is the model's choice
(notes/assumptions/14.md). -/
def Obligations.StepExecutesTheAcceptedWord : Prop :=
  ∀ (s : State) (w : CmdWord) (ws : List CmdWord), s.seq = [] → s.resetDue = false → s.env.cmds = w :: ws →
    step s = exec (decodeWord w) (s.withCmds ws)

/-- The host's own form of the same: a word placed at the port is run by the very next step, in any state
(notes/assumptions/10.md). -/
def Obligations.StepRunsThePlacedWord : Prop :=
  ∀ (s : State) (w : Nat), w < 2 ^ 36 →
    ∃ i, decodeTableWord 36 w = some i ∧
      step (s.withFetchWord 36 w) = exec i ((s.withFetchWord 36 w).withCmds s.env.cmds.tail)

/-- 30_encoding.md R113, 92_eei_decisions.md D6: while an operation is in progress or `rst` is 1 the port `cmd_ready` is 0,
no command is accepted, and a step leaves the host's words alone. -/
def Obligations.NoCommandAcceptedWhileNotReady : Prop :=
  ∀ s : State, (s.seq ≠ [] ∨ s.resetDue = true) →
    s.ports.cmdReady = false ∧ (∀ i, exec i s = .next s) ∧
    ∀ t, step s = .next t → t.env.cmds = s.env.cmds

/-! ## the engine's operations -/

/-- 40_engine_ops.md R131: INIT writes `CFG_SLEW`, `CFG_MASTER`, `EN`, `DIV` and `XDONE` and answers `0b001`; every other
field but `CWR`, `RSP` and `TRACE` is unchanged, and no bus event is emitted, in whatever order the agents move. It always
completes with what it writes, the first INIT and any later one, even from an idle state no run reaches in which an activity is
pending, which BUS may complete meanwhile. -/
def Obligations.InitArmsTheCore : Prop :=
  (∀ (s : State) (u : BitVec 32), Ready { s with rbusy := false } →
    ∃ ts, ts <:+ s.env.turns ∧ exec (.init u) s = .next (.withTurns ts { s with
      cfgSlew := true
      cfgMaster := true
      en := true
      div := s.cfg.brgDiv
      xdone := false
      cwr := encode (.init u)
      rsp := 0b001
      trace := s.trace ++ [.cmd (encode (.init u)), .rsp 0b001] })) ∧
  ∀ (s : State) (u : BitVec 32), Listens s →
    ∃ t, exec (.init u) s = .next t ∧ t.seq = [] ∧ t.cfgSlew = true ∧ t.cfgMaster = true ∧ t.en = true ∧
      t.div = s.cfg.brgDiv ∧ t.rsp = 0b001 ∧ t.err = s.err ∧ t.wcol = s.wcol ∧ t.tstate = s.tstate

/-- 40_engine_ops.md R132: WAIT_READY clears both collision flags and the transfer-complete flag, whichever were set, and
answers `0b001`; every other field but `CWR`, `RSP` and `TRACE` is unchanged, in whatever order the agents move. From an idle state
no run reaches in which a start or a stop is pending it completes, too; BUS may then set `BCL` anew. -/
def Obligations.WaitReadyClearsTheFlags : Prop :=
  (∀ (s : State) (u : BitVec 32), Ready s →
    ∃ ts, ts <:+ s.env.turns ∧ exec (.waitReady u) s = .next (.withTurns ts { s with
      bcl := false
      wcol := false
      xdone := false
      cwr := encode (.waitReady u)
      rsp := 0b001
      trace := s.trace ++ [.cmd (encode (.waitReady u)), .rsp 0b001] })) ∧
  ∀ (s : State) (u : BitVec 32), Listens s → s.xbusy = false → s.rbusy = false →
    ∃ t, exec (.waitReady u) s = .next t ∧ t.seq = [] ∧ t.wcol = false ∧ t.xdone = false ∧ t.rsp = 0b001 ∧
      t.err = s.err ∧ t.tstate = s.tstate

/-- 40_engine_ops.md R132, 10_state.md R29, 93_implementation_defined.md U3: with a receive in progress, which nothing
clears, WAIT_READY clears the collision flags and then holds at WT.1 for ever, with no response. -/
def Obligations.WaitReadyHoldsOnReceive : Prop :=
  ∀ (s : State) (u : BitVec 32), Ready { s with rbusy := false } → s.rbusy = true →
    ∃ t, exec (.waitReady u) s = .next t ∧ Stuck t ∧
      t = { s with
        bcl := false
        wcol := false
        cwr := encode (.waitReady u)
        seq := [.wt1, .hw1]
        trace := s.trace ++ [.cmd (encode (.waitReady u))]
        env := { s.env with turns := [] } } ∧
      step t = .next t

/-- 40_engine_ops.md R133, R136 (c): BEGIN with a detected start clears the Error Signal, sends the address byte unchanged
and succeeds whatever the answer to it, which stays in `ACKSTAT`. -/
def Obligations.BeginOpensATransaction : Prop :=
  ∀ (s : State) (a : Byte) (u : BitVec 24) (o : ByteOutcome) (os : List CondOutcome) (bs : List ByteOutcome),
    Ready s → s.en = true → s.env.starts = .detected :: os → s.env.bytes = o :: bs → o.returns = true →
    ∃ ts, ts <:+ s.env.turns ∧ exec (.beginTx a u) s = .next (.withTurns ts { s with
      bcl := o.collides
      wcol := false
      xdone := false
      sdet := true
      pdet := false
      err := false
      txbuf := a
      ackstat := o.nack
      tstate := .addressSent
      cwr := encode (.beginTx a u)
      rsp := 0b001
      trace := s.trace ++ [.cmd (encode (.beginTx a u)), .start, .err false, o.event a, .rsp 0b001]
      env := { s.env with starts := os, bytes := bs } })

/-- 40_engine_ops.md R133, R136 (c), 60_exceptions.md R201: BEGIN whose start is not detected sets the Error Signal, returns to
IDLE and fails, with no address byte sent; after a collision `BCL` is set. -/
def Obligations.BeginFailsWithoutAStart : Prop :=
  ∀ (s : State) (a : Byte) (u : BitVec 24) (o : CondOutcome) (os : List CondOutcome),
    Ready s → s.en = true → s.env.starts = o :: os → o ≠ .detected →
    ∃ ts, ts <:+ s.env.turns ∧ exec (.beginTx a u) s = .next (.withTurns ts { s with
      bcl := o == .collided
      wcol := false
      xdone := false
      sdet := false
      err := true
      tstate := .idle
      cwr := encode (.beginTx a u)
      rsp := 0b000
      trace := s.trace ++ .cmd (encode (.beginTx a u)) :: failEvents o ++ [.rsp 0b000]
      env := { s.env with starts := os } })

/-- 10_state.md R22, 20_memory.md R81, R82, 93_implementation_defined.md U21: BEGIN on a core that is not armed, or whose bus
never completes the start, requests the start and holds at BG.2 for ever, with no response. -/
def Obligations.BeginHoldsOnASilentBus : Prop :=
  ∀ (s : State) (a : Byte) (u : BitVec 24), Ready s → s.en = false ∨ s.env.starts = [] →
    ∃ t, exec (.beginTx a u) s = .next t ∧ Stuck t ∧
      t = { s with
        bcl := false
        wcol := false
        xdone := false
        spend := true
        tstate := .startPending
        cwr := encode (.beginTx a u)
        seq := [.bg2 a, .hb1 none]
        trace := s.trace ++ [.cmd (encode (.beginTx a u))]
        env := { s.env with turns := [] } } ∧
      step t = .next t

/-- 40_engine_ops.md R134, R136 (b): WRITE sends the byte, whatever its value, and answers with the peer's acknowledgment;
`ERR` is not written and no stop is sent. A collision that sets the transfer-complete flag leaves `BCL` set. -/
def Obligations.WriteSendsTheByte : Prop :=
  ∀ (s : State) (v : Byte) (u : BitVec 24) (o : ByteOutcome) (bs : List ByteOutcome),
    Ready s → s.en = true → s.env.bytes = o :: bs → o.returns = true →
    ∃ ts, ts <:+ s.env.turns ∧ exec (.write v u) s = .next (.withTurns ts { s with
      bcl := o.collides
      wcol := false
      xdone := false
      txbuf := v
      ackstat := o.nack
      tstate := s.tstate.afterByte
      cwr := encode (.write v u)
      rsp := rspWord true o.nack false
      trace := s.trace ++ [.cmd (encode (.write v u)), o.event v, .rsp (rspWord true o.nack false)]
      env := { s.env with bytes := bs } })

/-- 20_memory.md R79, 93_implementation_defined.md U1: a byte that ends in a collision with `XDONE` drawn 0 leaves WRITE
holding at WR.2 for ever: the collision is recorded, the transfer is over, and no response comes. -/
def Obligations.WriteHoldsAfterALostByte : Prop :=
  ∀ (s : State) (v : Byte) (u : BitVec 24) (k : Bool) (bs : List ByteOutcome),
    Ready s → s.en = true → s.env.bytes = .collided false k :: bs →
    ∃ t, exec (.write v u) s = .next t ∧ Stuck t ∧
      t = { s with
        bcl := true
        wcol := false
        xdone := false
        txbuf := v
        ackstat := k
        cwr := encode (.write v u)
        seq := [.wr2, .hx1 none]
        trace := s.trace ++ [.cmd (encode (.write v u)), .coll .byte]
        env := { s.env with bytes := bs, turns := [] } } ∧
      step t = .next t

/-- 20_memory.md R82, 60_exceptions.md R204: a byte the bus never completes leaves WRITE holding at WR.2 for ever, the byte in
the shift register and the transfer in progress. -/
def Obligations.WriteHoldsOnASilentBus : Prop :=
  ∀ (s : State) (v : Byte) (u : BitVec 24), Ready s → s.en = false ∨ s.env.bytes = [] →
    ∃ t, exec (.write v u) s = .next t ∧ Stuck t ∧
      t = { s with
        bcl := false
        wcol := false
        xdone := false
        xbusy := true
        txbuf := v
        cwr := encode (.write v u)
        seq := [.wr2, .hx1 none]
        trace := s.trace ++ [.cmd (encode (.write v u))]
        env := { s.env with turns := [] } } ∧
      step t = .next t

/-- 40_engine_ops.md R135, R136 (d), 60_exceptions.md R201: END requests a stop, in any `TSTATE`, and goes to IDLE; a detected
stop clears the Error Signal and succeeds, any other sets it and fails, and a collision sets `BCL`. -/
def Obligations.EndClosesTheTransaction : Prop :=
  ∀ (s : State) (u : BitVec 32) (o : CondOutcome) (os : List CondOutcome),
    Ready s → s.en = true → s.env.stops = o :: os →
    ∃ ts, ts <:+ s.env.turns ∧ exec (.endTx u) s = .next (.withTurns ts { s with
      bcl := o == .collided
      wcol := false
      xdone := false
      sdet := if o = .detected then false else s.sdet
      pdet := o == .detected
      err := o != .detected
      tstate := .idle
      cwr := encode (.endTx u)
      rsp := rspWord (o == .detected) false false
      trace := s.trace ++ .cmd (encode (.endTx u)) :: stopEvents o ++ [.rsp (rspWord (o == .detected) false false)]
      env := { s.env with stops := os } })

/-! ## the encoder's operations -/

/-- 41_encoder_ops.md R162, R165, R167: SEND_FRAME sends its four bytes as they are in one transaction, with the delay after
each, whatever the answers; `ok` is the stop's detection and `nack` the OR of the five answers. -/
def Obligations.SendFrameSendsItsFourBytes : Prop :=
  ∀ (s : State) (f0 f1 f2 f3 : Byte) (b : Answers) (o : CondOutcome),
    Ready s → s.en = true → FrameDraws b o s →
    ∃ ts, ts <:+ s.env.turns ∧ exec (.sendFrame f0 f1 f2 f3) s =
      .next (.withTurns ts (respond (o == .detected) b.nack false
        (frameSent ⟨f0, f1, f2, f3⟩ b o (acceptedState (.sendFrame f0 f1 f2 f3) s))))

/-- 41_encoder_ops.md R163: SEND_CMD sends the frame of its operand with register-select cleared. -/
def Obligations.SendCmdSendsACommandFrame : Prop :=
  ∀ (s : State) (v : Byte) (u : BitVec 24) (b : Answers) (o : CondOutcome),
    Ready s → s.en = true → FrameDraws b o s →
    ∃ ts, ts <:+ s.env.turns ∧ exec (.sendCmd v u) s =
      .next (.withTurns ts (respond (o == .detected) b.nack false
        (frameSent (encodeFrame v false) b o (acceptedState (.sendCmd v u) s))))

/-- 41_encoder_ops.md R164: SEND_CHAR sends the frame of its operand with register-select set, 0x00 like any other. -/
def Obligations.SendCharSendsACharacterFrame : Prop :=
  ∀ (s : State) (v : Byte) (u : BitVec 24) (b : Answers) (o : CondOutcome),
    Ready s → s.en = true → FrameDraws b o s →
    ∃ ts, ts <:+ s.env.turns ∧ exec (.sendChar v u) s =
      .next (.withTurns ts (respond (o == .detected) b.nack false
        (frameSent (encodeFrame v true) b o (acceptedState (.sendChar v u) s))))

/-- 41_encoder_ops.md R162, R167, 90_conflicts.md C3: with `ENC_CHECK_START`, a frame whose start is not confirmed sends no
byte, makes no delay and requests no stop; the operation fails with `nack = 0`. One statement for the four operations that
are one frame and nothing more. -/
def Obligations.FrameGivesUpWithoutAStart : Prop :=
  ∀ (s : State) (o : CondOutcome) (os : List CondOutcome),
    Ready s → s.en = true → s.cfg.encCheckStart = true → s.env.starts = o :: os → o ≠ .detected →
    (∀ f0 f1 f2 f3, ∃ ts, ts <:+ s.env.turns ∧ exec (.sendFrame f0 f1 f2 f3) s =
      .next (.withTurns ts (respond false false false (frameFailed ⟨f0, f1, f2, f3⟩ o (acceptedState (.sendFrame f0 f1 f2 f3) s))))) ∧
    (∀ v u, ∃ ts, ts <:+ s.env.turns ∧ exec (.sendCmd v u) s =
      .next (.withTurns ts (respond false false false (frameFailed (encodeFrame v false) o (acceptedState (.sendCmd v u) s))))) ∧
    (∀ v u, ∃ ts, ts <:+ s.env.turns ∧ exec (.sendChar v u) s =
      .next (.withTurns ts (respond false false false (frameFailed (encodeFrame v true) o (acceptedState (.sendChar v u) s))))) ∧
    (∀ row col u, ∃ ts, ts <:+ s.env.turns ∧ exec (.setCursor row col u) s =
      .next (.withTurns ts (respond false false false
        (frameFailed (encodeFrame (cursorByte s.cfg row col) false) o (acceptedState (.setCursor row col u) s)))))

/-- 41_encoder_ops.md R162 corner case (d), 90_conflicts.md C3: with `ENC_CHECK_START = false` a failed start does not stop
the frame: the four bytes, the delays and the stop are still requested, and the operation fails. -/
def Obligations.UncheckedFrameGoesOnWithoutAStart : Prop :=
  ∀ (s : State) (f0 f1 f2 f3 : Byte) (b1 b2 b3 b4 : ByteOutcome) (os ps : List CondOutcome) (bs : List ByteOutcome),
    Ready s → s.en = true → s.cfg.encCheckStart = false → s.env.starts = .missing :: os →
    s.env.bytes = b1 :: b2 :: b3 :: b4 :: bs → s.env.stops = .detected :: ps →
    (b1.returns && b2.returns && b3.returns && b4.returns) = true →
    ∃ t, exec (.sendFrame f0 f1 f2 f3) s = .next t ∧ t.seq = [] ∧
      t.rsp = rspWord false (b1.nack || b2.nack || b3.nack || b4.nack) false ∧
      t.trace = s.trace ++ [.cmd (encode (.sendFrame f0 f1 f2 f3)), .err true,
        b1.event f0, .delay s.cfg.nStrobe, b2.event f1, .delay s.cfg.nStrobe,
        b3.event f2, .delay s.cfg.nStrobe, b4.event f3, .delay s.cfg.nStrobe, .stop, .err false, .rsp t.rsp]

/-- 41_encoder_ops.md R161, 60_exceptions.md R214: with no activity pending and `rst` low, the delay procedure takes its three steps
and at least `n` ticks, in whatever order the agents move, then emits `EvDelay(n)` and returns to its caller, whether that is SF.5
or CL.2; but for `DLY`, `SEQ` and `TRACE` no field of the core changes. That there are no more steps than these and the turns
that are given, so exactly `n + 3` where none is, is the model's order (notes/assumptions/7.md): R161 gives no upper bound.
`delay(0)` needs no tick. -/
def Obligations.DelayTakesItsTicks : Prop :=
  ∀ (s : State) (n : Ticks) (c : Entry) (k : List Entry), Ready { s with seq := [] } →
    (c = .sf5 ∨ ∃ r, c = .cl2 r) → s.seq = .dl0 n :: c :: k →
    ∃ m ts, n.toNat + 3 ≤ m ∧ m ≤ n.toNat + 3 + s.env.turns.length ∧ ts <:+ s.env.turns ∧
      core.run m s = .next (.withTurns ts { s with dly := 0, seq := c :: k, trace := s.trace ++ [.delay n] })

/-! ## the display operations -/

/-- 42_display_ops.md R183: SET_CURSOR sends the frame of its command byte with register-select cleared, for every row and
every column, unmasked. -/
def Obligations.SetCursorSendsItsCommandByte : Prop :=
  ∀ (s : State) (row : BitVec 1) (col : Byte) (u : BitVec 23) (b : Answers) (o : CondOutcome),
    Ready s → s.en = true → FrameDraws b o s →
    ∃ ts, ts <:+ s.env.turns ∧ exec (.setCursor row col u) s =
      .next (.withTurns ts (respond (o == .detected) b.nack false
        (frameSent (encodeFrame ((if row = 0 then s.cfg.row0Base else s.cfg.row1Base) ||| col) false) b o
          (acceptedState (.setCursor row col u) s))))

/-- 42_display_ops.md R182: CLEAR sends the frame of the clear-display command and then makes the settle delay. -/
def Obligations.ClearSendsItsFrameAndSettles : Prop :=
  ∀ (s : State) (u : BitVec 32) (b : Answers) (o : CondOutcome),
    Ready s → s.en = true → FrameDraws b o s →
    ∃ ts, ts <:+ s.env.turns ∧ exec (.clear u) s =
      .next (.withTurns ts (respond (o == .detected) b.nack false
        (emit (.delay s.cfg.nClear) (frameSent (encodeFrame s.cfg.cmdClear false) b o (acceptedState (.clear u) s)))))

/-- 42_display_ops.md R182 corner case (a): the settle delay of CLEAR is made when the frame failed, too. -/
def Obligations.ClearSettlesAfterAFailedFrame : Prop :=
  ∀ (s : State) (u : BitVec 32) (o : CondOutcome) (os : List CondOutcome),
    Ready s → s.en = true → s.cfg.encCheckStart = true → s.env.starts = o :: os → o ≠ .detected →
    ∃ ts, ts <:+ s.env.turns ∧ exec (.clear u) s =
      .next (.withTurns ts (respond false false false
        (emit (.delay s.cfg.nClear)
          { frameFailed (encodeFrame s.cfg.cmdClear false) o (acceptedState (.clear u) s) with dly := 0 })))

/-- 42_display_ops.md R181, R185: INIT_DISPLAY sends the five command frames in the fixed order, whatever the answers of the
peer and the outcomes of the stops, and answers with the AND of the five `ok` and the OR of the five `nack`. -/
def Obligations.InitDisplaySendsTheFiveCommandsInOrder : Prop :=
  ∀ (s : State) (u : BitVec 32) (b1 b2 b3 b4 b5 : Answers) (o1 o2 o3 o4 o5 : CondOutcome)
    (os ps : List CondOutcome) (bs : List ByteOutcome),
    Ready s → s.en = true →
    s.env.starts = .detected :: .detected :: .detected :: .detected :: .detected :: os →
    s.env.bytes = b1.draws ++ b2.draws ++ b3.draws ++ b4.draws ++ b5.draws ++ bs →
    s.env.stops = o1 :: o2 :: o3 :: o4 :: o5 :: ps →
    (b1.allReturn && b2.allReturn && b3.allReturn && b4.allReturn && b5.allReturn) = true →
    let ok := [o1, o2, o3, o4, o5].all (· == .detected)
    let nack := b1.nack || b2.nack || b3.nack || b4.nack || b5.nack
    ∃ ts, ts <:+ s.env.turns ∧ exec (.initDisplay u) s =
      .next (.withTurns ts (respond ok nack false
        { frameSent (encodeFrame s.cfg.cmdEntryMode false) b5 o5
            (frameSent (encodeFrame s.cfg.cmdDisplayOn false) b4 o4
              (frameSent (encodeFrame s.cfg.cmdClear false) b3 o3
                (frameSent (encodeFrame s.cfg.cmdFs4_5x8 false) b2 o2
                  (frameSent (encodeFrame s.cfg.cmdFs4 false) b1 o1 (acceptedState (.initDisplay u) s)))))
          with aok := ok, anack := nack }))

/-- 42_display_ops.md R181: a failed frame does not stop the bring-up sequence and nothing is retried: with five missing
starts INIT_DISPLAY tries each command once, in order, and answers failure. -/
def Obligations.InitDisplayGoesOnAfterFailedFrames : Prop :=
  ∀ (s : State) (u : BitVec 32) (os : List CondOutcome),
    Ready s → s.en = true → s.cfg.encCheckStart = true →
    s.env.starts = .missing :: .missing :: .missing :: .missing :: .missing :: os →
    ∃ ts, ts <:+ s.env.turns ∧ exec (.initDisplay u) s =
      .next (.withTurns ts (respond false false false
        { frameFailed (encodeFrame s.cfg.cmdEntryMode false) .missing
            (frameFailed (encodeFrame s.cfg.cmdDisplayOn false) .missing
              (frameFailed (encodeFrame s.cfg.cmdClear false) .missing
                (frameFailed (encodeFrame s.cfg.cmdFs4_5x8 false) .missing
                  (frameFailed (encodeFrame s.cfg.cmdFs4 false) .missing (acceptedState (.initDisplay u) s)))))
          with aok := false, anack := false }))

/-! ## reserved opcodes -/

/-- 60_exceptions.md R205, 30_encoding.md R104: a command word with `op` in 0xB to 0xF is one of the five reserved commands, and
each of these is accepted and answered at once with `ill = 1, ok = 0, nack = 0`, in whatever order the agents move; nothing but
`CWR`, `RSP` and `TRACE` changes (`SEQ` is empty again), so `ERR` is not set. It is so answered in any state of the flags, even an
idle state no run reaches in which an activity is pending, which BUS may complete meanwhile. -/
def Obligations.ReservedOpcodesAreAnsweredIllegal : Prop :=
  (∀ w : CmdWord, 0xB#4 ≤ opField w →
    ∃ u, decodeWord w ∈ [.reservedB u, .reservedC u, .reservedD u, .reservedE u, .reservedF u]) ∧
  (∀ (s : State) (u : BitVec 32) (i : Instr), Ready { s with rbusy := false } →
    i ∈ [.reservedB u, .reservedC u, .reservedD u, .reservedE u, .reservedF u] →
    ∃ ts, ts <:+ s.env.turns ∧ exec i s = .next (.withTurns ts { s with
      cwr := encode i
      rsp := 0b100
      trace := s.trace ++ [.cmd (encode i), .rsp 0b100] })) ∧
  ∀ (s : State) (u : BitVec 32) (i : Instr), Listens s →
    i ∈ [.reservedB u, .reservedC u, .reservedD u, .reservedE u, .reservedF u] →
    ∃ t, exec i s = .next t ∧ t.seq = [] ∧ t.rsp = 0b100 ∧ t.err = s.err ∧ t.tstate = s.tstate

/-! ## BUS, TMR and RST -/

/-- 20_memory.md R78: `StartDone` is enabled when `EN = 1` and `SPEND = 1`, and the draw's effects, for each draw,
whatever else is pending. -/
def Obligations.StartDoneFollowsItsDraw : Prop :=
  ∀ (s : State) (o : CondOutcome) (os : List CondOutcome), s.env.starts = o :: os →
    (s.startReady = true ↔ s.en = true ∧ s.spend = true) ∧
    (s.startReady = true → busStep .start s = { s with
      spend := false
      sdet := o == .detected
      pdet := if o = .detected then false else s.pdet
      bcl := if o = .collided then true else s.bcl
      trace := s.trace ++ (match o with | .detected => [.start] | .missing => [] | .collided => [.coll .start])
      env := { s.env with starts := os } })

/-- 20_memory.md R79: `ByteDone` is enabled when `EN = 1` and `XBUSY = 1`, and the draw's effects, for each draw,
whatever else is pending; `TXBUF` is not changed. -/
def Obligations.ByteDoneFollowsItsDraw : Prop :=
  ∀ (s : State) (o : ByteOutcome) (bs : List ByteOutcome), s.env.bytes = o :: bs →
    (s.byteReady = true ↔ s.en = true ∧ s.xbusy = true) ∧
    (s.byteReady = true → busStep .byte s = (match o with
      | .acked => { s with
          xbusy := false, xdone := true, ackstat := false, trace := s.trace ++ [.byte s.txbuf false]
          env := { s.env with bytes := bs } }
      | .nacked => { s with
          xbusy := false, xdone := true, ackstat := true, trace := s.trace ++ [.byte s.txbuf true]
          env := { s.env with bytes := bs } }
      | .collided d k => { s with
          xbusy := false, bcl := true, xdone := d, ackstat := k, trace := s.trace ++ [.coll .byte]
          env := { s.env with bytes := bs } }))

/-- 20_memory.md R80: `StopDone` is enabled when `EN = 1` and `PPEND = 1`, and the draw's effects, for each draw,
whatever else is pending. -/
def Obligations.StopDoneFollowsItsDraw : Prop :=
  ∀ (s : State) (o : CondOutcome) (os : List CondOutcome), s.env.stops = o :: os →
    (s.stopReady = true ↔ s.en = true ∧ s.ppend = true) ∧
    (s.stopReady = true → busStep .stop s = { s with
      ppend := false
      pdet := o == .detected
      sdet := if o = .detected then false else s.sdet
      bcl := if o = .collided then true else s.bcl
      trace := s.trace ++ (match o with | .detected => [.stop] | .missing => [] | .collided => [.coll .stop])
      env := { s.env with stops := os } })

/-- 20_memory.md R81, 10_state.md R21: BUS has no step while `EN = 0` or for an activity that is not pending, and where it has
one it writes, of the core's state, only `BCL`, `XDONE`, `XBUSY`, `SPEND`, `PPEND`, `SDET`, `PDET`, `ACKSTAT` and `TRACE`; of the
inputs it leaves the host's words and the order of the steps alone. -/
def Obligations.BusWritesOnlyItsFlags : Prop :=
  ∀ (p : Activity) (s : State),
    (s.en = false ∨ (match p with | .start => s.spend | .byte => s.xbusy | .stop => s.ppend) = false →
      s.activityReady p = false ∧ busStep p s = s) ∧
    busStep p s = { s with
      bcl := (busStep p s).bcl, xdone := (busStep p s).xdone, xbusy := (busStep p s).xbusy, spend := (busStep p s).spend
      ppend := (busStep p s).ppend, sdet := (busStep p s).sdet, pdet := (busStep p s).pdet, ackstat := (busStep p s).ackstat
      trace := (busStep p s).trace, env := (busStep p s).env } ∧
    (busStep p s).env.cmds = s.env.cmds ∧ (busStep p s).env.turns = s.env.turns

/-- 60_exceptions.md R214: a tick takes 1 from `DLY` while it is not 0, leaves it at 0, never wraps, and changes nothing else. -/
def Obligations.TickCountsDownToZero : Prop :=
  ∀ s : State,
    (s.dly = 0 → tick s = s) ∧
    (s.dly ≠ 0 → tick s = { s with dly := s.dly - 1 } ∧ (tick s).dly.toNat + 1 = s.dly.toNat)

/-- 70_reset_and_hazards.md R230, 10_state.md R51: a Reset step is taken in any state, in the middle of an operation and during
a hold; every flag and control bit is 0, `TSTATE` IDLE, `SEQ` empty, the counters 0, and `EvReset` is emitted, with no response
and no stop. While `rst = 1`, `cmd_ready = 0`. Of the four unspecified registers nothing is said. -/
def Obligations.ResetStepClearsTheCore : Prop :=
  ∀ s : State, s.resetDue = true →
    s.ports.cmdReady = false ∧
    ∃ t, step s = .next t ∧
      t = { State.reset with
        txbuf := t.txbuf, frame := t.frame, cwr := t.cwr, rsp := t.rsp, freeCtr := t.freeCtr
        trace := s.trace ++ [.reset], cfg := s.cfg, env := { s.env with turns := s.env.turns.tail } }

/-- 60_exceptions.md R204: reset is the only exit from an unbounded wait: an operation that nobody can move stays as it is at
every step before a Reset step, whatever turns are given, for ever if there is none; and a Reset step moves it to the reset
state. -/
def Obligations.OnlyResetEndsAnUnboundedWait : Prop :=
  ∀ s : State, s.seq ≠ [] → s.engReady = false → s.busReady = false → s.dly = 0 →
    (∀ n, .rst ∉ s.env.turns.take n → core.run n s = .next (s.withTurns (s.env.turns.drop n))) ∧
    (s.resetDue = true → step s = .next (resetStep s.elapse) ∧ (resetStep s.elapse).seq = [])

/-- 10_state.md R51: right after reset every flag and control bit is 0, `TSTATE` is IDLE, `SEQ` is empty, the counters are 0,
`TRACE` is `[EvReset]`, the core is not armed, and the ports show an idle core. -/
def Obligations.ResetLeavesAnIdleUnarmedCore : Prop :=
  let s := State.reset
  [s.en, s.cfgSlew, s.cfgMaster, s.bcl, s.wcol, s.xdone, s.xbusy, s.rbusy, s.spend, s.ppend, s.sdet, s.pdet, s.ackstat, s.err,
    s.fok, s.fnack, s.aok, s.anack].all (· == false) = true ∧
  s.div = 0 ∧ s.tstate = .idle ∧ s.seq = [] ∧ s.fidx = 0 ∧ s.dly = 0 ∧ s.trace = [.reset] ∧
  s.ports.cmdReady = true ∧ s.ports.busy = false ∧ s.ports.err = false ∧ s.ports.tstate = 0

/-! ## invariants and rules of the whole machine -/

/-- The invariant holds right after reset. -/
def Obligations.InvariantHoldsAtReset : Prop := Inv State.reset

/-- 40_engine_ops.md R139, R140, 10_state.md R23, R26, R29, R32, R33, R37 to R39, R42, R45: the invariant is kept by every step
of the machine, and by every step of every agent, whichever moves next (00_scope.md R15). -/
def Obligations.EveryStepKeepsTheInvariant : Prop :=
  ∀ s t : State, Inv s →
    (step s = .next t → Inv t) ∧ (∀ a, agentStep a s = .next t → Inv t)

/-- 40_engine_ops.md R140, 10_state.md R42: where the invariant holds no step faults and none refuses. -/
def Obligations.NoStepStopsUnderTheInvariant : Prop :=
  ∀ s : State, Inv s → ∃ t, step s = .next t

/-- 10_state.md R42: `SEQ` is never deeper than six entries. -/
def Obligations.SequencerNeverDeeperThanSix : Prop :=
  ∀ s : State, Inv s → s.seq.length ≤ 6

/-- 40_engine_ops.md R139, 10_state.md R52: at most one activity is pending at any time, and none while the core is idle or at an
entry to waitReady. -/
def Obligations.AtMostOneActivityPending : Prop :=
  ∀ s : State, Inv s →
    ([s.spend, s.xbusy, s.ppend].count true ≤ 1) ∧
    (s.seq = [] ∨ s.seq.head? = some .wt0 → s.busIdle = true ∧ s.wcol = false)

/-- `exec` gives every command a next state in every state whatever, its flags, its counters and its inputs included: none
faults and none is refused (93_implementation_defined.md U7: "The flag-level steps are total"). It does not say that the command
gets a response, which one that waits for ever does not. For a state whose `cmd_ready` is 0, where no command is accepted,
`exec` has a next state by the model's choice and not by U7: it changes nothing (notes/assumptions/14.md). -/
def Obligations.EveryCommandHasANextState : Prop :=
  ∀ (i : Instr) (s : State), ∃ t, exec i s = .next t

/-- 60_exceptions.md R204: an operation either responds (or is abandoned by a reset) or waits for ever where nobody can move; it
never runs on without end, and the model's bound on its steps is never what stops it (notes/assumptions/9.md). -/
def Obligations.EveryOperationEndsOrWaits : Prop :=
  ∀ (i : Instr) (s t : State), s.cmdReady = true → exec i s = .next t → t.seq = [] ∨ Stuck t

/-- 40_engine_ops.md R130: the execution of a command is its acceptance followed by steps of the machine, one agent's step at a
time. -/
def Obligations.ExecutionIsARunOfSteps : Prop :=
  ∀ (i : Instr) (s : State), s.cmdReady = true →
    ∃ n, core.run n (accept (encode i) i.entry s) = exec i s

/-- 40_engine_ops.md R136: from a state of R139's invariant, with `rst` low, the labelled steps of an operation and its big-step
summary agree, for every command, all draws that let it return, and any order of the agents' steps (00_scope.md R15). -/
def Obligations.ExecutionAgreesWithTheSummary : Prop :=
  ∀ (i : Instr) (s t : State), Ready s → summary i s = some t → ∃ ts, ts <:+ s.env.turns ∧ exec i s = .next (t.withTurns ts)

/-- 30_encoding.md R103, 93_implementation_defined.md U19: two command words that differ only in unassigned bits behave alike: but
for `CWR` and the `EvCmd` event, which hold the word, every field of the state afterwards is the same. -/
def Obligations.UnassignedBitsAffectNothing : Prop :=
  ∀ (i j : Instr) (s t : State), i.plain = j.plain → Ready s → summary i s = some t →
    ∃ ts, ts <:+ s.env.turns ∧ exec i s = .next (t.withTurns ts) ∧
      exec j s = .next (.withTurns ts { t with
        cwr := encode j, trace := s.trace ++ .cmd (encode j) :: t.trace.drop (s.trace.length + 1) })

/-- 10_state.md R50: `TRACE` is only ever appended to. -/
def Obligations.TraceIsOnlyAppendedTo : Prop :=
  ∀ s t : State, step s = .next t → ∃ es, t.trace = s.trace ++ es

/-- 10_state.md R49, R29, R22: no step writes the parameters; no step sets `RBUSY`; and only a Reset step clears `EN`. -/
def Obligations.FixedFieldsStayFixed : Prop :=
  ∀ s t : State, step s = .next t →
    t.cfg = s.cfg ∧ (t.rbusy = true → s.rbusy = true) ∧
    (s.en = true → t.en = false → ∃ es, t.trace = s.trace ++ es ++ [.reset])

/-- 30_encoding.md R106: an accepted command that ends is answered by exactly one response word, which is the last event of the
operation and the content of `RSP`; one that does not end has none. -/
def Obligations.ExactlyOneResponsePerCommand : Prop :=
  ∀ (i : Instr) (s t : State), Listens s → exec i s = .next t →
    ∃ es, es.all (fun e => !e.isRsp && e != .reset) = true ∧
      (t.seq = [] → t.trace = s.trace ++ .cmd (encode i) :: es ++ [.rsp t.rsp]) ∧
      (t.seq ≠ [] → t.trace = s.trace ++ .cmd (encode i) :: es ∧ t.rsp = s.rsp)

/-- 40_engine_ops.md R137: on a core whose host keeps the contract, `EN` is set exactly after INIT, and `TSTATE` is IDLE exactly
while no transaction is open: every command the contract allows keeps this, if it ends with `rst` low. -/
def Obligations.ContractPhaseFollowsTheState : Prop :=
  ∀ (i : Instr) (s t : State), Ready s → PhaseAgrees s → (watch s.trace).phase.allows (encode i) = true →
    summary i s = some t →
    (∃ ts, ts <:+ s.env.turns ∧ exec i s = .next (t.withTurns ts)) ∧ PhaseAgrees t ∧ (onContract t.trace = onContract s.trace)

/-- 20_memory.md R90 to R92, 41_encoder_ops.md R163, R164, R166, 40_engine_ops.md R138: under `WellBehaved({EXP_ADDR_BYTE})`
SEND_CMD and SEND_CHAR end in success with the Error Signal clear and `TSTATE` IDLE, in contract or not; and where the host has
kept the contract, the LCD receives, from what SEND_CMD puts on the bus, its operand in the command register, and from what
SEND_CHAR does, its operand in the data register, and nothing else. That the first latch of the operation is a high half,
whatever latches came before it, is the model's choice (notes/assumptions/12.md). -/
def Obligations.LcdReceivesWhatIsSent : Prop :=
  ∀ (s : State) (v : Byte) (u : BitVec 24), Ready s → s.en = true →
    (wellBehaved [s.cfg.expAddrByte] (s.drawn [.sendCmd v u]) = true → ∃ t, exec (.sendCmd v u) s = .next t ∧
      t.seq = [] ∧ t.rsp = 0b001 ∧ t.err = false ∧ t.tstate = .idle ∧
      (InContract s t → lcdReceives (pinHistory s.cfg (t.trace.drop s.trace.length)) = [(false, v)])) ∧
    (wellBehaved [s.cfg.expAddrByte] (s.drawn [.sendChar v u]) = true → ∃ t, exec (.sendChar v u) s = .next t ∧
      t.seq = [] ∧ t.rsp = 0b001 ∧ t.err = false ∧ t.tstate = .idle ∧
      (InContract s t → lcdReceives (pinHistory s.cfg (t.trace.drop s.trace.length)) = [(true, v)]))

/-! ## the source's testable properties over several commands (95_test_vectors.md section 1) -/

/-- 95_test_vectors.md S2, P1, 40_engine_ops.md R135 corner case (a), R138: under `WellBehaved({a})` BEGIN followed at once by END
succeeds twice and leaves the Error Signal cleared, nothing pending and the flags of a stop, in contract or not; and where the
host has kept the contract, so with no transaction open and the write direction in `a`, a start, the address byte and a stop are
all that happens on the bus. -/
def Obligations.EmptyTransactionLeavesTheBusIdle : Prop :=
  ∀ (s : State) (a : Byte) (u : BitVec 24) (v : BitVec 32), Ready s → s.en = true →
    wellBehaved [a] (s.drawn [.beginTx a u, .endTx v]) = true →
    ∃ t w, exec (.beginTx a u) s = .next t ∧ exec (.endTx v) t = .next w ∧
      t.rsp = 0b001 ∧ w.rsp = 0b001 ∧
      w.busIdle = true ∧ w.err = false ∧ w.tstate = .idle ∧ w.sdet = false ∧ w.pdet = true ∧
      (InContract s w → w.trace = s.trace ++ [.cmd (encode (.beginTx a u)), .start, .err false, .byte a false, .rsp 0b001,
        .cmd (encode (.endTx v)), .stop, .err false, .rsp 0b001])

/-- 95_test_vectors.md S3, P2, 60_exceptions.md R201, R210: a missing start makes BEGIN fail and sets the Error Signal, which the
port shows, and the next BEGIN with a confirmed start clears it, whatever the peer answers to the address byte. It says this of
the flags, the ports and the draws that are taken, in contract or not, and nothing of the bus (40_engine_ops.md R138). -/
def Obligations.MissingStartIsSignalledUntilTheNextBoundary : Prop :=
  ∀ (s : State) (a a' : Byte) (u u' : BitVec 24) (o : ByteOutcome) (os : List CondOutcome) (bs : List ByteOutcome),
    Ready s → s.en = true → s.env.starts = .missing :: .detected :: os → s.env.bytes = o :: bs → o.returns = true →
    ∃ t w, exec (.beginTx a u) s = .next t ∧ t.ports.err = true ∧ t.rsp = 0b000 ∧ t.tstate = .idle ∧
      t.env.bytes = s.env.bytes ∧
      exec (.beginTx a' u') t = .next w ∧ w.ports.err = false ∧ w.rsp = 0b001 ∧ w.tstate = .addressSent

/-- 42_display_ops.md R184, R185, 20_memory.md R90 to R92, 95_test_vectors.md S5: when the host issues WRITE_STRING of a text with
no 0x00 in it to an armed core, under `WellBehaved({EXP_ADDR_BYTE})`, the host's words get used up and the core is idle again, in
contract or not; and where the host has kept the contract (40_engine_ops.md R138), the LCD receives the characters, in order, in
its data register, and nothing else. That this takes one step of the machine for each character is the model's choice
(notes/assumptions/14.md), and so is that the first latch is a high half, whatever latches came before it
(notes/assumptions/12.md). -/
def Obligations.WriteStringReachesTheLcd : Prop :=
  ∀ (s : State) (cs : List Byte), Ready s → s.en = true → s.env.cmds = [] → (∀ c ∈ cs, c ≠ 0) →
    wellBehaved [s.cfg.expAddrByte] (s.drawn (writeString cs)) = true →
    ∃ t, core.run cs.length (s.hostIssues (writeString cs)) = .next t ∧ t.seq = [] ∧ t.env.cmds = [] ∧
      t.err = (s.err && cs.isEmpty) ∧
      (InContract s t → lcdReceives (pinHistory s.cfg (t.trace.drop s.trace.length)) = cs.map (fun c => (true, c)))
end

