-- ==== Sys2Proof/Laws/State.lean ====
section
/-! SUPPORT. What each shared update of the state leaves in each field, one lemma per field per update, true by `rfl`: no later
proof unfolds a record update of Machine/Ops.lean. -/

namespace Sys2Proof.Machine

variable (s : State)

/-! ## `emit` -/

@[simp] theorem emit_en (e : Event) : (emit e s).en = s.en := rfl
@[simp] theorem emit_cfgSlew (e : Event) : (emit e s).cfgSlew = s.cfgSlew := rfl
@[simp] theorem emit_cfgMaster (e : Event) : (emit e s).cfgMaster = s.cfgMaster := rfl
@[simp] theorem emit_div (e : Event) : (emit e s).div = s.div := rfl
@[simp] theorem emit_bcl (e : Event) : (emit e s).bcl = s.bcl := rfl
@[simp] theorem emit_wcol (e : Event) : (emit e s).wcol = s.wcol := rfl
@[simp] theorem emit_xdone (e : Event) : (emit e s).xdone = s.xdone := rfl
@[simp] theorem emit_xbusy (e : Event) : (emit e s).xbusy = s.xbusy := rfl
@[simp] theorem emit_rbusy (e : Event) : (emit e s).rbusy = s.rbusy := rfl
@[simp] theorem emit_spend (e : Event) : (emit e s).spend = s.spend := rfl
@[simp] theorem emit_ppend (e : Event) : (emit e s).ppend = s.ppend := rfl
@[simp] theorem emit_sdet (e : Event) : (emit e s).sdet = s.sdet := rfl
@[simp] theorem emit_pdet (e : Event) : (emit e s).pdet = s.pdet := rfl
@[simp] theorem emit_ackstat (e : Event) : (emit e s).ackstat = s.ackstat := rfl
@[simp] theorem emit_txbuf (e : Event) : (emit e s).txbuf = s.txbuf := rfl
@[simp] theorem emit_err (e : Event) : (emit e s).err = s.err := rfl
@[simp] theorem emit_tstate (e : Event) : (emit e s).tstate = s.tstate := rfl
@[simp] theorem emit_cwr (e : Event) : (emit e s).cwr = s.cwr := rfl
@[simp] theorem emit_rsp (e : Event) : (emit e s).rsp = s.rsp := rfl
@[simp] theorem emit_seq (e : Event) : (emit e s).seq = s.seq := rfl
@[simp] theorem emit_frame (e : Event) : (emit e s).frame = s.frame := rfl
@[simp] theorem emit_fidx (e : Event) : (emit e s).fidx = s.fidx := rfl
@[simp] theorem emit_fok (e : Event) : (emit e s).fok = s.fok := rfl
@[simp] theorem emit_fnack (e : Event) : (emit e s).fnack = s.fnack := rfl
@[simp] theorem emit_aok (e : Event) : (emit e s).aok = s.aok := rfl
@[simp] theorem emit_anack (e : Event) : (emit e s).anack = s.anack := rfl
@[simp] theorem emit_dly (e : Event) : (emit e s).dly = s.dly := rfl
@[simp] theorem emit_trace (e : Event) : (emit e s).trace = s.trace ++ [e] := rfl
@[simp] theorem emit_cfg (e : Event) : (emit e s).cfg = s.cfg := rfl
@[simp] theorem emit_env (e : Event) : (emit e s).env = s.env := rfl
@[simp] theorem emit_freeCtr (e : Event) : (emit e s).freeCtr = s.freeCtr := rfl

/-! ## `goto` -/

@[simp] theorem goto_en (l : Entry) (k : List Entry) : (goto l k s).en = s.en := rfl
@[simp] theorem goto_cfgSlew (l : Entry) (k : List Entry) : (goto l k s).cfgSlew = s.cfgSlew := rfl
@[simp] theorem goto_cfgMaster (l : Entry) (k : List Entry) : (goto l k s).cfgMaster = s.cfgMaster := rfl
@[simp] theorem goto_div (l : Entry) (k : List Entry) : (goto l k s).div = s.div := rfl
@[simp] theorem goto_bcl (l : Entry) (k : List Entry) : (goto l k s).bcl = s.bcl := rfl
@[simp] theorem goto_wcol (l : Entry) (k : List Entry) : (goto l k s).wcol = s.wcol := rfl
@[simp] theorem goto_xdone (l : Entry) (k : List Entry) : (goto l k s).xdone = s.xdone := rfl
@[simp] theorem goto_xbusy (l : Entry) (k : List Entry) : (goto l k s).xbusy = s.xbusy := rfl
@[simp] theorem goto_rbusy (l : Entry) (k : List Entry) : (goto l k s).rbusy = s.rbusy := rfl
@[simp] theorem goto_spend (l : Entry) (k : List Entry) : (goto l k s).spend = s.spend := rfl
@[simp] theorem goto_ppend (l : Entry) (k : List Entry) : (goto l k s).ppend = s.ppend := rfl
@[simp] theorem goto_sdet (l : Entry) (k : List Entry) : (goto l k s).sdet = s.sdet := rfl
@[simp] theorem goto_pdet (l : Entry) (k : List Entry) : (goto l k s).pdet = s.pdet := rfl
@[simp] theorem goto_ackstat (l : Entry) (k : List Entry) : (goto l k s).ackstat = s.ackstat := rfl
@[simp] theorem goto_txbuf (l : Entry) (k : List Entry) : (goto l k s).txbuf = s.txbuf := rfl
@[simp] theorem goto_err (l : Entry) (k : List Entry) : (goto l k s).err = s.err := rfl
@[simp] theorem goto_tstate (l : Entry) (k : List Entry) : (goto l k s).tstate = s.tstate := rfl
@[simp] theorem goto_cwr (l : Entry) (k : List Entry) : (goto l k s).cwr = s.cwr := rfl
@[simp] theorem goto_rsp (l : Entry) (k : List Entry) : (goto l k s).rsp = s.rsp := rfl
@[simp] theorem goto_seq (l : Entry) (k : List Entry) : (goto l k s).seq = l :: k := rfl
@[simp] theorem goto_frame (l : Entry) (k : List Entry) : (goto l k s).frame = s.frame := rfl
@[simp] theorem goto_fidx (l : Entry) (k : List Entry) : (goto l k s).fidx = s.fidx := rfl
@[simp] theorem goto_fok (l : Entry) (k : List Entry) : (goto l k s).fok = s.fok := rfl
@[simp] theorem goto_fnack (l : Entry) (k : List Entry) : (goto l k s).fnack = s.fnack := rfl
@[simp] theorem goto_aok (l : Entry) (k : List Entry) : (goto l k s).aok = s.aok := rfl
@[simp] theorem goto_anack (l : Entry) (k : List Entry) : (goto l k s).anack = s.anack := rfl
@[simp] theorem goto_dly (l : Entry) (k : List Entry) : (goto l k s).dly = s.dly := rfl
@[simp] theorem goto_trace (l : Entry) (k : List Entry) : (goto l k s).trace = s.trace := rfl
@[simp] theorem goto_cfg (l : Entry) (k : List Entry) : (goto l k s).cfg = s.cfg := rfl
@[simp] theorem goto_env (l : Entry) (k : List Entry) : (goto l k s).env = s.env := rfl
@[simp] theorem goto_freeCtr (l : Entry) (k : List Entry) : (goto l k s).freeCtr = s.freeCtr := rfl

/-! ## `call` -/

@[simp] theorem call_en (c n : Entry) (k : List Entry) : (call c n k s).en = s.en := rfl
@[simp] theorem call_cfgSlew (c n : Entry) (k : List Entry) : (call c n k s).cfgSlew = s.cfgSlew := rfl
@[simp] theorem call_cfgMaster (c n : Entry) (k : List Entry) : (call c n k s).cfgMaster = s.cfgMaster := rfl
@[simp] theorem call_div (c n : Entry) (k : List Entry) : (call c n k s).div = s.div := rfl
@[simp] theorem call_bcl (c n : Entry) (k : List Entry) : (call c n k s).bcl = s.bcl := rfl
@[simp] theorem call_wcol (c n : Entry) (k : List Entry) : (call c n k s).wcol = s.wcol := rfl
@[simp] theorem call_xdone (c n : Entry) (k : List Entry) : (call c n k s).xdone = s.xdone := rfl
@[simp] theorem call_xbusy (c n : Entry) (k : List Entry) : (call c n k s).xbusy = s.xbusy := rfl
@[simp] theorem call_rbusy (c n : Entry) (k : List Entry) : (call c n k s).rbusy = s.rbusy := rfl
@[simp] theorem call_spend (c n : Entry) (k : List Entry) : (call c n k s).spend = s.spend := rfl
@[simp] theorem call_ppend (c n : Entry) (k : List Entry) : (call c n k s).ppend = s.ppend := rfl
@[simp] theorem call_sdet (c n : Entry) (k : List Entry) : (call c n k s).sdet = s.sdet := rfl
@[simp] theorem call_pdet (c n : Entry) (k : List Entry) : (call c n k s).pdet = s.pdet := rfl
@[simp] theorem call_ackstat (c n : Entry) (k : List Entry) : (call c n k s).ackstat = s.ackstat := rfl
@[simp] theorem call_txbuf (c n : Entry) (k : List Entry) : (call c n k s).txbuf = s.txbuf := rfl
@[simp] theorem call_err (c n : Entry) (k : List Entry) : (call c n k s).err = s.err := rfl
@[simp] theorem call_tstate (c n : Entry) (k : List Entry) : (call c n k s).tstate = s.tstate := rfl
@[simp] theorem call_cwr (c n : Entry) (k : List Entry) : (call c n k s).cwr = s.cwr := rfl
@[simp] theorem call_rsp (c n : Entry) (k : List Entry) : (call c n k s).rsp = s.rsp := rfl
@[simp] theorem call_seq (c n : Entry) (k : List Entry) : (call c n k s).seq = c :: n :: k := rfl
@[simp] theorem call_frame (c n : Entry) (k : List Entry) : (call c n k s).frame = s.frame := rfl
@[simp] theorem call_fidx (c n : Entry) (k : List Entry) : (call c n k s).fidx = s.fidx := rfl
@[simp] theorem call_fok (c n : Entry) (k : List Entry) : (call c n k s).fok = s.fok := rfl
@[simp] theorem call_fnack (c n : Entry) (k : List Entry) : (call c n k s).fnack = s.fnack := rfl
@[simp] theorem call_aok (c n : Entry) (k : List Entry) : (call c n k s).aok = s.aok := rfl
@[simp] theorem call_anack (c n : Entry) (k : List Entry) : (call c n k s).anack = s.anack := rfl
@[simp] theorem call_dly (c n : Entry) (k : List Entry) : (call c n k s).dly = s.dly := rfl
@[simp] theorem call_trace (c n : Entry) (k : List Entry) : (call c n k s).trace = s.trace := rfl
@[simp] theorem call_cfg (c n : Entry) (k : List Entry) : (call c n k s).cfg = s.cfg := rfl
@[simp] theorem call_env (c n : Entry) (k : List Entry) : (call c n k s).env = s.env := rfl
@[simp] theorem call_freeCtr (c n : Entry) (k : List Entry) : (call c n k s).freeCtr = s.freeCtr := rfl

/-! ## `respond` -/

@[simp] theorem respond_en (ok nack ill : Bool) : (respond ok nack ill s).en = s.en := rfl
@[simp] theorem respond_cfgSlew (ok nack ill : Bool) : (respond ok nack ill s).cfgSlew = s.cfgSlew := rfl
@[simp] theorem respond_cfgMaster (ok nack ill : Bool) : (respond ok nack ill s).cfgMaster = s.cfgMaster := rfl
@[simp] theorem respond_div (ok nack ill : Bool) : (respond ok nack ill s).div = s.div := rfl
@[simp] theorem respond_bcl (ok nack ill : Bool) : (respond ok nack ill s).bcl = s.bcl := rfl
@[simp] theorem respond_wcol (ok nack ill : Bool) : (respond ok nack ill s).wcol = s.wcol := rfl
@[simp] theorem respond_xdone (ok nack ill : Bool) : (respond ok nack ill s).xdone = s.xdone := rfl
@[simp] theorem respond_xbusy (ok nack ill : Bool) : (respond ok nack ill s).xbusy = s.xbusy := rfl
@[simp] theorem respond_rbusy (ok nack ill : Bool) : (respond ok nack ill s).rbusy = s.rbusy := rfl
@[simp] theorem respond_spend (ok nack ill : Bool) : (respond ok nack ill s).spend = s.spend := rfl
@[simp] theorem respond_ppend (ok nack ill : Bool) : (respond ok nack ill s).ppend = s.ppend := rfl
@[simp] theorem respond_sdet (ok nack ill : Bool) : (respond ok nack ill s).sdet = s.sdet := rfl
@[simp] theorem respond_pdet (ok nack ill : Bool) : (respond ok nack ill s).pdet = s.pdet := rfl
@[simp] theorem respond_ackstat (ok nack ill : Bool) : (respond ok nack ill s).ackstat = s.ackstat := rfl
@[simp] theorem respond_txbuf (ok nack ill : Bool) : (respond ok nack ill s).txbuf = s.txbuf := rfl
@[simp] theorem respond_err (ok nack ill : Bool) : (respond ok nack ill s).err = s.err := rfl
@[simp] theorem respond_tstate (ok nack ill : Bool) : (respond ok nack ill s).tstate = s.tstate := rfl
@[simp] theorem respond_cwr (ok nack ill : Bool) : (respond ok nack ill s).cwr = s.cwr := rfl
@[simp] theorem respond_rsp (ok nack ill : Bool) : (respond ok nack ill s).rsp = rspWord ok nack ill := rfl
@[simp] theorem respond_seq (ok nack ill : Bool) : (respond ok nack ill s).seq = [] := rfl
@[simp] theorem respond_frame (ok nack ill : Bool) : (respond ok nack ill s).frame = s.frame := rfl
@[simp] theorem respond_fidx (ok nack ill : Bool) : (respond ok nack ill s).fidx = s.fidx := rfl
@[simp] theorem respond_fok (ok nack ill : Bool) : (respond ok nack ill s).fok = s.fok := rfl
@[simp] theorem respond_fnack (ok nack ill : Bool) : (respond ok nack ill s).fnack = s.fnack := rfl
@[simp] theorem respond_aok (ok nack ill : Bool) : (respond ok nack ill s).aok = s.aok := rfl
@[simp] theorem respond_anack (ok nack ill : Bool) : (respond ok nack ill s).anack = s.anack := rfl
@[simp] theorem respond_dly (ok nack ill : Bool) : (respond ok nack ill s).dly = s.dly := rfl
@[simp] theorem respond_trace (ok nack ill : Bool) : (respond ok nack ill s).trace = s.trace ++ [.rsp (rspWord ok nack ill)] := rfl
@[simp] theorem respond_cfg (ok nack ill : Bool) : (respond ok nack ill s).cfg = s.cfg := rfl
@[simp] theorem respond_env (ok nack ill : Bool) : (respond ok nack ill s).env = s.env := rfl
@[simp] theorem respond_freeCtr (ok nack ill : Bool) : (respond ok nack ill s).freeCtr = s.freeCtr := rfl

/-! ## `requestStart` -/

@[simp] theorem requestStart_en : (requestStart s).en = s.en := rfl
@[simp] theorem requestStart_cfgSlew : (requestStart s).cfgSlew = s.cfgSlew := rfl
@[simp] theorem requestStart_cfgMaster : (requestStart s).cfgMaster = s.cfgMaster := rfl
@[simp] theorem requestStart_div : (requestStart s).div = s.div := rfl
@[simp] theorem requestStart_bcl : (requestStart s).bcl = s.bcl := rfl
@[simp] theorem requestStart_wcol : (requestStart s).wcol = s.wcol := rfl
@[simp] theorem requestStart_xdone : (requestStart s).xdone = s.xdone := rfl
@[simp] theorem requestStart_xbusy : (requestStart s).xbusy = s.xbusy := rfl
@[simp] theorem requestStart_rbusy : (requestStart s).rbusy = s.rbusy := rfl
@[simp] theorem requestStart_spend : (requestStart s).spend = true := rfl
@[simp] theorem requestStart_ppend : (requestStart s).ppend = s.ppend := rfl
@[simp] theorem requestStart_sdet : (requestStart s).sdet = s.sdet := rfl
@[simp] theorem requestStart_pdet : (requestStart s).pdet = s.pdet := rfl
@[simp] theorem requestStart_ackstat : (requestStart s).ackstat = s.ackstat := rfl
@[simp] theorem requestStart_txbuf : (requestStart s).txbuf = s.txbuf := rfl
@[simp] theorem requestStart_err : (requestStart s).err = s.err := rfl
@[simp] theorem requestStart_tstate : (requestStart s).tstate = .startPending := rfl
@[simp] theorem requestStart_cwr : (requestStart s).cwr = s.cwr := rfl
@[simp] theorem requestStart_rsp : (requestStart s).rsp = s.rsp := rfl
@[simp] theorem requestStart_seq : (requestStart s).seq = s.seq := rfl
@[simp] theorem requestStart_frame : (requestStart s).frame = s.frame := rfl
@[simp] theorem requestStart_fidx : (requestStart s).fidx = s.fidx := rfl
@[simp] theorem requestStart_fok : (requestStart s).fok = s.fok := rfl
@[simp] theorem requestStart_fnack : (requestStart s).fnack = s.fnack := rfl
@[simp] theorem requestStart_aok : (requestStart s).aok = s.aok := rfl
@[simp] theorem requestStart_anack : (requestStart s).anack = s.anack := rfl
@[simp] theorem requestStart_dly : (requestStart s).dly = s.dly := rfl
@[simp] theorem requestStart_trace : (requestStart s).trace = s.trace := rfl
@[simp] theorem requestStart_cfg : (requestStart s).cfg = s.cfg := rfl
@[simp] theorem requestStart_env : (requestStart s).env = s.env := rfl
@[simp] theorem requestStart_freeCtr : (requestStart s).freeCtr = s.freeCtr := rfl

/-! ## `requestByte` -/

@[simp] theorem requestByte_en (v : Byte) : (requestByte v s).en = s.en := rfl
@[simp] theorem requestByte_cfgSlew (v : Byte) : (requestByte v s).cfgSlew = s.cfgSlew := rfl
@[simp] theorem requestByte_cfgMaster (v : Byte) : (requestByte v s).cfgMaster = s.cfgMaster := rfl
@[simp] theorem requestByte_div (v : Byte) : (requestByte v s).div = s.div := rfl
@[simp] theorem requestByte_bcl (v : Byte) : (requestByte v s).bcl = s.bcl := rfl
@[simp] theorem requestByte_wcol (v : Byte) : (requestByte v s).wcol = s.wcol := rfl
@[simp] theorem requestByte_xdone (v : Byte) : (requestByte v s).xdone = s.xdone := rfl
@[simp] theorem requestByte_xbusy (v : Byte) : (requestByte v s).xbusy = true := rfl
@[simp] theorem requestByte_rbusy (v : Byte) : (requestByte v s).rbusy = s.rbusy := rfl
@[simp] theorem requestByte_spend (v : Byte) : (requestByte v s).spend = s.spend := rfl
@[simp] theorem requestByte_ppend (v : Byte) : (requestByte v s).ppend = s.ppend := rfl
@[simp] theorem requestByte_sdet (v : Byte) : (requestByte v s).sdet = s.sdet := rfl
@[simp] theorem requestByte_pdet (v : Byte) : (requestByte v s).pdet = s.pdet := rfl
@[simp] theorem requestByte_ackstat (v : Byte) : (requestByte v s).ackstat = s.ackstat := rfl
@[simp] theorem requestByte_txbuf (v : Byte) : (requestByte v s).txbuf = v := rfl
@[simp] theorem requestByte_err (v : Byte) : (requestByte v s).err = s.err := rfl
@[simp] theorem requestByte_tstate (v : Byte) : (requestByte v s).tstate = s.tstate := rfl
@[simp] theorem requestByte_cwr (v : Byte) : (requestByte v s).cwr = s.cwr := rfl
@[simp] theorem requestByte_rsp (v : Byte) : (requestByte v s).rsp = s.rsp := rfl
@[simp] theorem requestByte_seq (v : Byte) : (requestByte v s).seq = s.seq := rfl
@[simp] theorem requestByte_frame (v : Byte) : (requestByte v s).frame = s.frame := rfl
@[simp] theorem requestByte_fidx (v : Byte) : (requestByte v s).fidx = s.fidx := rfl
@[simp] theorem requestByte_fok (v : Byte) : (requestByte v s).fok = s.fok := rfl
@[simp] theorem requestByte_fnack (v : Byte) : (requestByte v s).fnack = s.fnack := rfl
@[simp] theorem requestByte_aok (v : Byte) : (requestByte v s).aok = s.aok := rfl
@[simp] theorem requestByte_anack (v : Byte) : (requestByte v s).anack = s.anack := rfl
@[simp] theorem requestByte_dly (v : Byte) : (requestByte v s).dly = s.dly := rfl
@[simp] theorem requestByte_trace (v : Byte) : (requestByte v s).trace = s.trace := rfl
@[simp] theorem requestByte_cfg (v : Byte) : (requestByte v s).cfg = s.cfg := rfl
@[simp] theorem requestByte_env (v : Byte) : (requestByte v s).env = s.env := rfl
@[simp] theorem requestByte_freeCtr (v : Byte) : (requestByte v s).freeCtr = s.freeCtr := rfl

/-! ## `requestStop` -/

@[simp] theorem requestStop_en : (requestStop s).en = s.en := rfl
@[simp] theorem requestStop_cfgSlew : (requestStop s).cfgSlew = s.cfgSlew := rfl
@[simp] theorem requestStop_cfgMaster : (requestStop s).cfgMaster = s.cfgMaster := rfl
@[simp] theorem requestStop_div : (requestStop s).div = s.div := rfl
@[simp] theorem requestStop_bcl : (requestStop s).bcl = s.bcl := rfl
@[simp] theorem requestStop_wcol : (requestStop s).wcol = s.wcol := rfl
@[simp] theorem requestStop_xdone : (requestStop s).xdone = s.xdone := rfl
@[simp] theorem requestStop_xbusy : (requestStop s).xbusy = s.xbusy := rfl
@[simp] theorem requestStop_rbusy : (requestStop s).rbusy = s.rbusy := rfl
@[simp] theorem requestStop_spend : (requestStop s).spend = s.spend := rfl
@[simp] theorem requestStop_ppend : (requestStop s).ppend = true := rfl
@[simp] theorem requestStop_sdet : (requestStop s).sdet = s.sdet := rfl
@[simp] theorem requestStop_pdet : (requestStop s).pdet = s.pdet := rfl
@[simp] theorem requestStop_ackstat : (requestStop s).ackstat = s.ackstat := rfl
@[simp] theorem requestStop_txbuf : (requestStop s).txbuf = s.txbuf := rfl
@[simp] theorem requestStop_err : (requestStop s).err = s.err := rfl
@[simp] theorem requestStop_tstate : (requestStop s).tstate = .stopPending := rfl
@[simp] theorem requestStop_cwr : (requestStop s).cwr = s.cwr := rfl
@[simp] theorem requestStop_rsp : (requestStop s).rsp = s.rsp := rfl
@[simp] theorem requestStop_seq : (requestStop s).seq = s.seq := rfl
@[simp] theorem requestStop_frame : (requestStop s).frame = s.frame := rfl
@[simp] theorem requestStop_fidx : (requestStop s).fidx = s.fidx := rfl
@[simp] theorem requestStop_fok : (requestStop s).fok = s.fok := rfl
@[simp] theorem requestStop_fnack : (requestStop s).fnack = s.fnack := rfl
@[simp] theorem requestStop_aok : (requestStop s).aok = s.aok := rfl
@[simp] theorem requestStop_anack : (requestStop s).anack = s.anack := rfl
@[simp] theorem requestStop_dly : (requestStop s).dly = s.dly := rfl
@[simp] theorem requestStop_trace : (requestStop s).trace = s.trace := rfl
@[simp] theorem requestStop_cfg : (requestStop s).cfg = s.cfg := rfl
@[simp] theorem requestStop_env : (requestStop s).env = s.env := rfl
@[simp] theorem requestStop_freeCtr : (requestStop s).freeCtr = s.freeCtr := rfl

/-! ## `raiseBusFailure` -/

@[simp] theorem raiseBusFailure_en : (raiseBusFailure s).en = s.en := rfl
@[simp] theorem raiseBusFailure_cfgSlew : (raiseBusFailure s).cfgSlew = s.cfgSlew := rfl
@[simp] theorem raiseBusFailure_cfgMaster : (raiseBusFailure s).cfgMaster = s.cfgMaster := rfl
@[simp] theorem raiseBusFailure_div : (raiseBusFailure s).div = s.div := rfl
@[simp] theorem raiseBusFailure_bcl : (raiseBusFailure s).bcl = s.bcl := rfl
@[simp] theorem raiseBusFailure_wcol : (raiseBusFailure s).wcol = s.wcol := rfl
@[simp] theorem raiseBusFailure_xdone : (raiseBusFailure s).xdone = s.xdone := rfl
@[simp] theorem raiseBusFailure_xbusy : (raiseBusFailure s).xbusy = s.xbusy := rfl
@[simp] theorem raiseBusFailure_rbusy : (raiseBusFailure s).rbusy = s.rbusy := rfl
@[simp] theorem raiseBusFailure_spend : (raiseBusFailure s).spend = s.spend := rfl
@[simp] theorem raiseBusFailure_ppend : (raiseBusFailure s).ppend = s.ppend := rfl
@[simp] theorem raiseBusFailure_sdet : (raiseBusFailure s).sdet = s.sdet := rfl
@[simp] theorem raiseBusFailure_pdet : (raiseBusFailure s).pdet = s.pdet := rfl
@[simp] theorem raiseBusFailure_ackstat : (raiseBusFailure s).ackstat = s.ackstat := rfl
@[simp] theorem raiseBusFailure_txbuf : (raiseBusFailure s).txbuf = s.txbuf := rfl
@[simp] theorem raiseBusFailure_err : (raiseBusFailure s).err = true := rfl
@[simp] theorem raiseBusFailure_tstate : (raiseBusFailure s).tstate = .idle := rfl
@[simp] theorem raiseBusFailure_cwr : (raiseBusFailure s).cwr = s.cwr := rfl
@[simp] theorem raiseBusFailure_rsp : (raiseBusFailure s).rsp = s.rsp := rfl
@[simp] theorem raiseBusFailure_seq : (raiseBusFailure s).seq = s.seq := rfl
@[simp] theorem raiseBusFailure_frame : (raiseBusFailure s).frame = s.frame := rfl
@[simp] theorem raiseBusFailure_fidx : (raiseBusFailure s).fidx = s.fidx := rfl
@[simp] theorem raiseBusFailure_fok : (raiseBusFailure s).fok = s.fok := rfl
@[simp] theorem raiseBusFailure_fnack : (raiseBusFailure s).fnack = s.fnack := rfl
@[simp] theorem raiseBusFailure_aok : (raiseBusFailure s).aok = s.aok := rfl
@[simp] theorem raiseBusFailure_anack : (raiseBusFailure s).anack = s.anack := rfl
@[simp] theorem raiseBusFailure_dly : (raiseBusFailure s).dly = s.dly := rfl
@[simp] theorem raiseBusFailure_trace : (raiseBusFailure s).trace = s.trace ++ [.err true] := rfl
@[simp] theorem raiseBusFailure_cfg : (raiseBusFailure s).cfg = s.cfg := rfl
@[simp] theorem raiseBusFailure_env : (raiseBusFailure s).env = s.env := rfl
@[simp] theorem raiseBusFailure_freeCtr : (raiseBusFailure s).freeCtr = s.freeCtr := rfl

/-! ## `confirmBoundary` -/

@[simp] theorem confirmBoundary_en (t : TState) : (confirmBoundary t s).en = s.en := rfl
@[simp] theorem confirmBoundary_cfgSlew (t : TState) : (confirmBoundary t s).cfgSlew = s.cfgSlew := rfl
@[simp] theorem confirmBoundary_cfgMaster (t : TState) : (confirmBoundary t s).cfgMaster = s.cfgMaster := rfl
@[simp] theorem confirmBoundary_div (t : TState) : (confirmBoundary t s).div = s.div := rfl
@[simp] theorem confirmBoundary_bcl (t : TState) : (confirmBoundary t s).bcl = s.bcl := rfl
@[simp] theorem confirmBoundary_wcol (t : TState) : (confirmBoundary t s).wcol = s.wcol := rfl
@[simp] theorem confirmBoundary_xdone (t : TState) : (confirmBoundary t s).xdone = s.xdone := rfl
@[simp] theorem confirmBoundary_xbusy (t : TState) : (confirmBoundary t s).xbusy = s.xbusy := rfl
@[simp] theorem confirmBoundary_rbusy (t : TState) : (confirmBoundary t s).rbusy = s.rbusy := rfl
@[simp] theorem confirmBoundary_spend (t : TState) : (confirmBoundary t s).spend = s.spend := rfl
@[simp] theorem confirmBoundary_ppend (t : TState) : (confirmBoundary t s).ppend = s.ppend := rfl
@[simp] theorem confirmBoundary_sdet (t : TState) : (confirmBoundary t s).sdet = s.sdet := rfl
@[simp] theorem confirmBoundary_pdet (t : TState) : (confirmBoundary t s).pdet = s.pdet := rfl
@[simp] theorem confirmBoundary_ackstat (t : TState) : (confirmBoundary t s).ackstat = s.ackstat := rfl
@[simp] theorem confirmBoundary_txbuf (t : TState) : (confirmBoundary t s).txbuf = s.txbuf := rfl
@[simp] theorem confirmBoundary_err (t : TState) : (confirmBoundary t s).err = false := rfl
@[simp] theorem confirmBoundary_tstate (t : TState) : (confirmBoundary t s).tstate = t := rfl
@[simp] theorem confirmBoundary_cwr (t : TState) : (confirmBoundary t s).cwr = s.cwr := rfl
@[simp] theorem confirmBoundary_rsp (t : TState) : (confirmBoundary t s).rsp = s.rsp := rfl
@[simp] theorem confirmBoundary_seq (t : TState) : (confirmBoundary t s).seq = s.seq := rfl
@[simp] theorem confirmBoundary_frame (t : TState) : (confirmBoundary t s).frame = s.frame := rfl
@[simp] theorem confirmBoundary_fidx (t : TState) : (confirmBoundary t s).fidx = s.fidx := rfl
@[simp] theorem confirmBoundary_fok (t : TState) : (confirmBoundary t s).fok = s.fok := rfl
@[simp] theorem confirmBoundary_fnack (t : TState) : (confirmBoundary t s).fnack = s.fnack := rfl
@[simp] theorem confirmBoundary_aok (t : TState) : (confirmBoundary t s).aok = s.aok := rfl
@[simp] theorem confirmBoundary_anack (t : TState) : (confirmBoundary t s).anack = s.anack := rfl
@[simp] theorem confirmBoundary_dly (t : TState) : (confirmBoundary t s).dly = s.dly := rfl
@[simp] theorem confirmBoundary_trace (t : TState) : (confirmBoundary t s).trace = s.trace ++ [.err false] := rfl
@[simp] theorem confirmBoundary_cfg (t : TState) : (confirmBoundary t s).cfg = s.cfg := rfl
@[simp] theorem confirmBoundary_env (t : TState) : (confirmBoundary t s).env = s.env := rfl
@[simp] theorem confirmBoundary_freeCtr (t : TState) : (confirmBoundary t s).freeCtr = s.freeCtr := rfl

/-! ## `withTurns` -/

@[simp] theorem withTurns_en (ts : List Turn) : (s.withTurns ts).en = s.en := rfl
@[simp] theorem withTurns_cfgSlew (ts : List Turn) : (s.withTurns ts).cfgSlew = s.cfgSlew := rfl
@[simp] theorem withTurns_cfgMaster (ts : List Turn) : (s.withTurns ts).cfgMaster = s.cfgMaster := rfl
@[simp] theorem withTurns_div (ts : List Turn) : (s.withTurns ts).div = s.div := rfl
@[simp] theorem withTurns_bcl (ts : List Turn) : (s.withTurns ts).bcl = s.bcl := rfl
@[simp] theorem withTurns_wcol (ts : List Turn) : (s.withTurns ts).wcol = s.wcol := rfl
@[simp] theorem withTurns_xdone (ts : List Turn) : (s.withTurns ts).xdone = s.xdone := rfl
@[simp] theorem withTurns_xbusy (ts : List Turn) : (s.withTurns ts).xbusy = s.xbusy := rfl
@[simp] theorem withTurns_rbusy (ts : List Turn) : (s.withTurns ts).rbusy = s.rbusy := rfl
@[simp] theorem withTurns_spend (ts : List Turn) : (s.withTurns ts).spend = s.spend := rfl
@[simp] theorem withTurns_ppend (ts : List Turn) : (s.withTurns ts).ppend = s.ppend := rfl
@[simp] theorem withTurns_sdet (ts : List Turn) : (s.withTurns ts).sdet = s.sdet := rfl
@[simp] theorem withTurns_pdet (ts : List Turn) : (s.withTurns ts).pdet = s.pdet := rfl
@[simp] theorem withTurns_ackstat (ts : List Turn) : (s.withTurns ts).ackstat = s.ackstat := rfl
@[simp] theorem withTurns_txbuf (ts : List Turn) : (s.withTurns ts).txbuf = s.txbuf := rfl
@[simp] theorem withTurns_err (ts : List Turn) : (s.withTurns ts).err = s.err := rfl
@[simp] theorem withTurns_tstate (ts : List Turn) : (s.withTurns ts).tstate = s.tstate := rfl
@[simp] theorem withTurns_cwr (ts : List Turn) : (s.withTurns ts).cwr = s.cwr := rfl
@[simp] theorem withTurns_rsp (ts : List Turn) : (s.withTurns ts).rsp = s.rsp := rfl
@[simp] theorem withTurns_seq (ts : List Turn) : (s.withTurns ts).seq = s.seq := rfl
@[simp] theorem withTurns_frame (ts : List Turn) : (s.withTurns ts).frame = s.frame := rfl
@[simp] theorem withTurns_fidx (ts : List Turn) : (s.withTurns ts).fidx = s.fidx := rfl
@[simp] theorem withTurns_fok (ts : List Turn) : (s.withTurns ts).fok = s.fok := rfl
@[simp] theorem withTurns_fnack (ts : List Turn) : (s.withTurns ts).fnack = s.fnack := rfl
@[simp] theorem withTurns_aok (ts : List Turn) : (s.withTurns ts).aok = s.aok := rfl
@[simp] theorem withTurns_anack (ts : List Turn) : (s.withTurns ts).anack = s.anack := rfl
@[simp] theorem withTurns_dly (ts : List Turn) : (s.withTurns ts).dly = s.dly := rfl
@[simp] theorem withTurns_trace (ts : List Turn) : (s.withTurns ts).trace = s.trace := rfl
@[simp] theorem withTurns_cfg (ts : List Turn) : (s.withTurns ts).cfg = s.cfg := rfl
@[simp] theorem withTurns_env (ts : List Turn) : (s.withTurns ts).env = { s.env with turns := ts } := rfl
@[simp] theorem withTurns_freeCtr (ts : List Turn) : (s.withTurns ts).freeCtr = s.freeCtr := rfl

/-! ## `elapse` -/

@[simp] theorem elapse_en : (s.elapse).en = s.en := rfl
@[simp] theorem elapse_cfgSlew : (s.elapse).cfgSlew = s.cfgSlew := rfl
@[simp] theorem elapse_cfgMaster : (s.elapse).cfgMaster = s.cfgMaster := rfl
@[simp] theorem elapse_div : (s.elapse).div = s.div := rfl
@[simp] theorem elapse_bcl : (s.elapse).bcl = s.bcl := rfl
@[simp] theorem elapse_wcol : (s.elapse).wcol = s.wcol := rfl
@[simp] theorem elapse_xdone : (s.elapse).xdone = s.xdone := rfl
@[simp] theorem elapse_xbusy : (s.elapse).xbusy = s.xbusy := rfl
@[simp] theorem elapse_rbusy : (s.elapse).rbusy = s.rbusy := rfl
@[simp] theorem elapse_spend : (s.elapse).spend = s.spend := rfl
@[simp] theorem elapse_ppend : (s.elapse).ppend = s.ppend := rfl
@[simp] theorem elapse_sdet : (s.elapse).sdet = s.sdet := rfl
@[simp] theorem elapse_pdet : (s.elapse).pdet = s.pdet := rfl
@[simp] theorem elapse_ackstat : (s.elapse).ackstat = s.ackstat := rfl
@[simp] theorem elapse_txbuf : (s.elapse).txbuf = s.txbuf := rfl
@[simp] theorem elapse_err : (s.elapse).err = s.err := rfl
@[simp] theorem elapse_tstate : (s.elapse).tstate = s.tstate := rfl
@[simp] theorem elapse_cwr : (s.elapse).cwr = s.cwr := rfl
@[simp] theorem elapse_rsp : (s.elapse).rsp = s.rsp := rfl
@[simp] theorem elapse_seq : (s.elapse).seq = s.seq := rfl
@[simp] theorem elapse_frame : (s.elapse).frame = s.frame := rfl
@[simp] theorem elapse_fidx : (s.elapse).fidx = s.fidx := rfl
@[simp] theorem elapse_fok : (s.elapse).fok = s.fok := rfl
@[simp] theorem elapse_fnack : (s.elapse).fnack = s.fnack := rfl
@[simp] theorem elapse_aok : (s.elapse).aok = s.aok := rfl
@[simp] theorem elapse_anack : (s.elapse).anack = s.anack := rfl
@[simp] theorem elapse_dly : (s.elapse).dly = s.dly := rfl
@[simp] theorem elapse_trace : (s.elapse).trace = s.trace := rfl
@[simp] theorem elapse_cfg : (s.elapse).cfg = s.cfg := rfl
@[simp] theorem elapse_env : (s.elapse).env = { s.env with turns := s.env.turns.tail } := rfl
@[simp] theorem elapse_freeCtr : (s.elapse).freeCtr = s.freeCtr := rfl

/-! ## `withCmds` -/

@[simp] theorem withCmds_en (ws : List CmdWord) : (s.withCmds ws).en = s.en := rfl
@[simp] theorem withCmds_cfgSlew (ws : List CmdWord) : (s.withCmds ws).cfgSlew = s.cfgSlew := rfl
@[simp] theorem withCmds_cfgMaster (ws : List CmdWord) : (s.withCmds ws).cfgMaster = s.cfgMaster := rfl
@[simp] theorem withCmds_div (ws : List CmdWord) : (s.withCmds ws).div = s.div := rfl
@[simp] theorem withCmds_bcl (ws : List CmdWord) : (s.withCmds ws).bcl = s.bcl := rfl
@[simp] theorem withCmds_wcol (ws : List CmdWord) : (s.withCmds ws).wcol = s.wcol := rfl
@[simp] theorem withCmds_xdone (ws : List CmdWord) : (s.withCmds ws).xdone = s.xdone := rfl
@[simp] theorem withCmds_xbusy (ws : List CmdWord) : (s.withCmds ws).xbusy = s.xbusy := rfl
@[simp] theorem withCmds_rbusy (ws : List CmdWord) : (s.withCmds ws).rbusy = s.rbusy := rfl
@[simp] theorem withCmds_spend (ws : List CmdWord) : (s.withCmds ws).spend = s.spend := rfl
@[simp] theorem withCmds_ppend (ws : List CmdWord) : (s.withCmds ws).ppend = s.ppend := rfl
@[simp] theorem withCmds_sdet (ws : List CmdWord) : (s.withCmds ws).sdet = s.sdet := rfl
@[simp] theorem withCmds_pdet (ws : List CmdWord) : (s.withCmds ws).pdet = s.pdet := rfl
@[simp] theorem withCmds_ackstat (ws : List CmdWord) : (s.withCmds ws).ackstat = s.ackstat := rfl
@[simp] theorem withCmds_txbuf (ws : List CmdWord) : (s.withCmds ws).txbuf = s.txbuf := rfl
@[simp] theorem withCmds_err (ws : List CmdWord) : (s.withCmds ws).err = s.err := rfl
@[simp] theorem withCmds_tstate (ws : List CmdWord) : (s.withCmds ws).tstate = s.tstate := rfl
@[simp] theorem withCmds_cwr (ws : List CmdWord) : (s.withCmds ws).cwr = s.cwr := rfl
@[simp] theorem withCmds_rsp (ws : List CmdWord) : (s.withCmds ws).rsp = s.rsp := rfl
@[simp] theorem withCmds_seq (ws : List CmdWord) : (s.withCmds ws).seq = s.seq := rfl
@[simp] theorem withCmds_frame (ws : List CmdWord) : (s.withCmds ws).frame = s.frame := rfl
@[simp] theorem withCmds_fidx (ws : List CmdWord) : (s.withCmds ws).fidx = s.fidx := rfl
@[simp] theorem withCmds_fok (ws : List CmdWord) : (s.withCmds ws).fok = s.fok := rfl
@[simp] theorem withCmds_fnack (ws : List CmdWord) : (s.withCmds ws).fnack = s.fnack := rfl
@[simp] theorem withCmds_aok (ws : List CmdWord) : (s.withCmds ws).aok = s.aok := rfl
@[simp] theorem withCmds_anack (ws : List CmdWord) : (s.withCmds ws).anack = s.anack := rfl
@[simp] theorem withCmds_dly (ws : List CmdWord) : (s.withCmds ws).dly = s.dly := rfl
@[simp] theorem withCmds_trace (ws : List CmdWord) : (s.withCmds ws).trace = s.trace := rfl
@[simp] theorem withCmds_cfg (ws : List CmdWord) : (s.withCmds ws).cfg = s.cfg := rfl
@[simp] theorem withCmds_env (ws : List CmdWord) : (s.withCmds ws).env = { s.env with cmds := ws } := rfl
@[simp] theorem withCmds_freeCtr (ws : List CmdWord) : (s.withCmds ws).freeCtr = s.freeCtr := rfl

/-! ## `clr` -/

@[simp] theorem clr_en : (clr s).en = s.en := rfl
@[simp] theorem clr_cfgSlew : (clr s).cfgSlew = s.cfgSlew := rfl
@[simp] theorem clr_cfgMaster : (clr s).cfgMaster = s.cfgMaster := rfl
@[simp] theorem clr_div : (clr s).div = s.div := rfl
@[simp] theorem clr_bcl : (clr s).bcl = false := rfl
@[simp] theorem clr_wcol : (clr s).wcol = false := rfl
@[simp] theorem clr_xdone : (clr s).xdone = false := rfl
@[simp] theorem clr_xbusy : (clr s).xbusy = s.xbusy := rfl
@[simp] theorem clr_rbusy : (clr s).rbusy = s.rbusy := rfl
@[simp] theorem clr_spend : (clr s).spend = s.spend := rfl
@[simp] theorem clr_ppend : (clr s).ppend = s.ppend := rfl
@[simp] theorem clr_sdet : (clr s).sdet = s.sdet := rfl
@[simp] theorem clr_pdet : (clr s).pdet = s.pdet := rfl
@[simp] theorem clr_ackstat : (clr s).ackstat = s.ackstat := rfl
@[simp] theorem clr_txbuf : (clr s).txbuf = s.txbuf := rfl
@[simp] theorem clr_err : (clr s).err = s.err := rfl
@[simp] theorem clr_tstate : (clr s).tstate = s.tstate := rfl
@[simp] theorem clr_cwr : (clr s).cwr = s.cwr := rfl
@[simp] theorem clr_rsp : (clr s).rsp = s.rsp := rfl
@[simp] theorem clr_seq : (clr s).seq = s.seq := rfl
@[simp] theorem clr_frame : (clr s).frame = s.frame := rfl
@[simp] theorem clr_fidx : (clr s).fidx = s.fidx := rfl
@[simp] theorem clr_fok : (clr s).fok = s.fok := rfl
@[simp] theorem clr_fnack : (clr s).fnack = s.fnack := rfl
@[simp] theorem clr_aok : (clr s).aok = s.aok := rfl
@[simp] theorem clr_anack : (clr s).anack = s.anack := rfl
@[simp] theorem clr_dly : (clr s).dly = s.dly := rfl
@[simp] theorem clr_trace : (clr s).trace = s.trace := rfl
@[simp] theorem clr_cfg : (clr s).cfg = s.cfg := rfl
@[simp] theorem clr_env : (clr s).env = s.env := rfl
@[simp] theorem clr_freeCtr : (clr s).freeCtr = s.freeCtr := rfl

end Sys2Proof.Machine
end

