-- ==== Sys2Proof/Laws/Sequencer.lean ====
section
/-! SUPPORT. The stack `SEQ` as a chain of calls (40_engine_ops.md R140): what stands below an entry, and how a step changes a
chain. -/

namespace Sys2Proof.Machine

/-- Nothing stands below an operation: no procedure calls one. -/
theorem callChain_operation {e : Entry} {k : List Entry} (h : callChain (e :: k) = true) (he : e.proc = .operation) :
    k = [] := by
  cases k with
  | nil => rfl
  | cons c k =>
    simp only [callChain, he, Bool.and_eq_true, beq_iff_eq] at h
    obtain ⟨h, -⟩ := h
    cases c <;> simp [Entry.called] at h

/-- Below a procedure stands the caller that called it. -/
theorem callChain_caller {e : Entry} {k : List Entry} (h : callChain (e :: k) = true) (he : e.proc ≠ .operation) :
    ∃ c k', k = c :: k' ∧ c.called = some e.proc ∧ callChain (c :: k') = true := by
  cases k with
  | nil => simp only [callChain, beq_iff_eq] at h; contradiction
  | cons c k => simp only [callChain, Bool.and_eq_true, beq_iff_eq] at h; exact ⟨c, k, rfl, h⟩

/-- A call keeps the chain. -/
theorem callChain_call {e c : Entry} {k : List Entry} (h : c.called = some e.proc) (h' : callChain (c :: k) = true) :
    callChain (e :: c :: k) = true := by
  simp only [callChain, h, h']; simp

/-- A step inside a procedure keeps the chain. -/
theorem callChain_goto {e e' : Entry} {k : List Entry} (hp : e'.proc = e.proc) (h : callChain (e :: k) = true) :
    callChain (e' :: k) = true := by
  cases k with
  | nil => simpa [callChain, hp] using h
  | cons c k => simpa [callChain, hp] using h

/-- The procedures that open and close transactions themselves, and the operations: no engine procedure stands below one. -/
def Proc.outer : Proc → Bool
  | .sendFrame | .sendCommand | .sendCharacter | .operation => true
  | .waitReady | .beginTransaction | .writeByte | .endTransaction | .delay => false

/-- Below sendFrame and what calls it, no start and no stop is under way, and no entry depends on `FIDX`. -/
theorem callChain_below_outer {k : List Entry} : ∀ {c : Entry}, callChain (c :: k) = true → c.proc.outer = true →
    k.any Entry.startAsked = false ∧ k.any Entry.startSeen = false ∧ k.any Entry.stopAsked = false ∧
      ∀ f g, k.all (Entry.indexOk f) = k.all (Entry.indexOk g) := by
  induction k with
  | nil => intro c _ _; exact ⟨rfl, rfl, rfl, fun _ _ => rfl⟩
  | cons d k ih =>
    intro c h hc
    simp only [callChain, Bool.and_eq_true, beq_iff_eq] at h
    obtain ⟨h1, h2⟩ := h
    have : d.proc.outer = true ∧ d.startAsked = false ∧ d.startSeen = false ∧ d.stopAsked = false ∧
        ∀ f g, d.indexOk f = d.indexOk g := by
      cases d <;> first
        | (simp only [Entry.called, reduceCtorEq] at h1; done)
        | exact ⟨rfl, rfl, rfl, rfl, fun _ _ => rfl⟩
        | (simp only [Entry.called, Option.some.injEq] at h1; rw [← h1] at hc; simp [Proc.outer] at hc)
    obtain ⟨x1, x2, x3, x4, x5⟩ := this
    obtain ⟨y1, y2, y3, y4⟩ := ih h2 x1
    refine ⟨by simp only [List.any_cons, x2, y1]; rfl, by simp only [List.any_cons, x3, y2]; rfl,
      by simp only [List.any_cons, x4, y3]; rfl, fun f g => ?_⟩
    simp only [List.all_cons, x5 f g, y4 f g]

/-! ## the last value of `ERR` -/

theorem lastErr_append (es : List Event) (e : Event) :
    lastErr (es ++ [e]) = (match e with | .err c => c | .reset => false | _ => lastErr es) := by
  cases e <;> simp [lastErr]

end Sys2Proof.Machine
end

