-- ==== Sys2Proof/Laws/Agents.lean ====
section
/-! SUPPORT. The steps that are not ENG's keep the invariant: the passing of a step, acceptance, BUS, TMR and RST. -/

namespace Sys2Proof.Machine

theorem Inv.elapse {s : State} (h : Inv s) : Inv s.elapse := by
  obtain ⟨h1, h2, h3, h4, h5, h6, h7, h8, h9, h10, h11, h12, h13, h14, h15⟩ := h
  constructor <;> assumption

theorem Inv.withCmds {s : State} (h : Inv s) (ws : List CmdWord) : Inv (s.withCmds ws) := by
  obtain ⟨h1, h2, h3, h4, h5, h6, h7, h8, h9, h10, h11, h12, h13, h14, h15⟩ := h
  constructor <;> assumption

theorem Inv.tick {s : State} (h : Inv s) : Inv (tick s) := by
  by_cases hd : s.dly = 0
  · have : Machine.tick s = s := by cases s; simp_all [Machine.tick]
    rwa [this]
  · obtain ⟨h1, h2, h3, h4, h5, h6, h7, h8, h9, h10, h11, h12, h13, h14, h15⟩ := h
    constructor <;> first | assumption | exact fun _ => h9 hd

theorem Inv.reset (s : State) : Inv (resetStep s) := by
  constructor <;> simp [resetStep, State.reset, SeqOk, callChain, tstateAgrees, lastErr_append]

/-- Acceptance of a command by an idle core. -/
theorem Inv.accept {s : State} (h : Inv s) (hs : s.seq = []) (i : Instr) : Inv (accept (encode i) i.entry s) := by
  unfold Machine.accept
  obtain ⟨-, h2, h3, h4, h5, h6, h7, h8, h9, h10, h11, h12, -, h14, h15⟩ := h
  rw [hs] at h2 h3 h4 h7 h9 h14
  simp only [atStartHold, atByteHold, atStopHold, atDelayHold, afterByteHold, Bool.or_self, Bool.false_eq_true,
    imp_false, Bool.not_eq_true] at h2 h3 h4 h7 h9
  constructor <;> cases i <;>
    simp_all [emit, SeqOk, Instr.entry, callChain, Entry.proc, Entry.bound, Entry.keepsResult, Entry.indexOk, tstateAgrees,
      Entry.startAsked, Entry.startSeen, Entry.stopAsked, lastErr_append]

theorem Inv.bus {s : State} (h : Inv s) (p : Activity) : Inv (busStep p s) := by
  have h' := h
  obtain ⟨h1, h2, h3, h4, h5, h6, h7, h8, h9, h10, h11, h12, h13, h14, h15⟩ := h
  unfold busStep
  split
  · rename_i hr
    cases p with
    | start =>
      simp only [State.activityReady, State.startReady, Bool.and_eq_true] at hr
      dsimp only
      split
      · rename_i o os _; cases o <;> constructor <;> simp_all [startDone, emit, SeqOk, lastErr_append]
      · exact h'
    | byte =>
      simp only [State.activityReady, State.byteReady, Bool.and_eq_true] at hr
      dsimp only
      split
      · rename_i o os _; cases o <;> constructor <;> simp_all [byteDone, emit, SeqOk, lastErr_append]
      · exact h'
    | stop =>
      simp only [State.activityReady, State.stopReady, Bool.and_eq_true] at hr
      dsimp only
      split
      · rename_i o os _; cases o <;> constructor <;> simp_all [stopDone, emit, SeqOk, lastErr_append]
      · exact h'
  · exact h'

end Sys2Proof.Machine
end

