-- ==== Sys2Proof/Laws/Decode.lean ====
section
/-! SUPPORT. The fields of an encoded command, and a word as the concatenation of its fields. -/

namespace Sys2Proof

/-- A slice of a concatenation that lies in its low part. -/
theorem extract_append_low {n m : Nat} (x : BitVec n) (y : BitVec m) (i l : Nat) (h : i + l ≤ m) :
    (x ++ y).extractLsb' i l = y.extractLsb' i l := by
  ext j hj
  simp only [BitVec.getElem_extractLsb', BitVec.getLsbD_append]
  simp [show i + j < m by omega]

/-- A slice of a concatenation that lies in its high part. -/
theorem extract_append_high {n m : Nat} (x : BitVec n) (y : BitVec m) (i l : Nat) (h : m ≤ i) :
    (x ++ y).extractLsb' i l = x.extractLsb' (i - m) l := by
  ext j hj
  simp only [BitVec.getElem_extractLsb', BitVec.getLsbD_append]
  simp [show ¬ i + j < m by omega, show i + j - m = i - m + j by omega]

/-- The slice of a word that is all of it. -/
theorem extract_all {n : Nat} (x : BitVec n) : x.extractLsb' 0 n = x := by
  ext j hj
  simp

@[simp] theorem opField_encode (i : Instr) : opField (encode i) = i.opcode := by
  simp only [opField, encode]
  rw [extract_append_high _ _ _ _ (by omega), extract_all]

@[simp] theorem argField_encode (i : Instr) : argField (encode i) = i.arg := by
  simp only [argField, encode]
  rw [extract_append_low _ _ _ _ (by omega), extract_all]

/-- The operand byte of a command with one byte operand. -/
theorem byte0_encode (i : Instr) : byte0 (encode i) = i.arg.extractLsb' 0 8 := by
  simp only [byte0, encode]
  rw [extract_append_low _ _ _ _ (by omega)]

theorem byte1_encode (i : Instr) : byte1 (encode i) = i.arg.extractLsb' 8 8 := by
  simp only [byte1, encode]
  rw [extract_append_low _ _ _ _ (by omega)]

theorem byte2_encode (i : Instr) : byte2 (encode i) = i.arg.extractLsb' 16 8 := by
  simp only [byte2, encode]
  rw [extract_append_low _ _ _ _ (by omega)]

theorem byte3_encode (i : Instr) : byte3 (encode i) = i.arg.extractLsb' 24 8 := by
  simp only [byte3, encode]
  rw [extract_append_low _ _ _ _ (by omega)]

theorem rowField_encode (i : Instr) : rowField (encode i) = i.arg.extractLsb' 8 1 := by
  simp only [rowField, encode]
  rw [extract_append_low _ _ _ _ (by omega)]

theorem rest24_encode (i : Instr) : rest24 (encode i) = i.arg.extractLsb' 8 24 := by
  simp only [rest24, encode]
  rw [extract_append_low _ _ _ _ (by omega)]

theorem rest23_encode (i : Instr) : rest23 (encode i) = i.arg.extractLsb' 9 23 := by
  simp only [rest23, encode]
  rw [extract_append_low _ _ _ _ (by omega)]

/-! ## the operands, per command -/

/-- The low byte under 24 unassigned bits. -/
theorem low8_of_24 (u : BitVec 24) (v : Byte) : (u ++ v).extractLsb' 0 8 = v := by
  rw [extract_append_low _ _ _ _ (by omega), extract_all]

@[simp] theorem byte0_beginTx (a : Byte) (u : BitVec 24) : byte0 (encode (.beginTx a u)) = a := by
  rw [byte0_encode]; exact low8_of_24 u a

@[simp] theorem byte0_write (v : Byte) (u : BitVec 24) : byte0 (encode (.write v u)) = v := by
  rw [byte0_encode]; exact low8_of_24 u v

@[simp] theorem byte0_sendCmd (v : Byte) (u : BitVec 24) : byte0 (encode (.sendCmd v u)) = v := by
  rw [byte0_encode]; exact low8_of_24 u v

@[simp] theorem byte0_sendChar (v : Byte) (u : BitVec 24) : byte0 (encode (.sendChar v u)) = v := by
  rw [byte0_encode]; exact low8_of_24 u v

/-- The high 24 bits over a byte. -/
theorem high24_of_8 (u : BitVec 24) (v : Byte) : (u ++ v).extractLsb' 8 24 = u := by
  rw [extract_append_high _ _ _ _ (by omega)]; exact extract_all u

@[simp] theorem byte0_setCursor (row : BitVec 1) (col : Byte) (u : BitVec 23) :
    byte0 (encode (.setCursor row col u)) = col := by
  rw [byte0_encode]
  show ((u ++ row) ++ col).extractLsb' 0 8 = col
  rw [extract_append_low _ _ _ _ (by omega), extract_all]

@[simp] theorem rowField_setCursor (row : BitVec 1) (col : Byte) (u : BitVec 23) :
    rowField (encode (.setCursor row col u)) = row := by
  rw [rowField_encode]
  show ((u ++ row) ++ col).extractLsb' 8 1 = row
  rw [extract_append_high _ _ _ _ (by omega), extract_append_low _ _ _ _ (by omega), extract_all]

@[simp] theorem rest23_setCursor (row : BitVec 1) (col : Byte) (u : BitVec 23) :
    rest23 (encode (.setCursor row col u)) = u := by
  rw [rest23_encode]
  show ((u ++ row) ++ col).extractLsb' 9 23 = u
  rw [extract_append_high _ _ _ _ (by omega), extract_append_high _ _ _ _ (by omega)]
  exact extract_all u

@[simp] theorem byte0_sendFrame (f0 f1 f2 f3 : Byte) : byte0 (encode (.sendFrame f0 f1 f2 f3)) = f0 := by
  rw [byte0_encode]
  show (((f3 ++ f2) ++ f1) ++ f0).extractLsb' 0 8 = f0
  rw [extract_append_low _ _ _ _ (by omega), extract_all]

@[simp] theorem byte1_sendFrame (f0 f1 f2 f3 : Byte) : byte1 (encode (.sendFrame f0 f1 f2 f3)) = f1 := by
  rw [byte1_encode]
  show (((f3 ++ f2) ++ f1) ++ f0).extractLsb' 8 8 = f1
  rw [extract_append_high _ _ _ _ (by omega), extract_append_low _ _ _ _ (by omega)]
  exact extract_all f1

@[simp] theorem byte2_sendFrame (f0 f1 f2 f3 : Byte) : byte2 (encode (.sendFrame f0 f1 f2 f3)) = f2 := by
  rw [byte2_encode]
  show (((f3 ++ f2) ++ f1) ++ f0).extractLsb' 16 8 = f2
  rw [extract_append_high _ _ _ _ (by omega), extract_append_high _ _ _ _ (by omega),
    extract_append_low _ _ _ _ (by omega)]
  exact extract_all f2

@[simp] theorem byte3_sendFrame (f0 f1 f2 f3 : Byte) : byte3 (encode (.sendFrame f0 f1 f2 f3)) = f3 := by
  rw [byte3_encode]
  show (((f3 ++ f2) ++ f1) ++ f0).extractLsb' 24 8 = f3
  rw [extract_append_high _ _ _ _ (by omega), extract_append_high _ _ _ _ (by omega),
    extract_append_high _ _ _ _ (by omega)]
  exact extract_all f3

end Sys2Proof
end

