-- ==== Sys2Proof/Laws/Run.lean ====
section
/-! SUPPORT. How a run is put together from its steps, in whatever order the agents move.

`Leads n s t`: from `s`, `n` steps of the agents, and the idle turns that fall between them, lead to `t` whatever fuel is left
and whatever turns are given. A procedure's lemma is a `Leads`, and they chain by `Leads.trans`. `run_induct` carries a property that every step keeps through a whole run. -/

namespace Sys2Proof.Machine

/-! ## no step reads the turns -/

/-- Apply to the next state, if there is one. -/
def mapNext (f : State → State) : Result State Fault Refusal → Result State Fault Refusal
  | .next s => .next (f s)
  | .fault r => .fault r
  | .refused r => .refused r

@[simp] theorem withTurns_held (ts : List Turn) (s : State) : (s.withTurns ts).held = s.held := rfl
@[simp] theorem withTurns_activityReady (p : Activity) (ts : List Turn) (s : State) :
    (s.withTurns ts).activityReady p = s.activityReady p := rfl
@[simp] theorem withTurns_withTurns (ts us : List Turn) (s : State) : (s.withTurns us).withTurns ts = s.withTurns ts := rfl
@[simp] theorem withTurns_cons_elapse (a : Turn) (ts : List Turn) (s : State) :
    (s.withTurns (a :: ts)).elapse = s.withTurns ts := rfl
@[simp] theorem withTurns_nil_elapse (s : State) : (s.withTurns []).elapse = s.withTurns [] := rfl
@[simp] theorem withTurns_self (s : State) : s.withTurns s.env.turns = s := rfl

theorem ret_withTurns (r : Ret) (k : List Entry) (ts : List Turn) (s : State) :
    ret r k (s.withTurns ts) = mapNext (State.withTurns ts) (ret r k s) := by
  cases k with
  | nil => rfl
  | cons c k => simp only [ret]; split <;> rfl

theorem withBound_map {α : Type} (r : Option α) (F : State → State) (f g : α → Result State Fault Refusal)
    (h : ∀ a, f a = mapNext F (g a)) : withBound r f = mapNext F (withBound r g) := by
  cases r with
  | none => rfl
  | some a => exact h a

/-- A labelled step neither reads nor writes the turns. -/
theorem stepAt_withTurns (e : Entry) (k : List Entry) (ts : List Turn) (s : State) :
    stepAt e k (s.withTurns ts) = mapNext (State.withTurns ts) (stepAt e k s) := by
  cases e with
  | wt0 => simp only [stepAt, wt0, recoverCollision]; split <;> split <;> simp_all <;> rfl
  | wt3 => exact ret_withTurns ..
  | bg3 a =>
    by_cases h : s.sdet = true
    · simp only [stepAt, bg3, h, withTurns_sdet, if_true]; rfl
    · simp only [stepAt, bg3, h, withTurns_sdet]; exact ret_withTurns _ _ ts (raiseBusFailure s)
  | bg5 => exact ret_withTurns _ _ ts { s with tstate := .addressSent }
  | hb1 r => exact withBound_map r _ _ _ fun _ => rfl
  | wr1 v =>
    by_cases h : s.loadBlocked = true
    · simp only [stepAt, wr1, loadShift, h, show (s.withTurns ts).loadBlocked = s.loadBlocked from rfl, if_true]; rfl
    · simp only [stepAt, wr1, loadShift, h, show (s.withTurns ts).loadBlocked = s.loadBlocked from rfl]; rfl
  | wr4 => exact ret_withTurns _ _ ts { s with tstate := s.tstate.afterByte }
  | hx1 r => exact withBound_map r _ _ _ fun _ => rfl
  | en3 =>
    by_cases h : s.pdet = true
    · simp only [stepAt, en3, h, withTurns_pdet, if_true]; exact ret_withTurns _ _ ts (confirmBoundary .idle s)
    · simp only [stepAt, en3, h, withTurns_pdet]; exact ret_withTurns _ _ ts (raiseBusFailure s)
  | he1 r => exact withBound_map r _ _ _ fun _ => rfl
  | dl2 n => exact ret_withTurns _ _ ts (emit (.delay n) s)
  | sf2 r =>
    refine withBound_map r _ _ _ fun r => ?_
    cases r with
    | true => rfl
    | false =>
      by_cases h : s.cfg.encCheckStart = true
      · simp only [h, withTurns_cfg, if_true]; exact ret_withTurns _ _ ts { s with fok := false }
      · simp only [h, withTurns_cfg]; rfl
  | sf3 =>
    by_cases h : s.fidx = 4
    · simp only [stepAt, sf3, h, withTurns_fidx, if_true]; rfl
    · simp only [stepAt, sf3, h, withTurns_fidx, withTurns_frame, if_false]; split <;> rfl
  | sf4 r => exact withBound_map r _ _ _ fun _ => rfl
  | sf7 r => exact withBound_map r _ _ _ fun r => ret_withTurns _ _ ts { s with fok := s.fok && r }
  | hf2 r => exact withBound_map r _ _ _ fun _ => rfl
  | sc2 r => exact withBound_map r _ _ _ fun _ => ret_withTurns ..
  | hc1 r => exact withBound_map r _ _ _ fun _ => rfl
  | sd2 r => exact withBound_map r _ _ _ fun _ => ret_withTurns ..
  | hd1 r => exact withBound_map r _ _ _ fun _ => rfl
  | id1 i =>
    by_cases h : i = 5
    · simp only [stepAt, id1, h, if_true]; rfl
    · simp only [stepAt, id1, h, withTurns_cfg, if_false]; split <;> rfl
  | id2 i r => exact withBound_map r _ _ _ fun _ => rfl
  | cl2 r => exact withBound_map r _ _ _ fun _ => rfl
  | cu1 r => exact withBound_map r _ _ _ fun _ => rfl
  | _ => rfl

/-- A completion neither reads nor writes the turns. -/
theorem busStep_withTurns (p : Activity) (ts : List Turn) (s : State) :
    busStep p (s.withTurns ts) = (busStep p s).withTurns ts := by
  by_cases h : s.activityReady p = true
  · simp only [busStep, withTurns_activityReady, h, if_true]
    cases p with
    | start => simp only [withTurns_env]; split <;> [(rename_i o _ _; cases o <;> rfl); rfl]
    | byte => simp only [withTurns_env]; split <;> [(rename_i o _ _; cases o <;> rfl); rfl]
    | stop => simp only [withTurns_env]; split <;> [(rename_i o _ _; cases o <;> rfl); rfl]
  · simp only [busStep, withTurns_activityReady, h]; rfl

/-- ENG's step neither reads nor writes the turns. -/
theorem engStep_withTurns (ts : List Turn) (s : State) :
    engStep (s.withTurns ts) = mapNext (State.withTurns ts) (engStep s) := by
  simp only [engStep, withTurns_seq, withTurns_held]
  split
  · rfl
  · by_cases h : s.held = true
    · simp only [h, if_true]; rfl
    · simp only [h]; exact stepAt_withTurns ..

/-- A step of ENG, BUS or TMR uses up the turn that was given for it, if one was, and no other. -/
theorem agentStep_turns {a : Turn} {s t : State} (ha : a ≠ .rst) (h : agentStep a s = .next t) :
    t.env.turns = s.env.turns.tail := by
  cases a with
  | eng =>
    simp only [agentStep, State.elapse, engStep_withTurns] at h
    cases he : engStep s with
    | next u => rw [he] at h; simp only [mapNext, Host.Outcome.next.injEq] at h; rw [← h]; rfl
    | fault r => rw [he] at h; simp [mapNext] at h
    | refused r => rw [he] at h; simp [mapNext] at h
  | bus p =>
    simp only [agentStep, State.elapse, busStep_withTurns, Host.Outcome.next.injEq] at h
    rw [← h]; rfl
  | tmr => simp only [agentStep, Host.Outcome.next.injEq] at h; rw [← h]; rfl
  | rst => exact absurd rfl ha

/-! ## a turn whose agent has nothing to do -/

/-- Nothing is pending and no delay runs: no step but ENG's changes anything. -/
def Calm (s : State) : Prop := s.xbusy = false ∧ s.spend = false ∧ s.ppend = false ∧ s.dly = 0

theorem busStep_idle {p : Activity} {s : State} (h : s.activityReady p = false) : busStep p s = s := by
  simp only [busStep, h]; rfl

theorem busReady_false {s : State} (h : s.busReady = false) (p : Activity) : s.activityReady p = false := by
  simp only [State.busReady, Bool.or_eq_false_iff] at h
  obtain ⟨⟨h1, h2⟩, h3⟩ := h
  cases p <;> assumption

theorem tick_idle {s : State} (h : s.dly = 0) : tick s = s := by
  cases s; simp_all [tick]

theorem Calm.busReady {s : State} (h : Calm s) : s.busReady = false := by
  obtain ⟨h1, h2, h3, -⟩ := h
  simp [State.busReady, State.startReady, State.byteReady, State.stopReady, h1, h2, h3]

/-- A turn of ENG at a hold does nothing. -/
theorem engTurn_held {s : State} (h : s.held = true) (ts : List Turn) :
    agentStep .eng (s.withTurns (.eng :: ts)) = .next (s.withTurns ts) := by
  simp only [agentStep, withTurns_cons_elapse, engStep, withTurns_held, h, if_true]
  split <;> rfl

/-- A turn of BUS for an activity it cannot complete does nothing. -/
theorem busTurn_idle {s : State} {p : Activity} (h : s.activityReady p = false) (ts : List Turn) :
    agentStep (.bus p) (s.withTurns (.bus p :: ts)) = .next (s.withTurns ts) := by
  simp only [agentStep, withTurns_cons_elapse, busStep_withTurns, busStep_idle h]

/-- A turn of TMR with no delay running does nothing. -/
theorem tmrTurn_idle {s : State} (h : s.dly = 0) (ts : List Turn) :
    agentStep .tmr (s.withTurns (.tmr :: ts)) = .next (s.withTurns ts) := by
  simp only [agentStep, withTurns_cons_elapse, tick_idle (s := s.withTurns ts) h]

/-! ## `Leads` -/

/-- From `s`, `n` steps lead to `t`, with `rst` low, in whatever order the agents move: with the turns `ts` given, there are `m`
steps, `n` of them and the turns in which nothing happens, and `ts'` of the turns are left. -/
def Leads (n : Nat) (s t : State) : Prop :=
  ∀ ts : List Turn, .rst ∉ ts →
    ∃ m ts', n ≤ m ∧ m + ts'.length ≤ n + ts.length ∧ ts' <:+ ts ∧
      ∀ f, run (f + m) (s.withTurns ts) = run f (t.withTurns ts')

theorem Leads.refl (s : State) : Leads 0 s s := fun ts _ => ⟨0, ts, by omega, by omega, List.suffix_refl ts, fun _ => rfl⟩

theorem Leads.trans {n m : Nat} {s t u : State} (h : Leads n s t) (h' : Leads m t u) : Leads (n + m) s u := by
  intro ts hr
  obtain ⟨m1, ts1, a1, b1, c1, d1⟩ := h ts hr
  obtain ⟨m2, ts2, a2, b2, c2, d2⟩ := h' ts1 fun hm => hr (c1.subset hm)
  exact ⟨m2 + m1, ts2, by omega, by omega, c2.trans c1, fun f => by rw [← Nat.add_assoc, d1, d2]⟩

/-- One step: `a` is whose step it is when no turn is given, and a turn that is given either is that step or does nothing. -/
theorem leads_step {s t : State} {a : Turn} (hs : s.seq ≠ []) (hm : mover (s.withTurns []) = some a)
    (ha : agentStep a (s.withTurns []) = .next (t.withTurns []))
    (hb : ∀ b ts, b ≠ .rst → agentStep b (s.withTurns (b :: ts)) = .next (s.withTurns ts) ∨
      agentStep b (s.withTurns (b :: ts)) = .next (t.withTurns ts)) : Leads 1 s t := by
  have hne : ∀ ts, (s.withTurns ts).seq.isEmpty = false := fun ts => by simpa using hs
  intro ts
  induction ts with
  | nil => exact fun _ => ⟨1, [], by omega, by simp, List.suffix_refl _, fun f => by simp [run, hs, hm, ha]⟩
  | cons b ts ih =>
    intro hr
    simp only [List.mem_cons, not_or] at hr
    have hmv : mover (s.withTurns (b :: ts)) = some b := rfl
    rcases hb b ts (Ne.symm hr.1) with h | h
    · obtain ⟨m, ts', x, y, z, w⟩ := ih hr.2
      exact ⟨m + 1, ts', by omega, by simp only [List.length_cons]; omega, z.trans (List.suffix_cons b ts), fun f => by
        rw [← Nat.add_assoc, run, hne]; simp only [hmv, h]; exact w f⟩
    · exact ⟨1, ts, by omega, by simp only [List.length_cons]; omega, List.suffix_cons b ts, fun f => by
        rw [run, hne]; simp only [hmv, h]; rfl⟩

/-- One ENG step. -/
theorem leads_eng {s t : State} {e : Entry} {k : List Entry} (hc : Calm s) (hs : s.seq = e :: k)
    (hh : s.held = false) (ht : stepAt e k s = .next t) : Leads 1 s t := by
  have he : ∀ ts, engStep (s.withTurns ts) = .next (t.withTurns ts) := fun ts => by
    simp [engStep, hs, hh, stepAt_withTurns, ht, mapNext]
  refine leads_step (a := .eng) (by simp [hs]) ?_ (he []) fun b ts hb => ?_
  · simp [mover, State.engReady, hs, hh]
  · cases b with
    | eng => exact .inr (he ts)
    | bus p => exact .inl (busTurn_idle (busReady_false hc.busReady p) ts)
    | tmr => exact .inl (tmrTurn_idle hc.2.2.2 ts)
    | rst => exact absurd rfl hb

/-- One BUS step, while ENG waits, of the one activity that can complete. -/
theorem leads_bus {s : State} {p : Activity} (hd : s.dly = 0) (hs : s.seq ≠ []) (hh : s.held = true)
    (hp : ∀ q, s.activityReady q = (q == p)) : Leads 1 s (busStep p s) := by
  refine leads_step (a := .bus p) hs ?_ ?_ fun b ts hb => ?_
  · have h1 : s.startReady = _ := hp .start
    have h2 : s.byteReady = _ := hp .byte
    have h3 : s.stopReady = _ := hp .stop
    have h1 : (s.withTurns []).startReady = _ := h1
    have h2 : (s.withTurns []).byteReady = _ := h2
    have h3 : (s.withTurns []).stopReady = _ := h3
    simp only [mover, withTurns_env, State.engReady, withTurns_held, hh, h1, h2, h3]
    cases p <;> simp
  · simp only [agentStep, withTurns_nil_elapse, busStep_withTurns]
  · cases b with
    | eng => exact .inl (engTurn_held hh ts)
    | bus q =>
      by_cases hq : q = p
      · subst hq
        right
        simp only [agentStep, withTurns_cons_elapse, busStep_withTurns]
      · exact .inl (busTurn_idle (by rw [hp]; simpa using hq) ts)
    | tmr => exact .inl (tmrTurn_idle hd ts)
    | rst => exact absurd rfl hb

/-- One TMR step, while ENG waits and BUS has no step. -/
theorem leads_tmr {s : State} (hs : s.seq ≠ []) (hh : s.held = true) (hb : s.busReady = false) (hd : s.dly ≠ 0) :
    Leads 1 s (tick s) := by
  refine leads_step (a := .tmr) hs ?_ rfl fun b ts hb' => ?_
  · have : (s.dly != 0) = true := by simpa using hd
    have h1 : (s.withTurns []).startReady = false := busReady_false hb .start
    have h2 : (s.withTurns []).byteReady = false := busReady_false hb .byte
    have h3 : (s.withTurns []).stopReady = false := busReady_false hb .stop
    simp only [mover, withTurns_env, State.engReady, withTurns_held, hh, h1, h2, h3, withTurns_dly, this]
    simp
  · cases b with
    | eng => exact .inl (engTurn_held hh ts)
    | bus p => exact .inl (busTurn_idle (busReady_false hb p) ts)
    | tmr => exact .inr rfl
    | rst => exact absurd rfl hb'

/-! ## how a run ends -/

/-- A run stops where `SEQ` is empty. -/
theorem run_idle {s : State} (h : s.seq = []) (f : Nat) : run f s = .next s := by
  cases f <;> simp [run, h]

/-- A run stops where nobody can move. -/
theorem run_stuck {s : State} (h : mover s = none) (f : Nat) : run f s = .next s := by
  cases f with
  | zero => rfl
  | succ f => by_cases hs : s.seq.isEmpty <;> simp [run, hs, h]

/-- Where nobody can move, the turns that are given pass, and the run stops when they are used up. -/
theorem run_waits {s : State} (hh : s.held = true) (hb : s.busReady = false) (hd : s.dly = 0) {ts : List Turn} (hr : .rst ∉ ts)
    {f : Nat} (hf : ts.length ≤ f) : run f (s.withTurns ts) = .next (s.withTurns []) ∧ mover (s.withTurns []) = none := by
  have hs : s.seq ≠ [] := by intro h; simp [State.held, h] at hh
  have hm : mover (s.withTurns []) = none := by
    have h1 : (s.withTurns []).startReady = false := busReady_false hb .start
    have h2 : (s.withTurns []).byteReady = false := busReady_false hb .byte
    have h3 : (s.withTurns []).stopReady = false := busReady_false hb .stop
    simp [mover, withTurns_env, State.engReady, withTurns_held, hh, h1, h2, h3, withTurns_dly, hd]
  refine ⟨?_, hm⟩
  induction ts generalizing f with
  | nil => exact run_stuck hm f
  | cons b ts ih =>
    simp only [List.mem_cons, not_or] at hr
    simp only [List.length_cons] at hf
    obtain ⟨f, rfl⟩ : ∃ f', f = f' + 1 := ⟨f - 1, by omega⟩
    have hne : (s.withTurns (b :: ts)).seq.isEmpty = false := by simpa using hs
    have h : agentStep b (s.withTurns (b :: ts)) = .next (s.withTurns ts) := by
      cases b with
      | eng => exact engTurn_held hh ts
      | bus p => exact busTurn_idle (busReady_false hb p) ts
      | tmr => exact tmrTurn_idle hd ts
      | rst => exact absurd rfl hr.1
    rw [run, hne]
    simp only [show mover (s.withTurns (b :: ts)) = some b from rfl, h]
    exact ih hr.2 (by omega)

/-- An operation whose steps never wait ends, whatever BUS and TMR do meanwhile: `P n` says what holds `n` ENG steps before its
end, and is none of BUS's and TMR's business. -/
theorem run_unheld {P : Nat → State → Prop} (h0 : ∀ s, P 0 s → s.seq = [])
    (hP : ∀ n s, P (n + 1) s → s.seq ≠ [] ∧ s.held = false ∧ ∃ t, engStep s = .next t ∧ P n t)
    (hb : ∀ n p s, P n s → P n (busStep p s)) (ht : ∀ n s, P n s → P n (tick s)) (hw : ∀ n ts s, P n s → P n (s.withTurns ts))
    (n : Nat) {s : State} (hs : P n s) (hr : .rst ∉ s.env.turns) {f : Nat} (hf : n + s.env.turns.length ≤ f) :
    ∃ t, run f s = .next t ∧ P 0 t := by
  induction f generalizing n s with
  | zero =>
    obtain rfl : n = 0 := by omega
    exact ⟨s, rfl, hs⟩
  | succ f ih =>
    cases n with
    | zero => exact ⟨s, run_idle (h0 s hs) _, hs⟩
    | succ n =>
      obtain ⟨hne, hh, t, he, hPt⟩ := hP n s hs
      have hne' : s.seq.isEmpty = false := by simpa using hne
      have hel := hw (n + 1) s.env.turns.tail s hs
      obtain ⟨-, -, t', he', hPt'⟩ := hP n _ hel
      cases e : s.env.turns with
      | nil =>
        have hm : mover s = some .eng := by simp [mover, e, State.engReady, hne, hh]
        have ha : agentStep .eng s = .next t' := he'
        have hu := agentStep_turns (by simp) ha
        obtain ⟨v, hv, hPv⟩ := ih n hPt' (by rw [hu, e]; simp) (by rw [hu, e]; simp [e] at hf ⊢; omega)
        exact ⟨v, by rw [run, hne']; simp only [hm, ha]; exact hv, hPv⟩
      | cons a ts =>
        have hm : mover s = some a := by simp [mover, e]
        rw [e] at hr hf
        simp only [List.mem_cons, not_or, List.length_cons] at hr hf
        have key : ∃ u m, agentStep a s = .next u ∧ P m u ∧ m ≤ n + 1 := by
          cases a with
          | eng => exact ⟨t', n, he', hPt', by omega⟩
          | bus p => exact ⟨_, n + 1, rfl, hb _ p _ hel, by omega⟩
          | tmr => exact ⟨_, n + 1, rfl, ht _ _ hel, by omega⟩
          | rst => exact absurd rfl hr.1
        obtain ⟨u, m, ha, hPu, hle⟩ := key
        have hu := agentStep_turns (Ne.symm hr.1) ha
        rw [e] at hu
        obtain ⟨v, hv, hPv⟩ := ih m hPu (by rw [hu]; exact hr.2) (by rw [hu]; simp; omega)
        exact ⟨v, by rw [run, hne']; simp only [hm, ha]; exact hv, hPv⟩
/-- A property every step keeps holds at the end of a run that answers a next state. -/
theorem run_induct {P : State → Prop} (hP : ∀ a s s', P s → s.seq ≠ [] → mover s = some a → agentStep a s = .next s' → P s')
    {f : Nat} {s t : State} (hs : P s) (h : run f s = .next t) : P t := by
  induction f generalizing s with
  | zero => simp only [run, Host.Outcome.next.injEq] at h; exact h ▸ hs
  | succ f ih =>
    by_cases he : s.seq = []
    · rw [run_idle he] at h; simp only [Host.Outcome.next.injEq] at h; exact h ▸ hs
    · have hne : s.seq.isEmpty = false := by simpa using he
      cases hm : mover s with
      | none => rw [run_stuck hm] at h; simp only [Host.Outcome.next.injEq] at h; exact h ▸ hs
      | some a =>
        cases ha : agentStep a s with
        | next s' => simp only [run, hne, hm, ha] at h; exact ih (hP a s s' hs he hm ha) h
        | fault r => simp [run, hne, hm, ha] at h
        | refused r => simp [run, hne, hm, ha] at h

/-- A run whose every step answers a next state answers one. -/
theorem run_answers {P : State → Prop} (hP : ∀ a s, P s → s.seq ≠ [] → mover s = some a → ∃ s', agentStep a s = .next s' ∧ P s')
    (f : Nat) {s : State} (hs : P s) : ∃ t, run f s = .next t ∧ P t := by
  induction f generalizing s with
  | zero => exact ⟨s, rfl, hs⟩
  | succ f ih =>
    by_cases he : s.seq = []
    · exact ⟨s, run_idle he _, hs⟩
    · have hne : s.seq.isEmpty = false := by simpa using he
      cases hm : mover s with
      | none => exact ⟨s, run_stuck hm _, hs⟩
      | some a =>
        obtain ⟨s', ha, hs'⟩ := hP a s hs he hm
        obtain ⟨t, ht, hPt⟩ := ih hs'
        exact ⟨t, by simp [run, hne, hm, ha, ht], hPt⟩

/-- A run that ends inside an operation is a run of the machine's steps. -/
theorem coreRun_of_run {f : Nat} {s t : State} (h : run f s = .next t) (ht : t.seq ≠ []) : core.run f s = .next t := by
  induction f generalizing s with
  | zero => exact h
  | succ f ih =>
    by_cases hs : s.seq = []
    · rw [run_idle hs] at h
      simp only [Host.Outcome.next.injEq] at h
      exact absurd (h ▸ hs) ht
    · have hne : s.seq.isEmpty = false := by simpa using hs
      have hacc : s.accepted = none := by
        unfold State.accepted State.cmdReady
        split
        · simp [hne]
        · rfl
      have hstep : core.step s = microStep s := by
        show step s = _
        simp [step, hacc]
      simp only [Host.Core.run, hstep, microStep]
      cases hm : mover s with
      | none =>
        rw [run_stuck hm] at h
        exact ih (by rw [run_stuck hm]; exact h)
      | some a =>
        simp only [run, hne, hm] at h
        cases ha : agentStep a s with
        | next s' => simp only [ha] at h ⊢; exact ih h
        | fault r => simp [ha] at h
        | refused r => simp [ha] at h

/-! ## acceptance -/

theorem resetDue_of_noReset {s : State} (h : .rst ∉ s.env.turns) : s.resetDue = false := by
  unfold State.resetDue
  split
  · rename_i h'; exact absurd (by rw [h']; simp) h
  · rfl

theorem Ready.calm {s : State} (h : Ready s) : Calm s := ⟨h.noByte, h.noStart, h.noStop, h.noDelay⟩

/-- With the core idle and `rst` low, a command is accepted and its run begins. -/
theorem issue_eq {s : State} (h : Listens s) (i : Instr) (e : Entry) :
    issue i e s =
      run (opFuel s) { s with cwr := encode i, trace := s.trace ++ [.cmd (encode i)], seq := [e] } := by
  have : s.cmdReady = true := by simp [State.cmdReady, h.idle, resetDue_of_noReset h.noReset]
  simp [issue, this, accept, emit]

/-- The steps of an operation lead to its end: that is what its command answers. -/
theorem issue_of_leads {n : Nat} {s t : State} {i : Instr} {e : Entry} (h : Listens s)
    (hl : Leads n { s with cwr := encode i, trace := s.trace ++ [.cmd (encode i)], seq := [e] } t) (ht : t.seq = [])
    (hn : n + s.env.turns.length ≤ opFuel s) : ∃ ts, ts <:+ s.env.turns ∧ issue i e s = .next (t.withTurns ts) := by
  obtain ⟨m, ts, -, hm, hs, hr⟩ := hl s.env.turns h.noReset
  refine ⟨ts, hs, ?_⟩
  rw [issue_eq h, show opFuel s = opFuel s - m + m by omega]
  exact (hr _).trans (run_idle (s := t.withTurns ts) ht _)

/-- The steps of an operation lead to a wait that nobody ends: the turns pass, and the command stays there. -/
theorem issue_of_leads_wait {n : Nat} {s t : State} {i : Instr} {e : Entry} (h : Listens s)
    (hl : Leads n { s with cwr := encode i, trace := s.trace ++ [.cmd (encode i)], seq := [e] } t) (hh : t.held = true)
    (hb : t.busReady = false) (hd : t.dly = 0) (hn : n + s.env.turns.length ≤ opFuel s) :
    issue i e s = .next (t.withTurns []) ∧ Stuck (t.withTurns []) := by
  obtain ⟨m, ts, -, hm, hs, hr⟩ := hl s.env.turns h.noReset
  obtain ⟨h1, h2⟩ := run_waits hh hb hd (ts := ts) (fun h' => h.noReset (hs.subset h')) (f := opFuel s - m) (by omega)
  refine ⟨?_, by intro h; simp [State.held, show t.seq = [] from h] at hh, h2⟩
  rw [issue_eq h, show opFuel s = opFuel s - m + m by omega]
  exact (hr _).trans h1

end Sys2Proof.Machine
end

