-- ==== Sys2Proof/Laws/Procedures.lean ====
section
/-! SUPPORT. One lemma per procedure: what its labelled steps do, together with the BUS and TMR steps that fall between them,
in whatever order the agents move, when `rst` is low and the draws arrive. Each says that the steps lead to the state of the big-step summary
(Machine/Summary.lean), with the result bound in the caller. -/

namespace Sys2Proof.Machine

/-- Both cases of WT.0 leave both flags clear. -/
theorem recoverCollision_eq (s : State) : recoverCollision s = { s with bcl := false, wcol := false } := by
  unfold recoverCollision
  split
  · rfl
  · rename_i h
    simp only [Bool.or_eq_true, not_or, Bool.not_eq_true] at h
    obtain ⟨h1, h2⟩ := h
    cases s
    simp_all

/-! ## waitReady (R132) -/

theorem leads_waitReady {s : State} {c c' : Entry} {k : List Entry} (hs : s.seq = .wt0 :: c :: k)
    (hcalm : Calm s) (hx : s.xbusy = false) (hv : s.rbusy = false) (hc : bindResult .unit c = some c') :
    Leads 4 s { clr s with seq := c' :: k } := by
  have h0 := leads_eng hcalm hs (by simp [State.held, hs]) (t := { s with bcl := false, wcol := false, seq := .wt1 :: c :: k })
    (by simp [stepAt, wt0, recoverCollision_eq, goto])
  have h1 := leads_eng (s := { s with bcl := false, wcol := false, seq := .wt1 :: c :: k }) hcalm rfl
    (by simp [State.held, State.transferring, hx, hv]) rfl
  have h2 := leads_eng (s := { s with bcl := false, wcol := false, seq := .wt2 :: c :: k }) hcalm rfl rfl rfl
  have h3 := leads_eng (s := { s with bcl := false, wcol := false, xdone := false, seq := .wt3 :: c :: k }) hcalm rfl rfl
    (t := { clr s with seq := c' :: k }) (by simp [stepAt, wt3, ret, hc, goto, clr])
  exact ((h0.trans h1).trans h2).trans h3

/-! ## writeByte (R134) -/

/-- WR.0 to WR.1: the byte is in the shift register and ENG waits. -/
theorem leads_byteRequest {s : State} {v : Byte} {k : List Entry} (hs : s.seq = .wr0 v :: k) (hcalm : Calm s)
    (hx : s.xbusy = false) (hv : s.rbusy = false) (hp : s.spend = false) (hq : s.ppend = false) :
    Leads 6 s { clr s with txbuf := v, xbusy := true, seq := .wr2 :: k } := by
  have h0 := leads_eng hcalm hs (by simp [State.held, hs]) (t := { s with seq := .wt0 :: .wr1 v :: k }) rfl
  have h1 := leads_waitReady (s := { s with seq := .wt0 :: .wr1 v :: k }) rfl hcalm hx hv rfl
  have h2 := leads_eng (s := { clr s with seq := .wr1 v :: k }) hcalm rfl rfl
    (t := { clr s with txbuf := v, xbusy := true, seq := .wr2 :: k })
    (by simp [stepAt, wr1, loadShift, State.loadBlocked, clr, hx, hp, hq, requestByte, goto])
  exact (h0.trans h1).trans h2

/-- BUS completes the byte in progress with the next draw. -/
theorem byteDone_byStep {s : State} {o : ByteOutcome} {os : List ByteOutcome} (he : s.en = true) (hx : s.xbusy = true)
    (hp : s.spend = false) (hq : s.ppend = false) (hb : s.env.bytes = o :: os) :
    (∀ q, s.activityReady q = (q == .byte)) ∧ busStep .byte s = byteDone o { s with env := { s.env with bytes := os } } := by
  constructor
  · intro q; cases q <;> simp [State.activityReady, State.startReady, State.byteReady, State.stopReady, he, hx, hp, hq, hb]
  · simp [busStep, State.activityReady, State.byteReady, he, hx, hb]

/-- WR.0 to WR.4 with a draw that lets writeByte return (R136 (b)). -/
theorem leads_writeByte {s : State} {v : Byte} {o : ByteOutcome} {os : List ByteOutcome} {c c' : Entry} {k : List Entry}
    (hs : s.seq = .wr0 v :: c :: k) (hcalm : Calm s) (hx : s.xbusy = false) (hv : s.rbusy = false)
    (hp : s.spend = false) (hq : s.ppend = false) (he : s.en = true) (hb : s.env.bytes = o :: os)
    (ho : o.returns = true) (hc : bindResult (.bit o.nack) c = some c') :
    Leads 10 s { byteEffect v o { s with env := { s.env with bytes := os } } with seq := c' :: k } := by
  have h0 := leads_byteRequest hs hcalm hx hv hp hq
  have hd : ({ clr s with txbuf := v, xbusy := true, seq := .wr2 :: c :: k } : State).held = true := by
    simp [State.held, clr]
  obtain ⟨hrdy, hstep⟩ := byteDone_byStep (s := { clr s with txbuf := v, xbusy := true, seq := .wr2 :: c :: k })
    (o := o) (os := os) he rfl hp hq hb
  have h1 := leads_bus (s := { clr s with txbuf := v, xbusy := true, seq := .wr2 :: c :: k })
    hcalm.2.2.2 (by simp) hd hrdy
  rw [hstep] at h1
  -- after the draw: the flag is set, the answer stands in ACKSTAT
  have hbd : byteDone o { clr s with txbuf := v, xbusy := true, seq := .wr2 :: c :: k, env := { s.env with bytes := os } } =
      { clr s with txbuf := v, xdone := true, bcl := o.collides, ackstat := o.nack, trace := s.trace ++ [o.event v],
                   seq := .wr2 :: c :: k, env := { s.env with bytes := os } } := by
    cases o with
    | acked => simp [byteDone, emit, clr, ByteOutcome.collides, ByteOutcome.nack, ByteOutcome.event, hx]
    | nacked => simp [byteDone, emit, clr, ByteOutcome.collides, ByteOutcome.nack, ByteOutcome.event, hx]
    | collided d n =>
      simp only [ByteOutcome.returns] at ho
      simp [byteDone, emit, clr, ByteOutcome.collides, ByteOutcome.nack, ByteOutcome.event, hx, ho]
  have h1' : Leads 1 _ _ := hbd ▸ h1
  have h2 := leads_eng (s := { clr s with
    txbuf := v, xdone := true, bcl := o.collides, ackstat := o.nack, trace := s.trace ++ [o.event v],
    seq := .wr2 :: c :: k, env := { s.env with bytes := os } }) hcalm rfl rfl rfl
  have h3 := leads_eng (s := { clr s with
    txbuf := v, xdone := true, bcl := o.collides, ackstat := o.nack, trace := s.trace ++ [o.event v],
    seq := .wr3 :: c :: k, env := { s.env with bytes := os } }) hcalm rfl rfl rfl
  have h4 := leads_eng (s := { clr s with
    txbuf := v, xdone := false, bcl := o.collides, ackstat := o.nack, trace := s.trace ++ [o.event v],
    seq := .wr4 :: c :: k, env := { s.env with bytes := os } }) hcalm rfl rfl
    (t := { byteEffect v o { s with env := { s.env with bytes := os } } with seq := c' :: k })
    (by simp [stepAt, wr4, ret, hc, goto, byteEffect, clr])
  exact (((h0.trans h1').trans h2).trans h3).trans h4

/-! ## beginTransaction (R133) -/

/-- BG.0 to BG.1: the start is requested and ENG waits. -/
theorem leads_startRequest {s : State} {a : Byte} {k : List Entry} (hs : s.seq = .bg0 a :: k) (hcalm : Calm s)
    (hx : s.xbusy = false) (hv : s.rbusy = false) :
    Leads 6 s { clr s with spend := true, tstate := .startPending, seq := .bg2 a :: k } := by
  have h0 := leads_eng hcalm hs (by simp [State.held, hs]) (t := { s with seq := .wt0 :: .bg1 a :: k }) rfl
  have h1 := leads_waitReady (s := { s with seq := .wt0 :: .bg1 a :: k }) rfl hcalm hx hv rfl
  have h2 := leads_eng (s := { clr s with seq := .bg1 a :: k }) hcalm rfl rfl
    (t := { clr s with spend := true, tstate := .startPending, seq := .bg2 a :: k }) rfl
  exact (h0.trans h1).trans h2

/-- BUS completes the pending start with the next draw. -/
theorem startDone_byStep {s : State} {o : CondOutcome} {os : List CondOutcome} (he : s.en = true) (hx : s.xbusy = false)
    (hp : s.spend = true) (hq : s.ppend = false) (hb : s.env.starts = o :: os) :
    (∀ q, s.activityReady q = (q == .start)) ∧
      busStep .start s = startDone o { s with env := { s.env with starts := os } } := by
  constructor
  · intro q; cases q <;> simp [State.activityReady, State.startReady, State.byteReady, State.stopReady, he, hx, hp, hq, hb]
  · simp [busStep, State.activityReady, State.startReady, he, hp, hb]

/-- BG.0 to BG.3 with the draw `o`, up to the start check. -/
theorem leads_startCheck {s : State} {a : Byte} {o : CondOutcome} {os : List CondOutcome} {k : List Entry}
    (hs : s.seq = .bg0 a :: k) (hcalm : Calm s) (hx : s.xbusy = false) (hv : s.rbusy = false)
    (hq : s.ppend = false) (he : s.en = true) (hb : s.env.starts = o :: os) :
    Leads 8 s { startDone o { clr s with spend := true, tstate := .startPending, env := { s.env with starts := os } } with
                seq := .bg3 a :: k } := by
  have h0 := leads_startRequest hs hcalm hx hv
  obtain ⟨hrdy, hstep⟩ := startDone_byStep
    (s := { clr s with spend := true, tstate := .startPending, seq := .bg2 a :: k }) (o := o) (os := os) he hx rfl hq hb
  have h1 := leads_bus (s := { clr s with spend := true, tstate := .startPending, seq := .bg2 a :: k })
    hcalm.2.2.2 (by simp) rfl hrdy
  rw [hstep] at h1
  refine Leads.trans (n := 7) (m := 1) (h0.trans h1) ?_
  cases o with
  | detected => exact leads_eng (e := .bg2 a) (k := k) ⟨hcalm.1, rfl, hcalm.2.2⟩ rfl rfl rfl
  | missing => exact leads_eng (e := .bg2 a) (k := k) ⟨hcalm.1, rfl, hcalm.2.2⟩ rfl rfl rfl
  | collided => exact leads_eng (e := .bg2 a) (k := k) ⟨hcalm.1, rfl, hcalm.2.2⟩ rfl rfl rfl

/-- The state at BG.4: the start is confirmed, `os` are the draws left. -/
def begun (s : State) (os : List CondOutcome) : State :=
  { clr s with
    sdet := true, pdet := false, err := false, tstate := .startConfirmed, env := { s.env with starts := os }
    trace := s.trace ++ [.start, .err false] }

/-- beginTransaction where the summary returns (R136 (c)). -/
theorem leads_begin {s t : State} {a : Byte} {ok : Bool} {c c' : Entry} {k : List Entry} (hs : s.seq = .bg0 a :: c :: k)
    (hcalm : Calm s) (hx : s.xbusy = false) (hv : s.rbusy = false) (hp : s.spend = false) (hq : s.ppend = false)
    (ht : sumBegin a s = some (t, ok)) (hc : bindResult (.bit ok) c = some c') :
    ∃ n, n ≤ 21 ∧ Leads n s { t with seq := c' :: k } := by
  unfold sumBegin at ht
  split at ht
  · rename_i o os he hb
    have h0 := leads_startCheck hs hcalm hx hv hq he hb
    have hcalm' : s.xbusy = false ∧ false = false ∧ s.ppend = false ∧ s.dly = 0 :=
      ⟨hcalm.1, rfl, hcalm.2.2⟩
    cases o with
    | missing =>
      simp only [Option.some.injEq, Prod.mk.injEq] at ht
      obtain ⟨rfl, rfl⟩ := ht
      refine ⟨9, by omega, h0.trans (leads_eng (e := .bg3 a) (k := c :: k) hcalm' rfl rfl ?_)⟩
      simp [stepAt, bg3, startDone, ret, hc, goto, raiseBusFailure, emit, clr, hp]
    | collided =>
      simp only [Option.some.injEq, Prod.mk.injEq] at ht
      obtain ⟨rfl, rfl⟩ := ht
      refine ⟨9, by omega, h0.trans (leads_eng (e := .bg3 a) (k := c :: k) hcalm' rfl rfl ?_)⟩
      simp [stepAt, bg3, startDone, ret, hc, goto, raiseBusFailure, emit, clr, hp]
    | detected =>
      simp only at ht
      split at ht
      · rename_i u hu
        simp only [Option.some.injEq, Prod.mk.injEq] at ht
        obtain ⟨rfl, rfl⟩ := ht
        unfold sumByte at hu
        split at hu
        · rename_i b bs _ hbs
          split at hu
          · rename_i hret
            simp only [Option.some.injEq] at hu
            subst hu
            have h1 := leads_eng (e := .bg3 a) (k := c :: k)
              (s := { startDone .detected { clr s with
                spend := true, tstate := .startPending, env := { s.env with starts := os } } with seq := .bg3 a :: c :: k })
              hcalm' rfl rfl (t := { begun s os with seq := .bg4 a :: c :: k })
              (by simp [stepAt, bg3, startDone, goto, confirmBoundary, emit, clr, hp, begun])
            have h2 := leads_eng (s := { begun s os with seq := .bg4 a :: c :: k }) hcalm rfl rfl rfl
            have h3 := leads_writeByte (s := { begun s os with seq := .wr0 a :: .bg5 :: c :: k })
              (c := .bg5) (c' := .bg5) rfl hcalm hx hv hp hq he hbs hret rfl
            have h4 := leads_eng (e := .bg5) (k := c :: k)
              (s := { byteEffect a b { begun s os with env := { s.env with starts := os, bytes := bs } } with
                seq := .bg5 :: c :: k }) hcalm rfl rfl
              (t := { byteEffect a b { begun s os with env := { s.env with starts := os, bytes := bs } } with
                tstate := .addressSent, seq := c' :: k })
              (by simp [stepAt, bg5, ret, hc, goto, byteEffect, clr])
            exact ⟨21, by omega, (((h0.trans h1).trans h2).trans h3).trans h4⟩
          · simp at hu
        · simp at hu
      · simp at ht
  · simp at ht

/-! ## endTransaction (R135) -/

/-- EN.0 to EN.1: the stop is requested and ENG waits. -/
theorem leads_stopRequest {s : State} {k : List Entry} (hs : s.seq = .en0 :: k) (hcalm : Calm s)
    (hx : s.xbusy = false) (hv : s.rbusy = false) :
    Leads 6 s { clr s with ppend := true, tstate := .stopPending, seq := .en2 :: k } := by
  have h0 := leads_eng hcalm hs (by simp [State.held, hs]) (t := { s with seq := .wt0 :: .en1 :: k }) rfl
  have h1 := leads_waitReady (s := { s with seq := .wt0 :: .en1 :: k }) rfl hcalm hx hv rfl
  have h2 := leads_eng (s := { clr s with seq := .en1 :: k }) hcalm rfl rfl
    (t := { clr s with ppend := true, tstate := .stopPending, seq := .en2 :: k }) rfl
  exact (h0.trans h1).trans h2

/-- BUS completes the pending stop with the next draw. -/
theorem stopDone_byStep {s : State} {o : CondOutcome} {os : List CondOutcome} (he : s.en = true) (hx : s.xbusy = false)
    (hp : s.spend = false) (hq : s.ppend = true) (hb : s.env.stops = o :: os) :
    (∀ q, s.activityReady q = (q == .stop)) ∧ busStep .stop s = stopDone o { s with env := { s.env with stops := os } } := by
  constructor
  · intro q; cases q <;> simp [State.activityReady, State.startReady, State.byteReady, State.stopReady, he, hx, hp, hq, hb]
  · simp [busStep, State.activityReady, State.stopReady, he, hq, hb]

/-- EN.0 to EN.2 with the draw `o`, up to the stop check. -/
theorem leads_stopCheck {s : State} {o : CondOutcome} {os : List CondOutcome} {k : List Entry} (hs : s.seq = .en0 :: k)
    (hcalm : Calm s) (hx : s.xbusy = false) (hv : s.rbusy = false) (hp : s.spend = false) (he : s.en = true)
    (hb : s.env.stops = o :: os) :
    Leads 8 s { stopDone o { clr s with ppend := true, tstate := .stopPending, env := { s.env with stops := os } } with
                seq := .en3 :: k } := by
  have h0 := leads_stopRequest hs hcalm hx hv
  obtain ⟨hrdy, hstep⟩ := stopDone_byStep
    (s := { clr s with ppend := true, tstate := .stopPending, seq := .en2 :: k }) (o := o) (os := os) he hx hp rfl hb
  have h1 := leads_bus (s := { clr s with ppend := true, tstate := .stopPending, seq := .en2 :: k })
    hcalm.2.2.2 (by simp) rfl hrdy
  rw [hstep] at h1
  refine Leads.trans (n := 7) (m := 1) (h0.trans h1) ?_
  cases o with
  | detected =>
    exact leads_eng (e := .en2) (k := k) ⟨hcalm.1, hcalm.2.1, rfl, hcalm.2.2.2⟩ rfl rfl rfl
  | missing =>
    exact leads_eng (e := .en2) (k := k) ⟨hcalm.1, hcalm.2.1, rfl, hcalm.2.2.2⟩ rfl rfl rfl
  | collided =>
    exact leads_eng (e := .en2) (k := k) ⟨hcalm.1, hcalm.2.1, rfl, hcalm.2.2.2⟩ rfl rfl rfl

/-- endTransaction where the summary returns (R136 (d)). -/
theorem leads_end {s t : State} {ok : Bool} {c c' : Entry} {k : List Entry} (hs : s.seq = .en0 :: c :: k)
    (hcalm : Calm s) (hx : s.xbusy = false) (hv : s.rbusy = false) (hp : s.spend = false) (hq : s.ppend = false)
    (ht : sumEnd s = some (t, ok)) (hc : bindResult (.bit ok) c = some c') :
    Leads 9 s { t with seq := c' :: k } := by
  unfold sumEnd at ht
  split at ht
  · rename_i o os he hb
    have h0 := leads_stopCheck hs hcalm hx hv hp he hb
    have hcalm' : s.xbusy = false ∧ s.spend = false ∧ false = false ∧ s.dly = 0 :=
      ⟨hcalm.1, hcalm.2.1, rfl, hcalm.2.2.2⟩
    cases o with
    | detected =>
      simp only [Option.some.injEq, Prod.mk.injEq] at ht
      obtain ⟨rfl, rfl⟩ := ht
      refine h0.trans (leads_eng (e := .en3) (k := c :: k) hcalm' rfl rfl ?_)
      simp [stepAt, en3, stopDone, ret, hc, goto, confirmBoundary, emit, clr, hq]
    | missing =>
      simp only [Option.some.injEq, Prod.mk.injEq] at ht
      obtain ⟨rfl, rfl⟩ := ht
      refine h0.trans (leads_eng (e := .en3) (k := c :: k) hcalm' rfl rfl ?_)
      simp [stepAt, en3, stopDone, ret, hc, goto, raiseBusFailure, emit, clr, hq]
    | collided =>
      simp only [Option.some.injEq, Prod.mk.injEq] at ht
      obtain ⟨rfl, rfl⟩ := ht
      refine h0.trans (leads_eng (e := .en3) (k := c :: k) hcalm' rfl rfl ?_)
      simp [stepAt, en3, stopDone, ret, hc, goto, raiseBusFailure, emit, clr, hq]
  · simp at ht

/-! ## delay (R161) -/

/-- The ticks that fall while ENG waits at DL.1, with no activity pending. -/
theorem leads_ticks {n : Ticks} {k : List Entry} (m : Nat) {s : State} (hs : s.seq = .dl1 n :: k) (hb : s.busReady = false)
    (hm : s.dly.toNat = m) : Leads m s { s with dly := 0 } := by
  induction m generalizing s with
  | zero =>
    have h0 : s.dly = 0 := by apply BitVec.eq_of_toNat_eq; simpa using hm
    have : ({ s with dly := 0 } : State) = s := by rw [← h0]
    rw [this]; exact Leads.refl s
  | succ m ih =>
    have hd : s.dly ≠ 0 := by intro h; rw [h] at hm; simp at hm
    have h1 := leads_tmr (by simp [hs]) (by simp [State.held, hs]; exact hd) hb hd
    have ht : tick s = { s with dly := s.dly - 1 } := by simp only [tick, if_neg hd]
    rw [ht] at h1
    have h2 := ih (s := { s with dly := s.dly - 1 }) hs hb
      (by show (s.dly - 1).toNat = m
          rw [BitVec.toNat_sub_of_le (by rw [BitVec.le_def]; simp; omega), hm]; simp)
    rw [Nat.add_comm]
    exact h1.trans h2

/-- DL.0 to DL.2 (R161): the delay always returns. -/
theorem leads_delay {s : State} {n : Ticks} {c c' : Entry} {k : List Entry} (hs : s.seq = .dl0 n :: c :: k)
    (hcalm : Calm s) (hb : s.busReady = false) (hc : bindResult .unit c = some c') :
    Leads (n.toNat + 3) s { sumDelay n s with seq := c' :: k } := by
  have hcalm' : s.xbusy = false ∧ s.spend = false ∧ s.ppend = false ∧ (0 : Ticks) = 0 :=
    ⟨hcalm.1, hcalm.2.1, hcalm.2.2.1, rfl⟩
  have h0 := leads_eng hcalm hs (by simp [State.held, hs]) (t := { s with dly := n, seq := .dl1 n :: c :: k }) rfl
  have h1 := leads_ticks n.toNat (s := { s with dly := n, seq := .dl1 n :: c :: k }) rfl hb rfl
  have h2 := leads_eng (s := { s with dly := 0, seq := .dl1 n :: c :: k }) hcalm' rfl rfl rfl
  have h3 := leads_eng (s := { s with dly := 0, seq := .dl2 n :: c :: k }) hcalm' rfl rfl
    (t := { sumDelay n s with seq := c' :: k }) (by simp [stepAt, dl2, ret, hc, goto, emit, sumDelay])
  have := ((h0.trans h1).trans h2).trans h3
  rwa [show 1 + n.toNat + 1 + 1 = n.toNat + 3 by omega] at this

end Sys2Proof.Machine
end

