-- ==== Sys2Proof/Laws/Frames.lean ====
section
/-! SUPPORT. What the engine's summaries leave alone, and one lemma each for sendFrame, sendCommand and sendCharacter in the
form of Laws/Procedures.lean. -/

namespace Sys2Proof.Machine

/-! ## what the summaries leave alone -/

/-- Nothing is pending and no delay runs: where a procedure may begin (R139). -/
structure Quiet (s : State) : Prop where
  noByte : s.xbusy = false
  noReceive : s.rbusy = false
  noStart : s.spend = false
  noStop : s.ppend = false
  noDelay : s.dly = 0

theorem Ready.quiet {s : State} (h : Ready s) : Quiet s := ⟨h.noByte, h.noReceive, h.noStart, h.noStop, h.noDelay⟩

theorem Quiet.calm {s : State} (h : Quiet s) : Calm s := ⟨h.noByte, h.noStart, h.noStop, h.noDelay⟩

theorem Quiet.busReady {s : State} (h : Quiet s) : s.busReady = false := by
  simp [State.busReady, State.startReady, State.byteReady, State.stopReady, h.noByte, h.noStart, h.noStop]

/-- The fields the engine's procedures and the delay leave alone. -/
structure SameRest (s t : State) : Prop where
  en : t.en = s.en
  cfgSlew : t.cfgSlew = s.cfgSlew
  cfgMaster : t.cfgMaster = s.cfgMaster
  div : t.div = s.div
  xbusy : t.xbusy = s.xbusy
  rbusy : t.rbusy = s.rbusy
  spend : t.spend = s.spend
  ppend : t.ppend = s.ppend
  cwr : t.cwr = s.cwr
  rsp : t.rsp = s.rsp
  seq : t.seq = s.seq
  aok : t.aok = s.aok
  anack : t.anack = s.anack
  cfg : t.cfg = s.cfg
  cmds : t.env.cmds = s.env.cmds
  turns : t.env.turns = s.env.turns
  dly : s.dly = 0 → t.dly = 0
  freeCtr : t.freeCtr = s.freeCtr

/-- The same, with the encoder's registers as well. -/
structure SameEncoder (s t : State) : Prop extends SameRest s t where
  frame : t.frame = s.frame
  fidx : t.fidx = s.fidx
  fok : t.fok = s.fok
  fnack : t.fnack = s.fnack

theorem SameRest.trans {s t u : State} (h : SameRest s t) (h' : SameRest t u) : SameRest s u :=
  ⟨h'.en.trans h.en, h'.cfgSlew.trans h.cfgSlew, h'.cfgMaster.trans h.cfgMaster, h'.div.trans h.div, h'.xbusy.trans h.xbusy,
    h'.rbusy.trans h.rbusy, h'.spend.trans h.spend, h'.ppend.trans h.ppend, h'.cwr.trans h.cwr, h'.rsp.trans h.rsp,
    h'.seq.trans h.seq, h'.aok.trans h.aok, h'.anack.trans h.anack, h'.cfg.trans h.cfg, h'.cmds.trans h.cmds,
    h'.turns.trans h.turns, h'.dly ∘ h.dly, h'.freeCtr.trans h.freeCtr⟩

theorem SameRest.quiet {s t : State} (h : SameRest s t) (hq : Quiet s) : Quiet t :=
  ⟨h.xbusy.trans hq.noByte, h.rbusy.trans hq.noReceive, h.spend.trans hq.noStart, h.ppend.trans hq.noStop,
    h.dly hq.noDelay⟩

theorem sumByte_same {v : Byte} {s t : State} (h : sumByte v s = some t) : SameEncoder s t := by
  unfold sumByte at h
  split at h
  · split at h
    · simp only [Option.some.injEq] at h
      subst h
      constructor <;> first | rfl | (constructor <;> first | rfl | exact id)
    · simp at h
  · simp at h

theorem sumBegin_same {a : Byte} {s t : State} {ok : Bool} (h : sumBegin a s = some (t, ok)) : SameEncoder s t := by
  unfold sumBegin at h
  split at h
  · rename_i o os _ _
    cases o with
    | missing =>
      simp only [Option.some.injEq, Prod.mk.injEq] at h
      obtain ⟨rfl, rfl⟩ := h
      constructor <;> first | rfl | (constructor <;> first | rfl | exact id)
    | collided =>
      simp only [Option.some.injEq, Prod.mk.injEq] at h
      obtain ⟨rfl, rfl⟩ := h
      constructor <;> first | rfl | (constructor <;> first | rfl | exact id)
    | detected =>
      simp only at h
      split at h
      · rename_i u hu
        simp only [Option.some.injEq, Prod.mk.injEq] at h
        obtain ⟨rfl, rfl⟩ := h
        obtain ⟨⟨h1, h2, h3, h4, h5, h6, h7, h8, h9, h10, h11, h12, h13, h14, h15, h16, h17, h18⟩, g1, g2, g3, g4⟩ := sumByte_same hu
        exact ⟨⟨h1, h2, h3, h4, h5, h6, h7, h8, h9, h10, h11, h12, h13, h14, h15, h16, h17, h18⟩, g1, g2, g3, g4⟩
      · simp at h
  · simp at h

theorem sumEnd_same {s t : State} {ok : Bool} (h : sumEnd s = some (t, ok)) : SameEncoder s t := by
  unfold sumEnd at h
  split at h
  · rename_i o os _ _
    cases o <;>
    · simp only [Option.some.injEq, Prod.mk.injEq] at h
      obtain ⟨rfl, rfl⟩ := h
      constructor <;> first | rfl | (constructor <;> first | rfl | exact id)
  · simp at h

theorem sumBytes_same {vs : List Byte} {s t : State} (h : sumBytes vs s = some t) : SameRest s t ∧ t.frame = s.frame := by
  induction vs generalizing s with
  | nil =>
    simp only [sumBytes, Option.some.injEq] at h
    subst h
    exact ⟨by constructor <;> first | rfl | exact id, rfl⟩
  | cons v vs ih =>
    simp only [sumBytes] at h
    split at h
    · rename_i u hu
      obtain ⟨h1, h2⟩ := ih h
      obtain ⟨hu', gf, _, _, _⟩ := sumByte_same hu
      refine ⟨hu'.trans (SameRest.trans ?_ h1), h2.trans gf⟩
      constructor <;> first | rfl | exact fun _ => rfl
    · simp at h

/-! ## no summary reads `SEQ` -/

/-- The state with another stack. -/
def placed (q : List Entry) (s : State) : State := { s with seq := q }

theorem sumByte_placed (v : Byte) (q : List Entry) (s : State) : sumByte v (placed q s) = (sumByte v s).map (placed q) := by
  obtain ⟨en, _, _, _, _, _, _, _, _, _, _, _, _, _, _, _, _, _, _, _, _, _, _, _, _, _, _, _, _, ⟨_, _, bytes, _, _⟩, _⟩ := s
  cases en <;> cases bytes with
  | nil => rfl
  | cons o os => first | rfl | (simp only [sumByte, placed]; split <;> rfl)

theorem sumBegin_placed (a : Byte) (q : List Entry) (s : State) :
    sumBegin a (placed q s) = (sumBegin a s).map fun r => (placed q r.1, r.2) := by
  obtain ⟨en, _, _, _, _, _, _, _, _, _, _, _, _, _, _, _, _, _, _, _, _, _, _, _, _, _, _, _, _, ⟨_, starts, bytes, _, _⟩, _⟩ := s
  cases en <;> cases starts with
  | nil => rfl
  | cons o os =>
    first
      | rfl
      | (cases o with
         | missing => rfl
         | collided => rfl
         | detected =>
           cases bytes with
           | nil => rfl
           | cons b bs => cases h : b.returns <;> simp [sumBegin, sumByte, placed, h, clr, byteEffect])

theorem sumEnd_placed (q : List Entry) (s : State) :
    sumEnd (placed q s) = (sumEnd s).map fun r => (placed q r.1, r.2) := by
  obtain ⟨en, _, _, _, _, _, _, _, _, _, _, _, _, _, _, _, _, _, _, _, _, _, _, _, _, _, _, _, _, ⟨_, _, _, stops, _⟩, _⟩ := s
  cases en <;> cases stops with
  | nil => rfl
  | cons o os => first | rfl | (cases o <;> rfl)

theorem sumBytes_placed (vs : List Byte) (q : List Entry) (s : State) :
    sumBytes vs (placed q s) = (sumBytes vs s).map (placed q) := by
  induction vs generalizing s with
  | nil => rfl
  | cons v vs ih =>
    simp only [sumBytes, sumByte_placed]
    cases sumByte v s with
    | none => rfl
    | some u => exact ih { sumDelay u.cfg.nStrobe { u with fnack := u.fnack || u.ackstat } with fidx := u.fidx + 1 }

/-! ## the byte loop, SF.3 to SF.5 (R162) -/

/-- The frame's elements as `FIDX` reads them. -/
theorem frame_get {f : Frame} {i : BitVec 3} {v : Byte} {vs : List Byte} (h : f.bytes.drop i.toNat = v :: vs) :
    f.get? i = some v ∧ i ≠ 4 ∧ f.bytes.drop (i + 1).toNat = vs := by
  have hi : i.toNat < 4 := by
    rcases Nat.lt_or_ge i.toNat 4 with h' | h'
    · exact h'
    · rw [List.drop_eq_nil_of_le (by simpa [Frame.bytes] using h')] at h; simp at h
  have h4 : i ≠ 4 := by rintro rfl; simp at hi
  have hs : (i + 1).toNat = i.toNat + 1 := by rw [BitVec.toNat_add]; simp; omega
  refine ⟨?_, h4, ?_⟩
  · unfold Frame.get?
    rcases (by omega : i.toNat = 0 ∨ i.toNat = 1 ∨ i.toNat = 2 ∨ i.toNat = 3) with h0 | h0 | h0 | h0 <;>
      rw [h0] at h ⊢ <;> simp [Frame.bytes] at h ⊢ <;> exact h.1
  · rw [hs]
    rcases (by omega : i.toNat = 0 ∨ i.toNat = 1 ∨ i.toNat = 2 ∨ i.toNat = 3) with h0 | h0 | h0 | h0 <;>
      rw [h0] at h ⊢ <;> simp [Frame.bytes] at h ⊢ <;> exact h.2

/-- The loop sends what is left of the frame where the summary returns. -/
theorem leads_frameBytes {vs : List Byte} {s t : State} {k : List Entry} (hs : s.seq = .sf3 :: k) (hq : Quiet s)
    (hf : s.frame.bytes.drop s.fidx.toNat = vs) (hi : s.fidx.toNat + vs.length = 4) (ht : sumBytes vs s = some t) :
    Leads (vs.length * (s.cfg.nStrobe.toNat + 16) + 1) s { t with seq := .sf6 :: k } := by
  induction vs generalizing s with
  | nil =>
    simp only [sumBytes, Option.some.injEq] at ht
    subst ht
    have h4 : s.fidx = 4 := by apply BitVec.eq_of_toNat_eq; simpa using hi
    simpa using leads_eng hq.calm hs (by simp [State.held, hs]) (t := { s with seq := .sf6 :: k })
      (by simp [stepAt, sf3, h4, goto])
  | cons v vs ih =>
    simp only [sumBytes] at ht
    split at ht
    · rename_i u hu
      obtain ⟨hget, hne, hdrop⟩ := frame_get hf
      have hsame := sumByte_same hu
      have hqu := hsame.toSameRest.quiet hq
      -- SF.3
      have h0 := leads_eng hq.calm hs (by simp [State.held, hs]) (t := { s with seq := .wr0 v :: .sf4 none :: k })
        (by simp only [stepAt, sf3, if_neg hne, hget, call])
      -- writeByte
      have h1 : Leads 10 { s with seq := .wr0 v :: .sf4 none :: k } { u with seq := .sf4 (some u.ackstat) :: k } := by
        unfold sumByte at hu
        split at hu
        · rename_i o os he hb
          split at hu
          · rename_i hret
            simp only [Option.some.injEq] at hu
            subst hu
            exact leads_writeByte (s := { s with seq := .wr0 v :: .sf4 none :: k }) (c := .sf4 none)
              (c' := .sf4 (some o.nack)) rfl hq.calm hq.noByte hq.noReceive hq.noStart hq.noStop he hb hret rfl
          · simp at hu
        · simp at hu
      -- SF.4
      have h2 := leads_eng (s := { u with seq := .sf4 (some u.ackstat) :: k }) hqu.calm rfl rfl
        (t := { u with fnack := u.fnack || u.ackstat, seq := .dl0 u.cfg.nStrobe :: .sf5 :: k }) rfl
      -- delay
      have h3 := leads_delay (s := { u with fnack := u.fnack || u.ackstat, seq := .dl0 u.cfg.nStrobe :: .sf5 :: k })
        (c := .sf5) (c' := .sf5) rfl hqu.calm hqu.busReady rfl
      -- SF.5
      have h4 := leads_eng
        (s := { sumDelay u.cfg.nStrobe { u with fnack := u.fnack || u.ackstat } with seq := .sf5 :: k })
        ⟨hqu.noByte, hqu.noStart, hqu.noStop, rfl⟩ rfl rfl
        (t := { sumDelay u.cfg.nStrobe { u with fnack := u.fnack || u.ackstat } with fidx := u.fidx + 1, seq := .sf3 :: k })
        rfl
      have h5 := ih (s := { sumDelay u.cfg.nStrobe { u with fnack := u.fnack || u.ackstat } with
          fidx := u.fidx + 1, seq := .sf3 :: k }) rfl
        ⟨hqu.noByte, hqu.noReceive, hqu.noStart, hqu.noStop, rfl⟩
        (by show u.frame.bytes.drop (u.fidx + 1).toNat = vs
            rw [hsame.frame, hsame.fidx]; exact hdrop)
        (by show (u.fidx + 1).toNat + vs.length = 4
            rw [hsame.fidx, BitVec.toNat_add]
            simp only [List.length_cons] at hi
            have : (1 : BitVec 3).toNat = 1 := rfl
            rw [this, Nat.mod_eq_of_lt (by omega)]; omega)
        (by rw [show ({ sumDelay u.cfg.nStrobe { u with fnack := u.fnack || u.ackstat } with
                  fidx := u.fidx + 1, seq := .sf3 :: k } : State) =
                { sumDelay u.cfg.nStrobe { u with fnack := u.fnack || u.ackstat } with fidx := u.fidx + 1 } by
              have := hsame.seq.trans hs
              simp [sumDelay, this]]
            exact ht)
      have hcfg : u.cfg = s.cfg := hsame.cfg
      have := ((((h0.trans h1).trans h2).trans h3).trans h4).trans h5
      have hn : 1 + 10 + 1 + (u.cfg.nStrobe.toNat + 3) + 1 + (vs.length * (u.cfg.nStrobe.toNat + 16) + 1) =
          (v :: vs).length * (s.cfg.nStrobe.toNat + 16) + 1 := by
        rw [hcfg, List.length_cons, Nat.add_mul]; omega
      rw [← hn]
      exact this
    · simp at ht

/-! ## sendFrame (R162) -/

/-- SF.2 to SF.7, after a beginTransaction that returned: the part of `sumFrame` after `sumBegin`. -/
def sumFrameRest (ok : Bool) (s : State) : Option (State × Bool × Bool) :=
  if !ok && s.cfg.encCheckStart then some ({ s with fok := false }, false, false)
  else
    match sumBytes [s.frame.f0, s.frame.f1, s.frame.f2, s.frame.f3] { s with fok := ok, fnack := ok && s.ackstat } with
    | some s =>
      match sumEnd s with
      | some (s, ok2) => some ({ s with fok := s.fok && ok2 }, s.fok && ok2, s.fnack)
      | none => none
    | none => none

theorem sumFrame_eq (s : State) :
    sumFrame s = (sumBegin s.cfg.expAddrByte { clr s with fnack := false, fidx := 0 }).bind fun r => sumFrameRest r.2 r.1 := by
  unfold sumFrame
  cases sumBegin s.cfg.expAddrByte { clr s with fnack := false, fidx := 0 } with
  | none => rfl
  | some r => rfl

theorem sumFrameRest_placed (r : Bool) (q : List Entry) (s : State) :
    sumFrameRest r (placed q s) = (sumFrameRest r s).map fun x => (placed q x.1, x.2) := by
  unfold sumFrameRest
  by_cases hg : (!r && s.cfg.encCheckStart) = true
  · rw [if_pos hg, if_pos (show (!r && (placed q s).cfg.encCheckStart) = true from hg)]; rfl
  · rw [if_neg hg, if_neg (show ¬(!r && (placed q s).cfg.encCheckStart) = true from hg)]
    have h : ({ placed q s with fok := r, fnack := r && (placed q s).ackstat } : State) =
        placed q { s with fok := r, fnack := r && s.ackstat } := rfl
    rw [h, sumBytes_placed, show (placed q s).frame = s.frame from rfl]
    cases sumBytes [s.frame.f0, s.frame.f1, s.frame.f2, s.frame.f3] { s with fok := r, fnack := r && s.ackstat } with
    | none => rfl
    | some w =>
      simp only [Option.map_some]
      rw [sumEnd_placed]
      cases sumEnd w with
      | none => rfl
      | some x => rfl

theorem sumFrame_placed (q : List Entry) (s : State) :
    sumFrame (placed q s) = (sumFrame s).map fun r => (placed q r.1, r.2) := by
  rw [sumFrame_eq, sumFrame_eq, show ({ clr (placed q s) with fnack := false, fidx := 0 } : State) =
    placed q { clr s with fnack := false, fidx := 0 } from rfl, sumBegin_placed, show (placed q s).cfg = s.cfg from rfl]
  cases sumBegin s.cfg.expAddrByte { clr s with fnack := false, fidx := 0 } with
  | none => rfl
  | some r => exact sumFrameRest_placed r.2 q r.1

theorem leads_frameRest {s t : State} {r ok nack : Bool} {c c' : Entry} {k : List Entry}
    (hs : s.seq = .sf2 (some r) :: c :: k) (hq : Quiet s) (hi : s.fidx = 0) (hf : r = false → s.fnack = false)
    (ht : sumFrameRest r s = some (t, ok, nack)) (hc : bindResult (.pair ok nack) c = some c') :
    ∃ n, n ≤ 77 + 4 * s.cfg.nStrobe.toNat ∧ Leads n s { t with seq := c' :: k } := by
  unfold sumFrameRest at ht
  split at ht
  · rename_i hg
    simp only [Bool.and_eq_true, Bool.not_eq_true'] at hg
    obtain ⟨rfl, hck⟩ := hg
    simp only [Option.some.injEq, Prod.mk.injEq] at ht
    obtain ⟨rfl, rfl, rfl⟩ := ht
    refine ⟨1, by omega, leads_eng hq.calm hs (by simp [State.held, hs]) ?_⟩
    simp [stepAt, sf2, withBound, hck, ret, hc, goto]
  · rename_i hg
    -- SF.2
    have h0 := leads_eng hq.calm hs (by simp [State.held, hs])
      (t := { s with fok := r, fnack := r && s.ackstat, seq := .sf3 :: c :: k }) (by
        cases r with
        | true => simp [stepAt, sf2, withBound, goto]
        | false =>
          simp only [Bool.not_false, Bool.true_and, Bool.not_eq_true] at hg
          have := hf rfl
          simp [stepAt, sf2, withBound, goto, hg, this])
    split at ht
    · rename_i u hu
      split at ht
      · rename_i w ok2 hw
        simp only [Option.some.injEq, Prod.mk.injEq] at ht
        obtain ⟨rfl, rfl, rfl⟩ := ht
        have hu' : sumBytes [s.frame.f0, s.frame.f1, s.frame.f2, s.frame.f3]
            (placed (.sf3 :: c :: k) { s with fok := r, fnack := r && s.ackstat }) = some (placed (.sf3 :: c :: k) u) := by
          rw [sumBytes_placed, hu]; rfl
        have hqs : Quiet (placed (.sf3 :: c :: k) { s with fok := r, fnack := r && s.ackstat }) :=
          ⟨hq.noByte, hq.noReceive, hq.noStart, hq.noStop, hq.noDelay⟩
        have h1 := leads_frameBytes (s := placed (.sf3 :: c :: k) { s with fok := r, fnack := r && s.ackstat }) rfl hqs
          (by show s.frame.bytes.drop s.fidx.toNat = _
              rw [hi]; rfl)
          (by show s.fidx.toNat + _ = 4
              rw [hi]; rfl) hu'
        have hqu : Quiet u := (sumBytes_same hu).1.quiet ⟨hq.noByte, hq.noReceive, hq.noStart, hq.noStop, hq.noDelay⟩
        have h2 := leads_eng (s := { u with seq := .sf6 :: c :: k }) hqu.calm rfl rfl
          (t := { u with seq := .en0 :: .sf7 none :: c :: k }) rfl
        have hw' : sumEnd (placed (.en0 :: .sf7 none :: c :: k) u) =
            some (placed (.en0 :: .sf7 none :: c :: k) w, ok2) := by
          rw [sumEnd_placed, hw]; rfl
        have h3 := leads_end (s := placed (.en0 :: .sf7 none :: c :: k) u) (c := .sf7 none) (c' := .sf7 (some ok2)) rfl
          hqu.calm hqu.noByte hqu.noReceive hqu.noStart hqu.noStop hw' rfl
        have hqw : Quiet w := (sumEnd_same hw).toSameRest.quiet hqu
        have h4 := leads_eng (s := { w with seq := .sf7 (some ok2) :: c :: k }) hqw.calm rfl rfl
          (t := { w with fok := w.fok && ok2, seq := c' :: k })
          (by simp [stepAt, sf7, withBound, ret, hc, goto])
        refine ⟨_, ?_, (((h0.trans h1).trans h2).trans h3).trans h4⟩
        show 1 + (4 * (s.cfg.nStrobe.toNat + 16) + 1) + 1 + 9 + 1 ≤ _
        omega
      · simp at ht
    · simp at ht

/-- sendFrame where the summary returns (R162, R165). -/
theorem leads_sendFrame {s t : State} {ok nack : Bool} {c c' : Entry} {k : List Entry} (hs : s.seq = .sf0 :: c :: k)
    (hq : Quiet s) (ht : sumFrame s = some (t, ok, nack)) (hc : bindResult (.pair ok nack) c = some c') :
    ∃ n, n ≤ 104 + 4 * s.cfg.nStrobe.toNat ∧ Leads n s { t with seq := c' :: k } := by
  rw [sumFrame_eq] at ht
  obtain ⟨⟨u, r⟩, hu, ht⟩ := Option.bind_eq_some_iff.mp ht
  -- SF.0, waitReady
  have h0 := leads_eng hq.calm hs (by simp [State.held, hs]) (t := { s with seq := .wt0 :: .sf1 :: c :: k }) rfl
  have h1 := leads_waitReady (s := { s with seq := .wt0 :: .sf1 :: c :: k }) (c := .sf1) (c' := .sf1) rfl hq.calm
    hq.noByte hq.noReceive rfl
  -- SF.1, beginTransaction
  have h2 := leads_eng (s := { clr s with seq := .sf1 :: c :: k }) hq.calm rfl rfl
    (t := { clr s with fnack := false, fidx := 0, seq := .bg0 s.cfg.expAddrByte :: .sf2 none :: c :: k }) rfl
  have hu' : sumBegin s.cfg.expAddrByte
      (placed (.bg0 s.cfg.expAddrByte :: .sf2 none :: c :: k) { clr s with fnack := false, fidx := 0 }) =
      some (placed (.bg0 s.cfg.expAddrByte :: .sf2 none :: c :: k) u, r) := by
    rw [sumBegin_placed, hu]; rfl
  obtain ⟨n, hn, h3⟩ := leads_begin
    (s := placed (.bg0 s.cfg.expAddrByte :: .sf2 none :: c :: k) { clr s with fnack := false, fidx := 0 })
    (c := .sf2 none) (c' := .sf2 (some r)) rfl hq.calm hq.noByte hq.noReceive hq.noStart hq.noStop hu' rfl
  have hsame := sumBegin_same hu
  have hqu : Quiet u := hsame.toSameRest.quiet ⟨hq.noByte, hq.noReceive, hq.noStart, hq.noStop, hq.noDelay⟩
  -- SF.2 to SF.7
  have ht' : sumFrameRest r (placed (.sf2 (some r) :: c :: k) u) = some (placed (.sf2 (some r) :: c :: k) t, ok, nack) := by
    have := sumFrameRest_placed r (.sf2 (some r) :: c :: k) u
    simp only at ht
    rw [this, ht]; rfl
  obtain ⟨m, hm, h4⟩ := leads_frameRest (s := placed (.sf2 (some r) :: c :: k) u) rfl
    ⟨hqu.noByte, hqu.noReceive, hqu.noStart, hqu.noStop, hqu.noDelay⟩ hsame.fidx (fun _ => hsame.fnack) ht' hc
  refine ⟨_, ?_, (((h0.trans h1).trans h2).trans h3).trans h4⟩
  have hcfg : (placed (.sf2 (some r) :: c :: k) u).cfg = s.cfg := hsame.cfg
  rw [hcfg] at hm
  omega

theorem sumFrame_same {s t : State} {r : Bool × Bool} (h : sumFrame s = some (t, r)) : SameRest s t ∧ t.frame = s.frame := by
  rw [sumFrame_eq] at h
  obtain ⟨⟨u, b⟩, hu, h⟩ := Option.bind_eq_some_iff.mp h
  have h1 := sumBegin_same hu
  have h1' : SameRest s u := SameRest.trans (t := { clr s with fnack := false, fidx := 0 }) (by constructor <;> first | rfl | exact id) h1.toSameRest
  have hf : u.frame = s.frame := h1.frame
  unfold sumFrameRest at h
  split at h
  · simp only [Option.some.injEq, Prod.mk.injEq] at h
    obtain ⟨rfl, -⟩ := h
    exact ⟨h1'.trans (by constructor <;> first | rfl | exact id), hf⟩
  · split at h
    · rename_i w hw
      split at h
      · rename_i x ok2 hx
        simp only [Option.some.injEq, Prod.mk.injEq] at h
        obtain ⟨rfl, -⟩ := h
        have h2 := sumBytes_same hw
        have h3 := sumEnd_same hx
        refine ⟨((h1'.trans (SameRest.trans (by constructor <;> first | rfl | exact id) h2.1)).trans h3.toSameRest).trans (by constructor <;> first | rfl | exact id), ?_⟩
        exact h3.frame.trans (h2.2.trans hf)
      · simp at h
    · simp at h

/-! ## sendCommand and sendCharacter (R163, R164) -/

theorem sumSend_placed (v : Byte) (rs : Bool) (q : List Entry) (s : State) :
    sumSend v rs (placed q s) = (sumSend v rs s).map fun r => (placed q r.1, r.2) :=
  sumFrame_placed q { s with frame := encodeFrame v rs }

theorem sumSend_same {v : Byte} {rs : Bool} {s t : State} {r : Bool × Bool} (h : sumSend v rs s = some (t, r)) :
    SameRest s t :=
  SameRest.trans (t := { s with frame := encodeFrame v rs }) (by constructor <;> first | rfl | exact id) (sumFrame_same h).1

/-- sendCommand where the summary returns. -/
theorem leads_sendCommand {s t : State} {v : Byte} {ok nack : Bool} {c c' : Entry} {k : List Entry}
    (hs : s.seq = .sc0 v :: c :: k) (hq : Quiet s) (ht : sumSend v false s = some (t, ok, nack))
    (hc : bindResult (.pair ok nack) c = some c') :
    ∃ n, n ≤ 107 + 4 * s.cfg.nStrobe.toNat ∧ Leads n s { t with seq := c' :: k } := by
  have h0 := leads_eng hq.calm hs (by simp [State.held, hs])
    (t := { s with frame := encodeFrame v false, seq := .sc1 :: c :: k }) rfl
  have h1 := leads_eng (s := { s with frame := encodeFrame v false, seq := .sc1 :: c :: k }) hq.calm rfl rfl
    (t := { s with frame := encodeFrame v false, seq := .sf0 :: .sc2 none :: c :: k }) rfl
  have ht' : sumFrame (placed (.sf0 :: .sc2 none :: c :: k) { s with frame := encodeFrame v false }) =
      some (placed (.sf0 :: .sc2 none :: c :: k) t, ok, nack) := by
    rw [sumFrame_placed, show sumFrame { s with frame := encodeFrame v false } = _ from ht]; rfl
  obtain ⟨n, hn, h2⟩ := leads_sendFrame (s := placed (.sf0 :: .sc2 none :: c :: k) { s with frame := encodeFrame v false })
    (c := .sc2 none) (c' := .sc2 (some (ok, nack))) rfl
    ⟨hq.noByte, hq.noReceive, hq.noStart, hq.noStop, hq.noDelay⟩ ht' rfl
  have h3 := leads_eng (s := { t with seq := .sc2 (some (ok, nack)) :: c :: k }) ((sumSend_same ht).quiet hq).calm rfl rfl
    (t := { t with seq := c' :: k }) (by simp [stepAt, sc2, withBound, ret, hc, goto])
  refine ⟨_, ?_, ((h0.trans h1).trans h2).trans h3⟩
  have : n ≤ 104 + 4 * s.cfg.nStrobe.toNat := hn
  omega

/-- sendCharacter where the summary returns. -/
theorem leads_sendCharacter {s t : State} {v : Byte} {ok nack : Bool} {c c' : Entry} {k : List Entry}
    (hs : s.seq = .sd0 v :: c :: k) (hq : Quiet s) (ht : sumSend v true s = some (t, ok, nack))
    (hc : bindResult (.pair ok nack) c = some c') :
    ∃ n, n ≤ 107 + 4 * s.cfg.nStrobe.toNat ∧ Leads n s { t with seq := c' :: k } := by
  have h0 := leads_eng hq.calm hs (by simp [State.held, hs])
    (t := { s with frame := encodeFrame v true, seq := .sd1 :: c :: k }) rfl
  have h1 := leads_eng (s := { s with frame := encodeFrame v true, seq := .sd1 :: c :: k }) hq.calm rfl rfl
    (t := { s with frame := encodeFrame v true, seq := .sf0 :: .sd2 none :: c :: k }) rfl
  have ht' : sumFrame (placed (.sf0 :: .sd2 none :: c :: k) { s with frame := encodeFrame v true }) =
      some (placed (.sf0 :: .sd2 none :: c :: k) t, ok, nack) := by
    rw [sumFrame_placed, show sumFrame { s with frame := encodeFrame v true } = _ from ht]; rfl
  obtain ⟨n, hn, h2⟩ := leads_sendFrame (s := placed (.sf0 :: .sd2 none :: c :: k) { s with frame := encodeFrame v true })
    (c := .sd2 none) (c' := .sd2 (some (ok, nack))) rfl
    ⟨hq.noByte, hq.noReceive, hq.noStart, hq.noStop, hq.noDelay⟩ ht' rfl
  have h3 := leads_eng (s := { t with seq := .sd2 (some (ok, nack)) :: c :: k }) ((sumSend_same ht).quiet hq).calm rfl rfl
    (t := { t with seq := c' :: k }) (by simp [stepAt, sd2, withBound, ret, hc, goto])
  refine ⟨_, ?_, ((h0.trans h1).trans h2).trans h3⟩
  have : n ≤ 104 + 4 * s.cfg.nStrobe.toNat := hn
  omega

end Sys2Proof.Machine
end

