-- ==== Sys2Proof/Laws/PerInstr.lean ====
section
/-! SUPPORT. Statements made per command. `WordRoundTrip`: the decoder reads a command back from its word, with every operand
and every unassigned bit. -/

namespace Sys2Proof.Laws.WordRoundTrip

open Sys2Proof

/-- The word of `i` decodes to `i` (30_encoding.md R100 to R105). -/
def Statement (i : Instr) : Prop := decodeWord (encode i) = i

theorem init (u : BitVec 32) : Statement (.init u) := by
  simp [Statement, decodeWord, Instr.opcode, Instr.arg]

theorem waitReady (u : BitVec 32) : Statement (.waitReady u) := by
  simp [Statement, decodeWord, Instr.opcode, Instr.arg]

theorem beginTx (a : Byte) (u : BitVec 24) : Statement (.beginTx a u) := by
  have h : rest24 (encode (.beginTx a u)) = u := by rw [rest24_encode]; exact high24_of_8 u _
  simp [Statement, decodeWord, Instr.opcode, h]

theorem write (v : Byte) (u : BitVec 24) : Statement (.write v u) := by
  have h : rest24 (encode (.write v u)) = u := by rw [rest24_encode]; exact high24_of_8 u _
  simp [Statement, decodeWord, Instr.opcode, h]

theorem endTx (u : BitVec 32) : Statement (.endTx u) := by
  simp [Statement, decodeWord, Instr.opcode, Instr.arg]

theorem sendFrame (f0 f1 f2 f3 : Byte) : Statement (.sendFrame f0 f1 f2 f3) := by
  simp [Statement, decodeWord, Instr.opcode]

theorem sendCmd (v : Byte) (u : BitVec 24) : Statement (.sendCmd v u) := by
  have h : rest24 (encode (.sendCmd v u)) = u := by rw [rest24_encode]; exact high24_of_8 u _
  simp [Statement, decodeWord, Instr.opcode, h]

theorem sendChar (v : Byte) (u : BitVec 24) : Statement (.sendChar v u) := by
  have h : rest24 (encode (.sendChar v u)) = u := by rw [rest24_encode]; exact high24_of_8 u _
  simp [Statement, decodeWord, Instr.opcode, h]

theorem initDisplay (u : BitVec 32) : Statement (.initDisplay u) := by
  simp [Statement, decodeWord, Instr.opcode, Instr.arg]

theorem clear (u : BitVec 32) : Statement (.clear u) := by
  simp [Statement, decodeWord, Instr.opcode, Instr.arg]

theorem setCursor (row : BitVec 1) (col : Byte) (u : BitVec 23) : Statement (.setCursor row col u) := by
  simp [Statement, decodeWord, Instr.opcode]

theorem reservedB (u : BitVec 32) : Statement (.reservedB u) := by
  simp [Statement, decodeWord, Instr.opcode, Instr.arg]

theorem reservedC (u : BitVec 32) : Statement (.reservedC u) := by
  simp [Statement, decodeWord, Instr.opcode, Instr.arg]

theorem reservedD (u : BitVec 32) : Statement (.reservedD u) := by
  simp [Statement, decodeWord, Instr.opcode, Instr.arg]

theorem reservedE (u : BitVec 32) : Statement (.reservedE u) := by
  simp [Statement, decodeWord, Instr.opcode, Instr.arg]

theorem reservedF (u : BitVec 32) : Statement (.reservedF u) := by
  simp [Statement, decodeWord, Instr.opcode, Instr.arg]

end Sys2Proof.Laws.WordRoundTrip
end

