-- ==== Sys2Proof/Laws/Summaries.lean ====
section
/-! SUPPORT. The summaries of a frame computed for given draws: a frame whose start is detected, and one that gives up; and the
loop of INIT_DISPLAY over them. -/

namespace Sys2Proof.Machine

/-! ## the fields of `frameSent` and `frameFailed` -/

section
variable (f : Frame) (b : Answers) (o : CondOutcome) (s : State)

@[simp] theorem frameSent_en : (frameSent f b o s).en = s.en := rfl
@[simp] theorem frameSent_xbusy : (frameSent f b o s).xbusy = s.xbusy := rfl
@[simp] theorem frameSent_rbusy : (frameSent f b o s).rbusy = s.rbusy := rfl
@[simp] theorem frameSent_spend : (frameSent f b o s).spend = s.spend := rfl
@[simp] theorem frameSent_ppend : (frameSent f b o s).ppend = s.ppend := rfl
@[simp] theorem frameSent_err : (frameSent f b o s).err = (o != .detected) := rfl
@[simp] theorem frameSent_seq : (frameSent f b o s).seq = s.seq := rfl
@[simp] theorem frameSent_aok : (frameSent f b o s).aok = s.aok := rfl
@[simp] theorem frameSent_anack : (frameSent f b o s).anack = s.anack := rfl
@[simp] theorem frameSent_cfg : (frameSent f b o s).cfg = s.cfg := rfl
@[simp] theorem frameSent_trace : (frameSent f b o s).trace = s.trace ++ frameEvents s.cfg f b o := rfl
@[simp] theorem frameSent_starts : (frameSent f b o s).env.starts = s.env.starts.tail := rfl
@[simp] theorem frameSent_bytes : (frameSent f b o s).env.bytes = s.env.bytes.drop 5 := rfl
@[simp] theorem frameSent_stops : (frameSent f b o s).env.stops = s.env.stops.tail := rfl
@[simp] theorem frameSent_turns : (frameSent f b o s).env.turns = s.env.turns := rfl

@[simp] theorem frameFailed_en : (frameFailed f o s).en = s.en := rfl
@[simp] theorem frameFailed_cfg : (frameFailed f o s).cfg = s.cfg := rfl
@[simp] theorem frameFailed_trace : (frameFailed f o s).trace = s.trace ++ failEvents o := rfl
@[simp] theorem frameFailed_starts : (frameFailed f o s).env.starts = s.env.starts.tail := rfl

end

/-! ## one frame -/

/-- sendFrame whose start is detected and whose bytes all return. -/
theorem sumFrame_sent (f : Frame) {b : Answers} {o : CondOutcome} {s : State} (he : s.en = true) (hd : FrameDraws b o s) :
    sumFrame { s with frame := f } = some (frameSent f b o s, o == .detected, b.nack) := by
  obtain ⟨⟨os, h1⟩, ⟨bs, h2⟩, ⟨ps, h3⟩, h4⟩ := hd
  simp only [Answers.allReturn, Bool.and_eq_true] at h4
  obtain ⟨⟨⟨⟨g0, g1⟩, g2⟩, g3⟩, g4⟩ := h4
  simp only [Answers.draws, List.cons_append, List.nil_append] at h2
  simp [sumFrame, sumBegin, sumByte, clr, he, h1, h2, h3, g0, g1, g2, g3, g4, byteEffect, sumBytes, sumDelay, sumEnd]
  cases o <;> simp [frameSent, frameEvents, stopEvents, Answers.nack, h1, h2, h3, he]

/-- sendFrame whose start is not confirmed, with `ENC_CHECK_START`. -/
theorem sumFrame_failed (f : Frame) {o : CondOutcome} {os : List CondOutcome} {s : State} (he : s.en = true)
    (hc : s.cfg.encCheckStart = true) (hs : s.env.starts = o :: os) (ho : o ≠ .detected) :
    sumFrame { s with frame := f } = some (frameFailed f o s, false, false) := by
  cases o <;> simp_all [sumFrame, sumBegin, clr, frameFailed, failEvents]

/-! ## a frame on a well-behaved bus -/

/-- Five acknowledged bytes. -/
def Answers.acked : Answers := ⟨.acked, .acked, .acked, .acked, .acked⟩

@[simp] theorem Answers.acked_nack : Answers.acked.nack = false := rfl

/-- `WellBehaved` of a sequence is `WellBehaved` of its draws, one by one. -/
theorem wellBehaved_cons (A : List Byte) (d : Draw) (ds : List Draw) :
    wellBehaved A (d :: ds) = true ↔ wellBehaved A [d] = true ∧ wellBehaved A ds = true := by
  simp only [wellBehaved, responsive, noCollision, startsOk, stopsOk, peerAcks, List.all_cons, List.all_nil, Bool.and_eq_true]
  tauto

/-- A start on a well-behaved bus. -/
theorem wellBehaved_start {A : List Byte} {a : Byte} {n : Nat} {as : List Ask} {b : Option Byte} {e : Env}
    (h : wellBehaved A (drawsOf (.start a n :: as) 0 true b e) = true) :
    ∃ os, e.starts = .detected :: os ∧ wellBehaved A (drawsOf as 0 true (some a) { e with starts := os }) = true := by
  simp only [drawsOf] at h
  split at h
  · rename_i o os _ he
    rw [wellBehaved_cons] at h
    obtain ⟨h1, h2⟩ := h
    cases o with
    | detected => exact ⟨os, he, h2⟩
    | missing => exact absurd h1 (by simp [wellBehaved, startsOk])
    | collided => exact absurd h1 (by simp [wellBehaved, startsOk])
  · exact absurd h (by simp [wellBehaved, responsive])

/-- A byte of a transaction with a peer in `A`, on a well-behaved bus. -/
theorem wellBehaved_byte {A : List Byte} {a : Byte} (ha : a ∈ A) {as : List Ask} {e : Env}
    (h : wellBehaved A (drawsOf (.byte :: as) 0 true (some a) e) = true) :
    ∃ os, e.bytes = .acked :: os ∧ wellBehaved A (drawsOf as 0 true (some a) { e with bytes := os }) = true := by
  simp only [drawsOf] at h
  split at h
  · rename_i o os _ he
    rw [wellBehaved_cons] at h
    obtain ⟨h1, h2⟩ := h
    cases o with
    | acked => exact ⟨os, he, h2⟩
    | nacked => exact absurd h1 (by simp [wellBehaved, peerAcks, within, ha])
    | collided d k => exact absurd h1 (by simp [wellBehaved, peerAcks, within, ha])
  · exact absurd h (by simp [wellBehaved, responsive])

/-- A stop on a well-behaved bus. -/
theorem wellBehaved_stop {A : List Byte} {as : List Ask} {b : Option Byte} {e : Env}
    (h : wellBehaved A (drawsOf (.stop :: as) 0 true b e) = true) :
    ∃ os, e.stops = .detected :: os ∧ wellBehaved A (drawsOf as 0 true none { e with stops := os }) = true := by
  simp only [drawsOf] at h
  split at h
  · rename_i o os _ he
    rw [wellBehaved_cons] at h
    obtain ⟨h1, h2⟩ := h
    cases o with
    | detected => exact ⟨os, he, h2⟩
    | missing => exact absurd h1 (by simp [wellBehaved, stopsOk])
    | collided => exact absurd h1 (by simp [wellBehaved, stopsOk])
  · exact absurd h (by simp [wellBehaved, responsive])

/-- Under `WellBehaved({EXP_ADDR_BYTE})` a frame is sent and every byte of it acknowledged, and what follows it is well-behaved on
the draws it leaves (R83). -/
theorem wellBehaved_frame {s : State} {as : List Ask} {b : Option Byte}
    (h : wellBehaved [s.cfg.expAddrByte] (drawsOf (frameAsks s.cfg ++ as) 0 true b s.env) = true) (f : Frame) :
    FrameDraws .acked .detected s ∧
      wellBehaved [s.cfg.expAddrByte] (drawsOf as 0 true none (frameSent f .acked .detected s).env) = true := by
  have ha : s.cfg.expAddrByte ∈ [s.cfg.expAddrByte] := List.mem_singleton_self _
  obtain ⟨us, e0, h⟩ := wellBehaved_start h
  obtain ⟨w1, e1, h⟩ := wellBehaved_byte ha h
  obtain ⟨w2, e2, h⟩ := wellBehaved_byte ha h
  obtain ⟨w3, e3, h⟩ := wellBehaved_byte ha h
  obtain ⟨w4, e4, h⟩ := wellBehaved_byte ha h
  obtain ⟨w5, e5, h⟩ := wellBehaved_byte ha h
  obtain ⟨vs, e6, h⟩ := wellBehaved_stop h
  simp only at e1 e2 e3 e4 e5 e6
  subst e2 e3 e4 e5
  refine ⟨⟨⟨us, e0⟩, ⟨w5, e1⟩, ⟨vs, e6⟩, rfl⟩, ?_⟩
  simpa [frameSent, e0, e1, e6] using h

/-! ## the loop of INIT_DISPLAY -/

/-- The state with INIT_DISPLAY's accumulators set. -/
def accumulate (ok nack : Bool) (s : State) : State := { s with aok := ok, anack := nack }

section
variable (ok nack : Bool) (s : State)

@[simp] theorem accumulate_en : (accumulate ok nack s).en = s.en := rfl
@[simp] theorem accumulate_cfg : (accumulate ok nack s).cfg = s.cfg := rfl
@[simp] theorem accumulate_env : (accumulate ok nack s).env = s.env := rfl
@[simp] theorem accumulate_aok : (accumulate ok nack s).aok = ok := rfl
@[simp] theorem accumulate_anack : (accumulate ok nack s).anack = nack := rfl

end

/-- One turn of the loop whose frame is sent (R181). -/
theorem sumInitSeq_sent {v : Byte} {cs : List Byte} {x y : Bool} {s : State} {b : Answers} {o : CondOutcome}
    (he : s.en = true) (hd : FrameDraws b o s) :
    sumInitSeq (v :: cs) (accumulate x y s) =
      sumInitSeq cs (accumulate (x && o == .detected) (y || b.nack) (frameSent (encodeFrame v false) b o s)) := by
  have h := sumFrame_sent (encodeFrame v false) (s := accumulate x y s) he ⟨hd.starts, hd.bytes, hd.stops, hd.returned⟩
  simp only [sumInitSeq, sumSend, h]
  rfl

/-- One turn of the loop whose frame gives up (R181). -/
theorem sumInitSeq_failed {v : Byte} {cs : List Byte} {x y : Bool} {s : State} {o : CondOutcome} {os : List CondOutcome}
    (he : s.en = true) (hc : s.cfg.encCheckStart = true) (hs : s.env.starts = o :: os) (ho : o ≠ .detected) :
    sumInitSeq (v :: cs) (accumulate x y s) =
      sumInitSeq cs (accumulate false y (frameFailed (encodeFrame v false) o s)) := by
  have h := sumFrame_failed (encodeFrame v false) (s := accumulate x y s) he hc hs ho
  simp only [sumInitSeq, sumSend, h]
  simp only [Bool.and_false, Bool.or_false]
  rfl

end Sys2Proof.Machine
end

