-- ==== Sys2Proof/Tests/Slice0.lean ====
section
/-! SUPPORT. The model's own tests. Every expected value is from the spec: 95_test_vectors.md (the vector's number stands in
the comment) or the encoding tables of 30_encoding.md. Then one witness for each obligation that has hypotheses: a concrete
state and operands that meet them all together. -/

namespace Sys2Proof.Tests

open Sys2Proof Sys2Proof.Machine

/-! ## states to start from -/

/-- "initialised idle" of 95_test_vectors.md section 2: reset followed by INIT. -/
def idle : State :=
  { State.reset with
    en := true
    cfgSlew := true
    cfgMaster := true
    div := Config.brgDiv
    rsp := 0b001
    trace := [.reset, .cmd 0x000000000, .rsp 0b001] }

/-- The draws that will arrive. -/
def draws (starts : List CondOutcome) (bytes : List ByteOutcome) (stops : List CondOutcome) (s : State) : State :=
  { s with env := { s.env with starts := starts, bytes := bytes, stops := stops } }

/-- An open transaction: the state after vector E5. -/
def opened : State :=
  { idle with
    sdet := true
    txbuf := 0x40
    tstate := .addressSent
    trace := idle.trace ++ [.cmd 0x200000040, .start, .err false, .byte 0x40 false, .rsp 0b001] }

/-- Five acknowledged bytes. -/
def acks : List ByteOutcome := [.acked, .acked, .acked, .acked, .acked]

/-- Idle, with one good frame's draws to come. -/
def good : State := draws [.detected] acks [.detected] idle

/-- What the command adds to the history and the response, and a check of the state it ends in. -/
def ends (r : Result State Fault Refusal) (before : State) (events : List Event) (ok : State → Bool) : Bool :=
  match r with
  | .next t => t.trace == before.trace ++ events && ok t
  | .fault _ => false
  | .refused _ => false

/-! ## WellFormed: an ill-formed term for each check -/

theorem test_canonical_refuses_unassigned_bits :
    (Instr.init 1).wellFormed = false ∧ (Instr.write 0x0C 0x800000).wellFormed = false ∧
      (Instr.setCursor 1 3 1).wellFormed = false ∧ (Instr.reservedB 1).wellFormed = false := by decide

theorem test_writeDirection_refuses_the_read_bit :
    (Instr.beginTx 0x41 0).wellFormed = false ∧ (Instr.beginTx 0x40 0).wellFormed = true := by decide

/-! ## decoding: one word for every row of the table, written out from R100 to R102 -/

/-- The words of the opcode table's rows with operands of zeros, `op` in bits 35:32. -/
theorem test_decode_rows :
    (List.range 16).map (fun n => decodeTableWord 40 (n * 0x100000000)) =
      [some (.init 0), some (.waitReady 0), some (.beginTx 0 0), some (.write 0 0), some (.endTx 0), some (.sendFrame 0 0 0 0),
        some (.sendCmd 0 0), some (.sendChar 0 0), some (.initDisplay 0), some (.clear 0), some (.setCursor 0 0 0),
        some (.reservedB 0), some (.reservedC 0), some (.reservedD 0), some (.reservedE 0), some (.reservedF 0)] := by decide

/-- E28, E25, E10, P1: engine words. -/
theorem test_decode_engine :
    decodeWord 0x000000000#36 = .init 0 ∧ decodeWord 0x1DEADBEEF#36 = .waitReady 0xDEADBEEF ∧
      decodeWord 0x200000040#36 = .beginTx 0x40 0 ∧ decodeWord 0x30000000C#36 = .write 0x0C 0 ∧
      decodeWord 0x400000000#36 = .endTx 0 := by decide

/-- E29: the unassigned bits of BEGIN. -/
theorem test_decode_unassigned_bits : decodeWord 0x2FFFFFF40#36 = .beginTx 0x40 0xFFFFFF := by decide

/-- F3, F1, F2: encoder words; `f0` is the low byte. -/
theorem test_decode_encoder :
    decodeWord 0x5191D494D#36 = .sendFrame 0x4D 0x49 0x1D 0x19 ∧ decodeWord 0x600000085#36 = .sendCmd 0x85 0 ∧
      decodeWord 0x700000041#36 = .sendChar 0x41 0 := by decide

/-- P4, F11, F17, F21: display words; the row is bit 8. -/
theorem test_decode_display :
    decodeWord 0x800000000#36 = .initDisplay 0 ∧ decodeWord 0x900000000#36 = .clear 0 ∧
      decodeWord 0xA00000103#36 = .setCursor 1 0x03 0 ∧ decodeWord 0xAFFFFFE05#36 = .setCursor 0 0x05 0x7FFFFF := by decide

/-- E26, E27: reserved words. -/
theorem test_decode_reserved :
    decodeWord 0xB00000000#36 = .reservedB 0 ∧ decodeWord 0xC00000000#36 = .reservedC 0 ∧
      decodeWord 0xD00000000#36 = .reservedD 0 ∧ decodeWord 0xE00000000#36 = .reservedE 0 ∧
      decodeWord 0xF12345678#36 = .reservedF 0x12345678 := by decide

/-- R111: "`SET_CURSOR 1, 3` is `0xA00000103`", by the assembler and the encoder. -/
theorem test_assemble_setCursor : (assemble "SET_CURSOR" [1, 3]).map encode = some 0xA00000103#36 := by decide

/-- U5: a row other than 0 and 1 cannot be written. -/
theorem test_assemble_refuses_row_2 : assemble "SET_CURSOR" [2, 3] = none := by decide

/-- P3, P5, R111: lines of text, with a comment, a quoted character, a hexadecimal number and a string. -/
theorem test_parseLine :
    parseLine "SET_CURSOR 1, 3   ; 0xA00000103".toList = some [.setCursor 1 3 0] ∧
      parseLine "SEND_CHAR 'A'".toList = some [.sendChar 0x41 0] ∧ parseLine "SEND_CHAR ';'".toList = some [.sendChar 0x3B 0] ∧
      parseLine "SEND_FRAME 0x4D, 0x49, 0x1D, 25".toList = some [.sendFrame 0x4D 0x49 0x1D 0x19] ∧
      parseLine "WRITE_STRING \"AB\" ; expands".toList = some [.sendChar 0x41 0, .sendChar 0x42 0] ∧
      parseLine "  ; a comment".toList = some [] ∧ parseLine "WRITE 0x100".toList = none := by decide

/-- R111: the example's nine digits. -/
theorem test_wordText : wordText (encode (.setCursor 1 3 0)) = "0xA00000103".toList := by decide

/-! ## the encode function and the peer's view -/

/-- The frame table of section 3: corners of both nibbles and both registers. -/
theorem test_encodeFrame :
    encodeFrame 0xF0 false = ⟨0xFC, 0xF8, 0x0C, 0x08⟩ ∧ encodeFrame 0x0F true = ⟨0x0D, 0x09, 0xFD, 0xF9⟩ ∧
      encodeFrame 0x08 true = ⟨0x0D, 0x09, 0x8D, 0x89⟩ ∧ encodeFrame 0xA5 true = ⟨0xAD, 0xA9, 0x5D, 0x59⟩ ∧
      encodeFrame 0x28 false = ⟨0x2C, 0x28, 0x8C, 0x88⟩ := by decide

/-- P3: the latches of its pin history. -/
theorem test_latches :
    latches [0xCC, 0xC8, 0x3C, 0x38, 0x4D, 0x49, 0x1D, 0x19] =
      [(false, 0xC#4), (false, 0x3#4), (true, 0x4#4), (true, 0x1#4)] := by decide

/-! ## the premises of R83 -/

/-- "every `ByteDone` inside a transaction whose address byte is in the set `A` draws `acked`": a collided address byte, a
collided data byte and a NACK break `PeerAcks({0x40})`, and none of them breaks `PeerAcks({0x4E})`. -/
theorem test_peerAcks_history :
    (let p := Params.default
     let begun := [Event.reset, .cmd 0x200000040, .start, .err false]
     peerAckedTrace p [0x40] (begun ++ [.coll .byte]) = false ∧ peerAckedTrace p [0x40] (begun ++ [.byte 0x40 true]) = false ∧
       peerAckedTrace p [0x40] (begun ++ [.coll .byte, .rsp 0b001, .cmd 0x30000000C, .byte 0x0C true]) = false ∧
       peerAckedTrace p [0x4E] (begun ++ [.coll .byte, .rsp 0b001, .cmd 0x30000000C, .byte 0x0C true]) = true ∧
       peerAckedTrace p [0x40] (begun ++ [.byte 0x40 false, .rsp 0b001, .cmd 0x400000000, .stop]) = true) := by decide

/-- The same of the draws: the peer at 0x4E may answer as it likes under `PeerAcks({0x40})`. -/
theorem test_peerAcks_draws :
    peerAcks [0x40] ((draws [.detected] [.nacked] [] idle).drawn [.beginTx 0x40 0]) = false ∧
      peerAcks [0x40] ((draws [.detected] [.collided true false] [] idle).drawn [.beginTx 0x40 0]) = false ∧
      peerAcks [0x40] ((draws [.detected] [.nacked] [] idle).drawn [.beginTx 0x4E 0]) = true ∧
      peerAcks [0x40] ((draws [] [.nacked] [] opened).drawn [.write 0x0C 0]) = false := by decide

/-- After a failed start no byte is asked for: BEGIN sends no address byte and the next byte is the next transaction's
(R133), and a frame with `ENC_CHECK_START` asks for nothing more (R162, F5); a start that never completes is not responsive. -/
theorem test_drawn_after_failed_start :
    (draws [.missing, .detected] [.nacked] [] idle).drawn [.beginTx 0x4E 0, .beginTx 0x40 0] =
        [.start .missing, .start .detected, .byte (some 0x40) .nacked] ∧
      peerAcks [0x40] ((draws [.missing, .detected] [.nacked] [] idle).drawn [.beginTx 0x4E 0, .beginTx 0x40 0]) = false ∧
      responsive ((draws [.missing] [] [] idle).drawn [.sendCmd 0x01 0]) = true ∧
      responsive (idle.drawn [.sendCmd 0x01 0]) = false := by decide

/-! ## one command, one step -/

/-- E1. -/
theorem test_init :
    ends (exec (.init 0) State.reset) State.reset [.cmd 0x000000000, .rsp 0b001]
      (fun t => t.en && t.cfgSlew && t.cfgMaster && !t.xdone && t.rsp == 0b001 && t.seq.isEmpty) = true := by decide

/-- E3. -/
theorem test_waitReady_clears :
    ends (exec (.waitReady 0) { idle with bcl := true, xdone := true }) idle [.cmd 0x100000000, .rsp 0b001]
      (fun t => !t.bcl && !t.wcol && !t.xdone) = true := by decide

/-- E8: the NACK of the address byte is not reported. -/
theorem test_begin_nack :
    ends (exec (.beginTx 0x4E 0) (draws [.detected] [.nacked] [] idle)) idle
      [.cmd 0x20000004E, .start, .err false, .byte 0x4E true, .rsp 0b001]
      (fun t => t.sdet && !t.err && t.ackstat && t.txbuf == 0x4E && t.tstate == .addressSent) = true := by decide

/-- E7: a collision during the start. -/
theorem test_begin_collided :
    ends (exec (.beginTx 0x40 0) (draws [.collided] [.acked] [] idle)) idle
      [.cmd 0x200000040, .coll .start, .err true, .rsp 0b000]
      (fun t => !t.sdet && t.bcl && t.err && t.tstate == .idle && t.txbuf == idle.txbuf && t.env.bytes == [.acked]) = true := by
  decide

/-- E11. -/
theorem test_write_nack :
    ends (exec (.write 0x0C 0) (draws [] [.nacked] [] opened)) opened [.cmd 0x30000000C, .byte 0x0C true, .rsp 0b011]
      (fun t => t.ackstat && t.tstate == .dataSent && !t.err && !t.xdone && !t.xbusy && t.txbuf == 0x0C) = true := by decide

/-- E16: a collision with `XDONE` drawn 0 holds at WR.2. -/
theorem test_write_lost :
    ends (exec (.write 0x0C 0) (draws [] [.collided false true] [] opened)) opened [.cmd 0x30000000C, .coll .byte]
      (fun t => t.bcl && !t.xbusy && !t.xdone && t.busy && t.seq == [.wr2, .hx1 none] && t.tstate == .addressSent) = true := by
  decide

/-- E21: a missing stop. -/
theorem test_end_missing :
    ends (exec (.endTx 0) (draws [] [] [.missing] { opened with tstate := .dataSent })) opened
      [.cmd 0x400000000, .err true, .rsp 0b000]
      (fun t => !t.pdet && t.sdet && t.err && t.tstate == .idle) = true := by decide

/-- E23: `BCL` is cleared at WT.0. -/
theorem test_end_after_collision :
    ends (exec (.endTx 0) (draws [] [] [.detected] { opened with bcl := true })) opened
      [.cmd 0x400000000, .stop, .err false, .rsp 0b001]
      (fun t => !t.bcl && t.pdet && !t.sdet && t.tstate == .idle) = true := by decide

set_option maxRecDepth 100000 in
/-- F3. -/
theorem test_sendFrame :
    ends (exec (.sendFrame 0x4D 0x49 0x1D 0x19) good) good
      [.cmd 0x5191D494D, .start, .err false, .byte 0x40 false, .byte 0x4D false, .delay 20, .byte 0x49 false, .delay 20,
        .byte 0x1D false, .delay 20, .byte 0x19 false, .delay 20, .stop, .err false, .rsp 0b001]
      (fun t => t.frame == ⟨0x4D, 0x49, 0x1D, 0x19⟩ && t.txbuf == 0x19 && t.fidx == 4 && t.fok && !t.fnack) = true := by decide

/-- F5: a missing start ends the frame. -/
theorem test_sendCmd_missing_start :
    ends (exec (.sendCmd 0x85 0) (draws [.missing] acks [.detected] idle)) idle [.cmd 0x600000085, .err true, .rsp 0b000]
      (fun t => t.frame == ⟨0x8C, 0x88, 0x5C, 0x58⟩ && t.fidx == 0 && !t.fok && !t.fnack && t.err && !t.sdet &&
        t.tstate == .idle && t.env.bytes == acks) = true := by decide

set_option maxRecDepth 100000 in
/-- F9: every byte NACKed and the stop missing. -/
theorem test_sendCmd_all_wrong :
    ends (exec (.sendCmd 0x85 0) (draws [.detected] [.nacked, .nacked, .nacked, .nacked, .nacked] [.missing] idle)) idle
      [.cmd 0x600000085, .start, .err false, .byte 0x40 true, .byte 0x8C true, .delay 20, .byte 0x88 true, .delay 20,
        .byte 0x5C true, .delay 20, .byte 0x58 true, .delay 20, .err true, .rsp 0b010]
      (fun t => t.fnack && !t.fok && t.err) = true := by decide

set_option maxRecDepth 100000 in
/-- F4: 0x00 is a character like any other. -/
theorem test_sendChar_zero :
    ends (exec (.sendChar 0x00 0) good) good
      [.cmd 0x700000000, .start, .err false, .byte 0x40 false, .byte 0x0D false, .delay 20, .byte 0x09 false, .delay 20,
        .byte 0x0D false, .delay 20, .byte 0x09 false, .delay 20, .stop, .err false, .rsp 0b001]
      (fun t => t.txbuf == 0x09) = true := by decide

set_option maxRecDepth 100000 in
/-- P4, variant: the start of frame 2 is missing; frames 3 to 5 are still sent, and the response is `0b000`. -/
theorem test_initDisplay_variant :
    (match exec (.initDisplay 0) (draws [.detected, .missing, .detected, .detected, .detected] (List.replicate 20 .acked)
        [.detected, .detected, .detected, .detected] idle) with
      | .next t => pinHistory t.cfg t.trace ==
          [0x0C, 0x08, 0x2C, 0x28, 0x0C, 0x08, 0x1C, 0x18, 0x0C, 0x08, 0xEC, 0xE8, 0x0C, 0x08, 0x6C, 0x68] &&
          t.rsp == 0b000 && !t.err && !t.aok && !t.anack && t.seq.isEmpty
      | .fault _ => false
      | .refused _ => false) = true := by decide

set_option maxRecDepth 100000 in
/-- F12: no expander on the bus. -/
theorem test_clear_no_expander :
    ends (exec (.clear 0) (draws [.detected] [.nacked, .nacked, .nacked, .nacked, .nacked] [.detected] idle)) idle
      [.cmd 0x900000000, .start, .err false, .byte 0x40 true, .byte 0x0C true, .delay 20, .byte 0x08 true, .delay 20,
        .byte 0x1C true, .delay 20, .byte 0x18 true, .delay 20, .stop, .err false, .delay 10, .rsp 0b011]
      (fun t => t.fnack && t.fok && !t.err && t.ackstat && t.dly == 0) = true := by decide

/-- F13: the settle delay after a missing start. -/
theorem test_clear_missing_start :
    ends (exec (.clear 0) (draws [.missing] [] [] idle)) idle [.cmd 0x900000000, .err true, .delay 10, .rsp 0b000]
      (fun t => t.err) = true := by decide

set_option maxRecDepth 100000 in
/-- F21: the unassigned bits of SET_CURSOR change nothing. -/
theorem test_setCursor_unassigned_bits :
    ends (exec (decodeWord 0xAFFFFFE05#36) good) good
      [.cmd 0xAFFFFFE05, .start, .err false, .byte 0x40 false, .byte 0x8C false, .delay 20, .byte 0x88 false, .delay 20,
        .byte 0x5C false, .delay 20, .byte 0x58 false, .delay 20, .stop, .err false, .rsp 0b001]
      (fun t => t.frame == ⟨0x8C, 0x88, 0x5C, 0x58⟩) = true := by decide

/-- F19, F20: the column merges into the base. -/
theorem test_setCursor_bytes :
    cursorByte Params.default 0 0x40 = 0xC0 ∧ cursorByte Params.default 1 0xFF = 0xFF ∧
      cursorByte Params.default 1 3 = 0xC3 := by decide

/-- E26, E27: each reserved opcode. -/
theorem test_reserved :
    ends (exec (.reservedB 0) idle) idle [.cmd 0xB00000000, .rsp 0b100] (fun t => t.rsp == 0b100 && t.seq.isEmpty) = true ∧
      ends (exec (.reservedC 0) idle) idle [.cmd 0xC00000000, .rsp 0b100] (fun t => !t.err) = true ∧
      ends (exec (.reservedD 0) idle) idle [.cmd 0xD00000000, .rsp 0b100] (fun t => !t.err) = true ∧
      ends (exec (.reservedE 0) idle) idle [.cmd 0xE00000000, .rsp 0b100] (fun t => !t.err) = true ∧
      ends (exec (.reservedF 0x12345678) idle) idle [.cmd 0xF12345678, .rsp 0b100] (fun t => !t.err) = true := by decide

/-! ## the step -/

/-- E25: BEGIN before INIT, placed at the port of the reset core, holds at BG.2. -/
theorem test_step_begin_before_init :
    ends (step (State.reset.withFetchWord 36 0x200000040)) State.reset [.cmd 0x200000040]
      (fun t => t.spend && t.tstate == .startPending && t.seq == [.bg2 0x40, .hb1 none] && t.ports.busy) = true := by decide

/-- R230, R231: a Reset step while BEGIN holds; no response and no stop. -/
theorem test_step_reset_ends_a_hold :
    (match exec (.beginTx 0x40 0) State.reset with
      | .next t => ends (step (t.withTurns [.rst])) t [.reset]
          (fun u => u.seq.isEmpty && !u.spend && u.tstate == .idle && u.env.turns.isEmpty)
      | .fault _ => false
      | .refused _ => false) = true := by decide

/-- R15: "Between two ENG steps any enabled step of BUS, TMR or RST may occur". A start left pending (no run reaches it) and
completed between WT.3 and WR.1, with a tick before it, leaves nothing for the write-collision case; in the model's own order
WR.1 comes first and finds it pending (R134). -/
theorem test_turns_between_eng_steps :
    (let s := draws [.detected] [.acked] [] { idle with spend := true }
     ends (exec (.write 0x0C 0) (s.withTurns [.eng, .eng, .eng, .eng, .eng, .eng, .tmr, .bus .start])) s
        [.cmd 0x30000000C, .start, .byte 0x0C false, .rsp 0b001] (fun t => !t.wcol && t.env.turns.isEmpty) = true ∧
      ends (exec (.write 0x0C 0) s) s [.cmd 0x30000000C, .start] (fun t => t.wcol && t.seq == [.wr2, .hx1 none]) = true) := by
  decide

/-- R230: a Reset step may fall between any two ENG steps, here right after BG.1. -/
theorem test_reset_between_eng_steps :
    ends (exec (.beginTx 0x40 0) ((draws [.detected] [.acked] [] idle).withTurns (List.replicate 7 .eng ++ [.rst, .tmr]))) idle
      [.cmd 0x200000040, .reset] (fun t => t.seq.isEmpty && !t.spend && t.env.turns == [.tmr] && t.env.starts == [.detected]) =
      true := by decide

/-- T3: a tick at 0 does not wrap. -/
theorem test_tick_at_zero : (tick idle).dly = 0 := by decide

/-- U2: a byte requested while a stop is pending (reachable only from a state no run reaches) sets `WCOL` and holds. -/
theorem test_write_collision :
    ends (exec (.write 0x0C 0) { idle with ppend := true }) idle [.cmd 0x30000000C]
      (fun t => t.wcol && !t.xbusy && t.txbuf == idle.txbuf && t.seq == [.wr2, .hx1 none]) = true := by decide

/-! ## witnesses: the hypotheses of each obligation are met together -/

theorem idle_ready : Ready idle where
  idle := rfl
  noReset := by decide
  noByte := rfl
  noReceive := rfl
  noStart := rfl
  noStop := rfl
  noDelay := rfl

theorem draws_ready {s : State} (h : Ready s) (a : List CondOutcome) (b : List ByteOutcome) (c : List CondOutcome) :
    Ready (draws a b c s) where
  idle := h.idle
  noReset := h.noReset
  noByte := h.noByte
  noReceive := h.noReceive
  noStart := h.noStart
  noStop := h.noStop
  noDelay := h.noDelay

theorem reset_ready : Ready State.reset where
  idle := rfl
  noReset := by decide
  noByte := rfl
  noReceive := rfl
  noStart := rfl
  noStop := rfl
  noDelay := rfl

theorem opened_ready : Ready opened where
  idle := rfl
  noReset := by decide
  noByte := rfl
  noReceive := rfl
  noStart := rfl
  noStop := rfl
  noDelay := rfl

/-- Any turns without a Reset step may be given to a ready core. -/
theorem turns_ready {s : State} (h : Ready s) {ts : List Turn} (hr : .rst ∉ ts) : Ready (s.withTurns ts) where
  idle := h.idle
  noReset := hr
  noByte := h.noByte
  noReceive := h.noReceive
  noStart := h.noStart
  noStop := h.noStop
  noDelay := h.noDelay

/-- The answers of the five bytes in `good`. -/
def allAcks : Answers := ⟨.acked, .acked, .acked, .acked, .acked⟩

theorem good_draws : FrameDraws allAcks .detected good :=
  ⟨⟨[], rfl⟩, ⟨[], rfl⟩, ⟨[], rfl⟩, rfl⟩

theorem witness_OnlyFiveBytesOfThirtySixBitsDecode :
    ([0, 0, 0, 0] : List Byte).length < 5 ∧ 5 < ([0, 0, 0, 0, 0, 0] : List Byte).length ∧ (0x0F#8).toNat < 16 ∧
      16 ≤ (0x10#8).toNat := by decide

theorem witness_AssemblyLineNamesItsCommand :
    (Instr.clear 0).canonical = true ∧ (Instr.reservedB 0).canonical = true ∧ ¬ 0xB#4 ≤ (Instr.setCursor 1 3 0).opcode ∧
      0xB#4 ≤ (Instr.reservedB 0).opcode := by decide

theorem witness_WriteStringIssuesOneSendCharEach : ∀ c ∈ ([0x41, 0x42] : List Byte), c ≠ 0 := by decide

theorem witness_CursorByteIsBaseOrColumn : Params.default.row0Base = 0x80 ∧ Params.default.row1Base = 0xC0 := by decide

theorem witness_StepExecutesTheAcceptedWord :
    (idle.hostIssues [.clear 0]).seq = [] ∧ (idle.hostIssues [.clear 0]).resetDue = false ∧
      (idle.hostIssues [.clear 0]).env.cmds = [0x900000000] := by decide

theorem witness_StepRunsThePlacedWord : 0xFFFFFFFFF < 2 ^ 36 := by decide

theorem witness_NoCommandAcceptedWhileNotReady :
    ({ idle with seq := [.hb0] } : State).seq ≠ [] ∧
      (idle.withTurns [.rst]).resetDue = true := by decide

theorem witness_InitArmsTheCore : Ready { State.reset with rbusy := false } ∧
    Ready { idle.withTurns [.tmr, .eng] with rbusy := false } ∧ Listens { idle with spend := true } :=
  ⟨reset_ready, turns_ready idle_ready (by decide), ⟨rfl, by decide⟩⟩

theorem witness_WaitReadyClearsTheFlags :
    Ready { idle with bcl := true, wcol := true } ∧ Listens { idle with spend := true } ∧
      ({ idle with spend := true } : State).xbusy = false ∧ ({ idle with spend := true } : State).rbusy = false :=
  ⟨⟨⟨rfl, by decide⟩, rfl, rfl, rfl, rfl, rfl⟩, ⟨rfl, by decide⟩, rfl, rfl⟩

theorem witness_WaitReadyHoldsOnReceive :
    Ready { ({ idle with rbusy := true } : State) with rbusy := false } ∧ ({ idle with rbusy := true } : State).rbusy = true :=
  ⟨idle_ready, rfl⟩

theorem witness_BeginOpensATransaction :
    Ready good ∧ good.en = true ∧ good.env.starts = .detected :: [] ∧
      good.env.bytes = .acked :: [.acked, .acked, .acked, .acked] ∧ ByteOutcome.acked.returns = true :=
  ⟨draws_ready idle_ready _ _ _, rfl, rfl, rfl, rfl⟩

theorem witness_BeginFailsWithoutAStart :
    (Ready (draws [.missing] [] [] idle) ∧ (draws [.missing] [] [] idle).env.starts = .missing :: [] ∧
      CondOutcome.missing ≠ .detected) ∧
    (Ready (draws [.collided] [] [] idle) ∧ (draws [.collided] [] [] idle).env.starts = .collided :: [] ∧
      CondOutcome.collided ≠ .detected) :=
  ⟨⟨draws_ready idle_ready _ _ _, rfl, by decide⟩, ⟨draws_ready idle_ready _ _ _, rfl, by decide⟩⟩

theorem witness_BeginHoldsOnASilentBus :
    (Ready State.reset ∧ State.reset.en = false) ∧ (Ready idle ∧ idle.env.starts = []) :=
  ⟨⟨reset_ready, rfl⟩, idle_ready, rfl⟩

theorem witness_WriteSendsTheByte :
    Ready (draws [] [.collided true true] [] opened) ∧ (draws [] [.collided true true] [] opened).en = true ∧
      (draws [] [.collided true true] [] opened).env.bytes = .collided true true :: [] ∧
      (ByteOutcome.collided true true).returns = true :=
  ⟨draws_ready opened_ready _ _ _, rfl, rfl, rfl⟩

theorem witness_WriteHoldsAfterALostByte :
    Ready (draws [] [.collided false true] [] opened) ∧ (draws [] [.collided false true] [] opened).en = true ∧
      (draws [] [.collided false true] [] opened).env.bytes = .collided false true :: [] :=
  ⟨draws_ready opened_ready _ _ _, rfl, rfl⟩

theorem witness_WriteHoldsOnASilentBus :
    (Ready opened ∧ opened.env.bytes = []) ∧ (Ready State.reset ∧ State.reset.en = false) :=
  ⟨⟨opened_ready, rfl⟩, reset_ready, rfl⟩

theorem witness_EndClosesTheTransaction :
    (Ready (draws [] [] [.detected] opened) ∧ (draws [] [] [.detected] opened).env.stops = .detected :: []) ∧
    (Ready (draws [] [] [.missing] opened) ∧ (draws [] [] [.missing] opened).env.stops = .missing :: []) ∧
    (Ready (draws [] [] [.collided] opened) ∧ (draws [] [] [.collided] opened).env.stops = .collided :: []) ∧
    opened.en = true :=
  ⟨⟨draws_ready opened_ready _ _ _, rfl⟩, ⟨draws_ready opened_ready _ _ _, rfl⟩, ⟨draws_ready opened_ready _ _ _, rfl⟩, rfl⟩

/-- For SEND_FRAME, SEND_CMD, SEND_CHAR, SET_CURSOR and CLEAR, which have the same hypotheses. -/
theorem witness_a_frame_is_sent : Ready good ∧ good.en = true ∧ FrameDraws allAcks .detected good :=
  ⟨draws_ready idle_ready _ _ _, rfl, good_draws⟩

theorem witness_SendFrameSendsItsFourBytes : Ready good ∧ good.en = true ∧ FrameDraws allAcks .detected good :=
  witness_a_frame_is_sent

theorem witness_SendCmdSendsACommandFrame :
    Ready (draws [.detected] [.nacked, .acked, .acked, .collided true false, .nacked] [.collided] idle) ∧
      FrameDraws ⟨.nacked, .acked, .acked, .collided true false, .nacked⟩ .collided
        (draws [.detected] [.nacked, .acked, .acked, .collided true false, .nacked] [.collided] idle) :=
  ⟨draws_ready idle_ready _ _ _, ⟨⟨[], rfl⟩, ⟨[], rfl⟩, ⟨[], rfl⟩, rfl⟩⟩

theorem witness_SendCharSendsACharacterFrame : Ready good ∧ good.en = true ∧ FrameDraws allAcks .detected good :=
  witness_a_frame_is_sent

theorem witness_SetCursorSendsItsCommandByte : Ready good ∧ good.en = true ∧ FrameDraws allAcks .detected good :=
  witness_a_frame_is_sent

theorem witness_ClearSendsItsFrameAndSettles : Ready good ∧ good.en = true ∧ FrameDraws allAcks .detected good :=
  witness_a_frame_is_sent

/-- Also for CLEAR's failed frame, which has the same hypotheses. -/
theorem witness_FrameGivesUpWithoutAStart :
    Ready (draws [.missing] [] [] idle) ∧ idle.en = true ∧ idle.cfg.encCheckStart = true ∧
      (draws [.missing] [] [] idle).env.starts = .missing :: [] ∧ CondOutcome.missing ≠ .detected ∧
      Ready (draws [.collided] [] [] idle) ∧ (draws [.collided] [] [] idle).env.starts = .collided :: [] ∧
      CondOutcome.collided ≠ .detected :=
  ⟨draws_ready idle_ready _ _ _, rfl, rfl, rfl, by decide, draws_ready idle_ready _ _ _, rfl, by decide⟩

theorem witness_ClearSettlesAfterAFailedFrame :
    Ready (draws [.missing] [] [] idle) ∧ idle.en = true ∧ idle.cfg.encCheckStart = true ∧
      (draws [.missing] [] [] idle).env.starts = .missing :: [] ∧ CondOutcome.missing ≠ .detected :=
  ⟨draws_ready idle_ready _ _ _, rfl, rfl, rfl, by decide⟩

/-- A core with the other reading of `ENC_CHECK_START`. -/
def unchecked : State :=
  draws [.missing] acks [.detected] { idle with cfg := { Params.default with encCheckStart := false } }

theorem witness_UncheckedFrameGoesOnWithoutAStart :
    Ready unchecked ∧ unchecked.en = true ∧ unchecked.cfg.encCheckStart = false ∧ unchecked.env.starts = .missing :: [] ∧
      unchecked.env.bytes = .acked :: .acked :: .acked :: .acked :: [.acked] ∧ unchecked.env.stops = .detected :: [] ∧
      (ByteOutcome.acked.returns && ByteOutcome.acked.returns && ByteOutcome.acked.returns && ByteOutcome.acked.returns) = true :=
  ⟨⟨⟨rfl, by decide⟩, rfl, rfl, rfl, rfl, rfl⟩, rfl, rfl, rfl, rfl, rfl, rfl⟩

/-- T1, T2: no tick and three. -/
theorem witness_DelayTakesItsTicks :
    (Ready { ({ idle with seq := [.dl0 0, .sf5, .hf2 none] } : State) with seq := [] } ∧
      ({ idle with seq := [.dl0 0, .sf5, .hf2 none] } : State).seq = .dl0 0 :: .sf5 :: [.hf2 none]) ∧
    (Ready { ({ idle with seq := [.dl0 3, .cl2 (some (true, false))] } : State) with seq := [] } ∧
      ({ idle with seq := [.dl0 3, .cl2 (some (true, false))] } : State).seq = .dl0 3 :: .cl2 (some (true, false)) :: []) :=
  ⟨⟨idle_ready, rfl⟩, ⟨idle_ready, rfl⟩⟩

/-- Idle, with the draws of five frames. -/
def fiveGood : State :=
  draws (List.replicate 5 .detected) (List.replicate 25 .acked) (List.replicate 5 .detected) idle

theorem witness_InitDisplaySendsTheFiveCommandsInOrder :
    Ready fiveGood ∧ fiveGood.en = true ∧
      fiveGood.env.starts = .detected :: .detected :: .detected :: .detected :: .detected :: [] ∧
      fiveGood.env.bytes = allAcks.draws ++ allAcks.draws ++ allAcks.draws ++ allAcks.draws ++ allAcks.draws ++ [] ∧
      fiveGood.env.stops = .detected :: .detected :: .detected :: .detected :: .detected :: [] ∧
      (allAcks.allReturn && allAcks.allReturn && allAcks.allReturn && allAcks.allReturn && allAcks.allReturn) = true :=
  ⟨draws_ready idle_ready _ _ _, rfl, rfl, rfl, rfl, rfl⟩

theorem witness_InitDisplayGoesOnAfterFailedFrames :
    Ready (draws (List.replicate 5 .missing) [] [] idle) ∧ idle.en = true ∧ idle.cfg.encCheckStart = true ∧
      (draws (List.replicate 5 .missing) [] [] idle).env.starts =
        .missing :: .missing :: .missing :: .missing :: .missing :: [] :=
  ⟨draws_ready idle_ready _ _ _, rfl, rfl, rfl⟩

theorem witness_ReservedOpcodesAreAnsweredIllegal :
    0xB#4 ≤ opField 0xB00000000#36 ∧ 0xB#4 ≤ opField 0xFFFFFFFFF#36 ∧ Listens { idle with err := true, spend := true } ∧
      Ready { ({ idle with err := true } : State) with rbusy := false } ∧
      Instr.reservedB 0 ∈ [Instr.reservedB 0, .reservedC 0, .reservedD 0, .reservedE 0, .reservedF 0] ∧
      Instr.reservedF 1 ∈ [Instr.reservedB 1, .reservedC 1, .reservedD 1, .reservedE 1, .reservedF 1] :=
  ⟨by decide, by decide, ⟨rfl, by decide⟩, ⟨⟨rfl, by decide⟩, rfl, rfl, rfl, rfl, rfl⟩, by decide, by decide⟩

/-- One state for each draw of a pending start. -/
theorem witness_StartDoneFollowsItsDraw :
    ∀ o : CondOutcome, (draws [o] [] [] { idle with spend := true }).env.starts = o :: [] ∧
      (draws [o] [] [] { idle with spend := true }).startReady = true := by
  intro o; cases o <;> decide

theorem witness_ByteDoneFollowsItsDraw :
    ∀ o : ByteOutcome, (draws [] [o] [] { idle with xbusy := true }).env.bytes = o :: [] ∧
      (draws [] [o] [] { idle with xbusy := true }).byteReady = true := by
  intro o; exact ⟨rfl, rfl⟩

theorem witness_StopDoneFollowsItsDraw :
    ∀ o : CondOutcome, (draws [] [] [o] { idle with ppend := true }).env.stops = o :: [] ∧
      (draws [] [] [o] { idle with ppend := true }).stopReady = true := by
  intro o; exact ⟨rfl, rfl⟩

theorem witness_BusWritesOnlyItsFlags :
    State.reset.en = false ∧ idle.spend = false ∧ idle.xbusy = false ∧ idle.ppend = false := by decide

theorem witness_TickCountsDownToZero :
    idle.dly = 0 ∧ ({ idle with dly := 1 } : State).dly ≠ 0 ∧ ({ idle with dly := 0xFFFF } : State).dly ≠ 0 := by decide

theorem witness_ResetStepClearsTheCore :
    (({ idle with seq := [.wr2, .hx1 none], xbusy := true } : State).withTurns [.rst]).resetDue = true := by
  decide

/-- A byte that never completes: BUS is silent, turns that do nothing are given, and then a Reset step. -/
theorem witness_OnlyResetEndsAnUnboundedWait :
    (let s : State := ({ idle with seq := [.wr2, .hx1 none], xbusy := true } : State).withTurns [.eng, .tmr, .rst]
     s.seq ≠ [] ∧ s.engReady = false ∧ s.busReady = false ∧ s.dly = 0 ∧ .rst ∉ s.env.turns.take 2) ∧
    (let s : State := ({ idle with seq := [.wr2, .hx1 none], xbusy := true } : State).withTurns [.rst]
     s.seq ≠ [] ∧ s.engReady = false ∧ s.busReady = false ∧ s.dly = 0 ∧ s.resetDue = true) := by decide

theorem idle_inv : Inv idle := by
  constructor <;> simp [idle, State.reset, SeqOk, callChain, tstateAgrees, lastErr]

/-- BEGIN waits for its start. -/
def starting : State := { idle with seq := [.bg2 0x40, .hb1 none], spend := true, tstate := .startPending }

theorem starting_inv : Inv starting := by
  constructor <;>
    simp [starting, idle, State.reset, SeqOk, callChain, Entry.proc, Entry.called, Entry.bound, Entry.keepsResult,
      Entry.indexOk, tstateAgrees, Entry.startAsked, atStartHold, lastErr]

/-- INIT_DISPLAY's deepest stack (P4): six entries, the top one about to test the collision flags. -/
def deep : State :=
  { idle with
    seq := [.wt0, .wr1 0x40, .bg5, .sf2 none, .sc2 none, .id2 0 none]
    sdet := true
    tstate := .startConfirmed }

theorem deep_inv : Inv deep := by
  constructor <;>
    simp [deep, idle, State.reset, SeqOk, callChain, Entry.proc, Entry.called, Entry.bound, Entry.keepsResult,
      Entry.indexOk, tstateAgrees, Entry.startAsked, Entry.startSeen, lastErr]

theorem witness_EveryStepKeepsTheInvariant :
    Inv idle ∧ Inv (draws [.detected] [] [] starting) ∧ mover (draws [.detected] [] [] starting) = some (.bus .start) ∧
      agentStep (.bus .start) (draws [.detected] [] [] starting) = .next (busStep .start (draws [.detected] [] [] starting)) := by
  refine ⟨idle_inv, ?_, by decide, rfl⟩
  obtain ⟨h1, h2, h3, h4, h5, h6, h7, h8, h9, h10, h11, h12, h13, h14, h15⟩ := starting_inv
  constructor <;> assumption

theorem witness_NoStepStopsUnderTheInvariant : Inv starting ∧ Inv deep := ⟨starting_inv, deep_inv⟩

theorem witness_SequencerNeverDeeperThanSix : Inv deep ∧ deep.seq.length = 6 := ⟨deep_inv, rfl⟩

theorem witness_AtMostOneActivityPending :
    Inv starting ∧ (Inv idle ∧ idle.seq = []) ∧ (Inv deep ∧ deep.seq.head? = some .wt0) :=
  ⟨starting_inv, ⟨idle_inv, rfl⟩, ⟨deep_inv, rfl⟩⟩

/-- One command that ends and one that waits for ever. -/
theorem witness_EveryOperationEndsOrWaits :
    idle.cmdReady = true ∧ (∃ t, exec (.waitReady 0) idle = .next t ∧ t.seq = []) ∧
      (∃ t, exec (.beginTx 0x40 0) idle = .next t ∧ t.seq ≠ [] ∧ mover t = none) :=
  ⟨rfl, ⟨_, rfl, rfl⟩, ⟨_, rfl, by decide, by decide⟩⟩

theorem witness_ExecutionIsARunOfSteps : good.cmdReady = true := by decide

theorem witness_ExecutionAgreesWithTheSummary :
    Ready fiveGood ∧ ∃ t, summary (.initDisplay 0) fiveGood = some t :=
  ⟨draws_ready idle_ready _ _ _, _, rfl⟩

theorem witness_UnassignedBitsAffectNothing :
    (Instr.beginTx 0x40 0).plain = (Instr.beginTx 0x40 0xFFFFFF).plain ∧ Ready good ∧
      ∃ t, summary (.beginTx 0x40 0) good = some t :=
  ⟨rfl, draws_ready idle_ready _ _ _, _, rfl⟩

theorem witness_TraceIsOnlyAppendedTo : ∃ t, step starting = .next t := ⟨_, rfl⟩

theorem witness_FixedFieldsStayFixed :
    ∃ t, step (starting.withTurns [.rst]) = .next t ∧
      starting.en = true ∧ t.en = false :=
  ⟨_, rfl, rfl, rfl⟩

theorem witness_ExactlyOneResponsePerCommand :
    Listens idle ∧ (∃ t, exec (.clear 0) (draws [.missing] [] [] idle) = .next t ∧ t.seq = []) ∧
      ∃ t, exec (.beginTx 0x40 0) idle = .next t ∧ t.seq ≠ [] :=
  ⟨idle_ready.toListens, ⟨_, rfl, rfl⟩, ⟨_, rfl, by decide⟩⟩

/-- One command in each phase of the contract. -/
theorem witness_ContractPhaseFollowsTheState :
    (Ready State.reset ∧ PhaseAgrees State.reset ∧ (watch State.reset.trace).phase.allows (encode (.init 0)) = true ∧
      ∃ t, summary (.init 0) State.reset = some t) ∧
    (Ready good ∧ PhaseAgrees good ∧ (watch good.trace).phase.allows (encode (.sendCmd 1 0)) = true ∧
      ∃ t, summary (.sendCmd 1 0) good = some t) ∧
    (Ready (draws [] [.acked] [] opened) ∧ PhaseAgrees (draws [] [.acked] [] opened) ∧
      (watch opened.trace).phase.allows (encode (.write 0x0C 0)) = true ∧
      ∃ t, summary (.write 0x0C 0) (draws [] [.acked] [] opened) = some t) := by
  refine ⟨⟨reset_ready, ⟨rfl, by decide, ?_⟩, by decide, _, rfl⟩,
    ⟨draws_ready idle_ready _ _ _, ⟨rfl, by decide, ?_⟩, by decide, _, rfl⟩,
    ⟨draws_ready opened_ready _ _ _, ⟨rfl, by decide, ?_⟩, by decide, _, rfl⟩⟩
  · exact ⟨rfl, rfl⟩
  · exact ⟨rfl, rfl⟩
  · exact ⟨rfl, .inl rfl⟩

/-- What the history says of the two states the next witnesses start from. -/
theorem good_agrees : PhaseAgrees good := ⟨rfl, by decide, rfl, rfl⟩

theorem fiveGood_agrees : PhaseAgrees fiveGood := ⟨rfl, by decide, rfl, rfl⟩

/-- The result is a next state whose whole history is in contract. -/
def keepsContract (r : Result State Fault Refusal) : Bool :=
  match r with
  | .next t => onContract t.trace
  | .fault _ => false
  | .refused _ => false

/-- A command sent inside an open transaction is off-contract (R137 item 6), and so is the read direction (R108). -/
theorem test_offContract :
    keepsContract (exec (.sendCmd 0x01 0) (draws [.missing] [] [] opened)) = false ∧
      keepsContract (exec (.beginTx 0x41 0) (draws [.missing] [] [] idle)) = false := by decide

set_option maxRecDepth 100000 in
theorem witness_LcdReceivesWhatIsSent :
    Ready good ∧ good.en = true ∧ wellBehaved [good.cfg.expAddrByte] (good.drawn [.sendCmd 0x01 0]) = true ∧
      wellBehaved [good.cfg.expAddrByte] (good.drawn [.sendChar 0x41 0]) = true ∧ PhaseAgrees good ∧
      keepsContract (exec (.sendCmd 0x01 0) good) = true ∧ keepsContract (exec (.sendChar 0x41 0) good) = true :=
  ⟨draws_ready idle_ready _ _ _, rfl, by decide, by decide, good_agrees, by decide, by decide⟩

theorem witness_EmptyTransactionLeavesTheBusIdle :
    Ready good ∧ good.en = true ∧ wellBehaved [0x40] (good.drawn [.beginTx 0x40 0, .endTx 0]) = true ∧ PhaseAgrees good ∧
      (match exec (.beginTx 0x40 0) good with
        | .next t => keepsContract (exec (.endTx 0) t)
        | .fault _ => false
        | .refused _ => false) = true :=
  ⟨draws_ready idle_ready _ _ _, rfl, by decide, good_agrees, by decide⟩

theorem witness_MissingStartIsSignalledUntilTheNextBoundary :
    Ready (draws [.missing, .detected] [.nacked] [] idle) ∧ idle.en = true ∧
      (draws [.missing, .detected] [.nacked] [] idle).env.starts = .missing :: .detected :: [] ∧
      (draws [.missing, .detected] [.nacked] [] idle).env.bytes = .nacked :: [] ∧ ByteOutcome.nacked.returns = true :=
  ⟨draws_ready idle_ready _ _ _, rfl, rfl, rfl, rfl⟩

set_option maxRecDepth 100000 in
theorem witness_WriteStringReachesTheLcd :
    Ready fiveGood ∧ fiveGood.en = true ∧ fiveGood.env.cmds = [] ∧ (∀ c ∈ ([0x41, 0x42] : List Byte), c ≠ 0) ∧
      wellBehaved [fiveGood.cfg.expAddrByte] (fiveGood.drawn (writeString [0x41, 0x42])) = true ∧ PhaseAgrees fiveGood ∧
      keepsContract (core.run 2 (fiveGood.hostIssues (writeString [0x41, 0x42]))) = true :=
  ⟨draws_ready idle_ready _ _ _, rfl, rfl, by decide, by decide, fiveGood_agrees, by decide⟩

end Sys2Proof.Tests
end

section
/-! The BUS steps `StartDone` and `StopDone` (20_memory.md R78, R80): when each is enabled once its draw has arrived, which draw
it takes, and what the draw does to every field. -/

namespace Sys2Proof.Machine

section
variable {s : State} {o : CondOutcome} {os : List CondOutcome}

/-- R78's enabling condition: with a draw at hand, only `EN` and `SPEND` decide. -/
theorem startReady_iff_of_starts_cons (hdraw : s.env.starts = o :: os) :
    s.startReady = true ↔ s.en = true ∧ s.spend = true := by
  simp [State.startReady, hdraw]

/-- R80's enabling condition: with a draw at hand, only `EN` and `PPEND` decide. -/
theorem stopReady_iff_of_stops_cons (hdraw : s.env.stops = o :: os) :
    s.stopReady = true ↔ s.en = true ∧ s.ppend = true := by
  simp [State.stopReady, hdraw]

/-- An enabled `StartDone` takes the first draw of its kind; unlike `startDone_byStep`, whatever else is pending. -/
theorem busStep_start_of_ready (hready : s.startReady = true) (hdraw : s.env.starts = o :: os) :
    busStep .start s = startDone o { s with env := { s.env with starts := os } } := by
  simp only [busStep, State.activityReady, hready, hdraw, if_true]

/-- An enabled `StopDone` takes the first draw of its kind; unlike `stopDone_byStep`, whatever else is pending. -/
theorem busStep_stop_of_ready (hready : s.stopReady = true) (hdraw : s.env.stops = o :: os) :
    busStep .stop s = stopDone o { s with env := { s.env with stops := os } } := by
  simp only [busStep, State.activityReady, hready, hdraw, if_true]

end

/-- Settles O35: the step is `startDone` of the first draw, read field by field for each draw; a missing start emits nothing. -/
theorem startDoneFollowsItsDraw : Obligations.StartDoneFollowsItsDraw := by
  intro s o os hdraw
  refine ⟨startReady_iff_of_starts_cons hdraw, fun hready => ?_⟩
  rw [busStep_start_of_ready hready hdraw]
  cases o with
  | detected => rfl
  | missing => simp [startDone]
  | collided => rfl

/-- Settles O37: the step is `stopDone` of the first draw, read field by field for each draw; a missing stop emits nothing. -/
theorem stopDoneFollowsItsDraw : Obligations.StopDoneFollowsItsDraw := by
  intro s o os hdraw
  refine ⟨stopReady_iff_of_stops_cons hdraw, fun hready => ?_⟩
  rw [busStep_stop_of_ready hready hdraw]
  cases o with
  | detected => rfl
  | missing => simp [stopDone]
  | collided => rfl

end Sys2Proof.Machine
end

section
/-! INIT (40_engine_ops.md R131) over its five labelled steps: the chain IN.0 to IN.4 where nothing is pending, and, whatever is
pending, what holds at each label however BUS and TMR move between the steps. -/

namespace Sys2Proof.Machine

/-! ## one step of any agent -/

/-- R81's frame: a completion writes the flags and the history of the bus, takes its draw, and touches nothing else. -/
theorem busStep_frame (p : Activity) (s : State) :
    busStep p s = { s with
      bcl := (busStep p s).bcl, xdone := (busStep p s).xdone, xbusy := (busStep p s).xbusy, spend := (busStep p s).spend
      ppend := (busStep p s).ppend, sdet := (busStep p s).sdet, pdet := (busStep p s).pdet
      ackstat := (busStep p s).ackstat, trace := (busStep p s).trace, env := (busStep p s).env } := by
  by_cases h : s.activityReady p = true
  · simp only [busStep, h, if_true]
    cases p with
    | start => cases s.env.starts with | nil => rfl | cons o os => cases o <;> rfl
    | byte => cases s.env.bytes with | nil => rfl | cons o os => cases o <;> rfl
    | stop => cases s.env.stops with | nil => rfl | cons o os => cases o <;> rfl
  · rw [busStep_idle (by simpa using h)]

/-- An ENG step that does not hold, in the form `run_unheld` asks for. -/
theorem engStep_of_unheld {P : State → Prop} {t u : State} {e : Entry} {k : List Entry} (hseq : t.seq = e :: k)
    (hheld : t.held = false) (hstep : stepAt e k t = .next u) (hu : P u) :
    t.seq ≠ [] ∧ t.held = false ∧ ∃ u, engStep t = .next u ∧ P u :=
  ⟨by simp [hseq], hheld, u, by simp [engStep, hseq, hheld, hstep], hu⟩

/-! ## INIT with nothing pending -/

theorem exec_init (u : BitVec 32) (s : State) : exec (.init u) s = issue (.init u) .in0 s := rfl

/-- The fuel of a run covers INIT's five steps and every turn that is given. -/
theorem initSteps_le_opFuel (s : State) : 5 + s.env.turns.length ≤ opFuel s := by
  unfold opFuel; omega

/-- What INIT writes before its response. -/
def initWritten (s : State) : State :=
  { s with cfgSlew := true, cfgMaster := true, en := true, div := s.cfg.brgDiv, xdone := false }

/-- IN.0 to IN.4: none of the five steps holds. -/
theorem leads_init {s : State} {k : List Entry} (hs : s.seq = .in0 :: k) (hcalm : Calm s) :
    Leads 5 s (respond true false false (initWritten s)) := by
  have h0 := leads_eng hcalm hs (by simp [State.held, hs]) (t := { s with cfgSlew := true, seq := .in1 :: k }) rfl
  have h1 := leads_eng (s := { s with cfgSlew := true, seq := .in1 :: k }) hcalm rfl rfl
    (t := { s with cfgSlew := true, cfgMaster := true, en := true, seq := .in2 :: k }) rfl
  have h2 := leads_eng (s := { s with cfgSlew := true, cfgMaster := true, en := true, seq := .in2 :: k }) hcalm rfl rfl
    (t := { s with cfgSlew := true, cfgMaster := true, en := true, div := s.cfg.brgDiv, seq := .in3 :: k }) rfl
  have h3 := leads_eng hcalm
    (s := { s with cfgSlew := true, cfgMaster := true, en := true, div := s.cfg.brgDiv, seq := .in3 :: k }) rfl rfl
    (t := { initWritten s with seq := .in4 :: k }) rfl
  have h4 := leads_eng (s := { initWritten s with seq := .in4 :: k }) hcalm rfl rfl
    (t := respond true false false (initWritten s)) rfl
  exact (((h0.trans h1).trans h2).trans h3).trans h4

/-! ## INIT whatever is pending -/

/-- What INIT reads and R131 says it does not write, and no step of BUS or TMR writes either. -/
def InitKeeps (s t : State) : Prop :=
  t.cfg = s.cfg ∧ t.err = s.err ∧ t.wcol = s.wcol ∧ t.tstate = s.tstate

/-- `InitAhead s n t`: in the execution of INIT begun in `s`, `n` of its steps are still ahead of `t`, and `t` holds what the
steps before have written. `XDONE` is not told: a byte in progress may set it anew at any time. -/
inductive InitAhead (s : State) : Nat → State → Prop
  | in0 {t : State} (seq : t.seq = [.in0]) (kept : InitKeeps s t) : InitAhead s 5 t
  | in1 {t : State} (seq : t.seq = [.in1]) (kept : InitKeeps s t) (slew : t.cfgSlew = true) : InitAhead s 4 t
  | in2 {t : State} (seq : t.seq = [.in2]) (kept : InitKeeps s t) (slew : t.cfgSlew = true)
      (master : t.cfgMaster = true) (armed : t.en = true) : InitAhead s 3 t
  | in3 {t : State} (seq : t.seq = [.in3]) (kept : InitKeeps s t) (slew : t.cfgSlew = true)
      (master : t.cfgMaster = true) (armed : t.en = true) (divisor : t.div = s.cfg.brgDiv) : InitAhead s 2 t
  | in4 {t : State} (seq : t.seq = [.in4]) (kept : InitKeeps s t) (slew : t.cfgSlew = true)
      (master : t.cfgMaster = true) (armed : t.en = true) (divisor : t.div = s.cfg.brgDiv) : InitAhead s 1 t
  | done {t : State} (seq : t.seq = []) (kept : InitKeeps s t) (slew : t.cfgSlew = true)
      (master : t.cfgMaster = true) (armed : t.en = true) (divisor : t.div = s.cfg.brgDiv) (answer : t.rsp = 0b001) :
      InitAhead s 0 t

section
variable {s t : State} {n : Nat}

/-- ENG's step is enabled at every label of INIT and leads to the next one. -/
theorem InitAhead.engStep (h : InitAhead s (n + 1) t) :
    t.seq ≠ [] ∧ t.held = false ∧ ∃ u, Machine.engStep t = .next u ∧ InitAhead s n u := by
  cases h with
  | in0 seq kept => exact engStep_of_unheld seq (by simp [State.held, seq]) rfl (.in1 rfl kept rfl)
  | in1 seq kept slew => exact engStep_of_unheld seq (by simp [State.held, seq]) rfl (.in2 rfl kept slew rfl rfl)
  | in2 seq kept slew master armed =>
    exact engStep_of_unheld seq (by simp [State.held, seq]) rfl
      (.in3 rfl kept slew master armed (congrArg Params.brgDiv kept.1))
  | in3 seq kept slew master armed divisor =>
    exact engStep_of_unheld seq (by simp [State.held, seq]) rfl (.in4 rfl kept slew master armed divisor)
  | in4 seq kept slew master armed divisor =>
    exact engStep_of_unheld seq (by simp [State.held, seq]) rfl (.done rfl kept slew master armed divisor rfl)

theorem InitAhead.busStep (p : Activity) (h : InitAhead s n t) : InitAhead s n (busStep p t) := by
  rw [busStep_frame]
  cases h <;> constructor <;> assumption

theorem InitAhead.tick (h : InitAhead s n t) : InitAhead s n (tick t) := by
  cases h <;> constructor <;> assumption

theorem InitAhead.withTurns (ts : List Turn) (h : InitAhead s n t) : InitAhead s n (t.withTurns ts) := by
  cases h <;> constructor <;> assumption

/-- INIT completes from every idle state with `rst` low, however BUS and TMR move meanwhile. -/
theorem exec_init_completes (u : BitVec 32) (h : Listens s) : ∃ t, exec (.init u) s = .next t ∧ InitAhead s 0 t := by
  have hstart : InitAhead s 5 { s with
      cwr := encode (.init u), trace := s.trace ++ [.cmd (encode (.init u))], seq := [.in0] } :=
    .in0 rfl ⟨rfl, rfl, rfl, rfl⟩
  rw [exec_init, issue_eq h]
  refine run_unheld (P := InitAhead s) (fun t ht => ?_) (fun _ _ => InitAhead.engStep) (fun _ p _ => InitAhead.busStep p)
    (fun _ _ => InitAhead.tick) (fun _ ts _ => InitAhead.withTurns ts) 5 hstart h.noReset (initSteps_le_opFuel s)
  cases ht with | done seq => exact seq

end

/-- Settles O13: with nothing pending the five steps are told in full by `leads_init`, which no turn of BUS or TMR disturbs;
with activities pending, `InitAhead` is what BUS and TMR cannot disturb. -/
theorem initArmsTheCore : Obligations.InitArmsTheCore := by
  refine ⟨fun s u h => ?_, fun s u h => ?_⟩
  · have hidle : s.seq = [] := h.idle
    obtain ⟨ts, hts, hexec⟩ := issue_of_leads (s := s) (i := .init u) ⟨h.idle, h.noReset⟩
      (leads_init rfl ⟨h.noByte, h.noStart, h.noStop, h.noDelay⟩) rfl (initSteps_le_opFuel s)
    refine ⟨ts, hts, ?_⟩
    rw [exec_init, hexec]
    simp [respond, emit, initWritten, hidle, rspWord]
  · obtain ⟨t, hexec, hdone⟩ := exec_init_completes u h
    cases hdone with
    | done seq kept slew master armed divisor answer =>
      obtain ⟨-, err, wcol, tstate⟩ := kept
      exact ⟨t, hexec, seq, slew, master, armed, divisor, answer, err, wcol, tstate⟩

end Sys2Proof.Machine
end

section
/-! The encode function (41_encoder_ops.md R160) and what the LCD makes of its four bytes (20_memory.md R91, R92). Every byte
of a frame is put together from a data nibble, the enable bit and the register select, so each fact of R166 is read off that
form. -/

namespace Sys2Proof.Machine

/-! ## the expander byte by its fields -/

/-- The mask of R160 keeps the upper half of a byte. -/
theorem append_and_f0 (hi lo : BitVec 4) : (hi ++ lo : Byte) &&& 0xF0 = hi ++ 0#4 := by
  calc (hi ++ lo : Byte) &&& 0xF0
    _ = (hi &&& BitVec.allOnes 4) ++ (lo &&& 0#4) :=
      BitVec.and_append (x₂ := BitVec.allOnes 4) (y₂ := 0#4)
    _ = hi ++ 0#4 := by rw [BitVec.and_allOnes, BitVec.and_zero]

/-- The expander byte with data nibble `n`, enable bit `e`, register select `rs`, backlight on and RW 0
(30_encoding.md R109). -/
def expanderByte (n : BitVec 4) (e rs : Bool) : Byte :=
  n ++ (1#1 ++ (BitVec.ofBool e ++ (0#1 ++ BitVec.ofBool rs)))

section
variable (n : BitVec 4) (e rs : Bool)

@[simp] theorem rsBit_expanderByte : rsBit (expanderByte n e rs) = rs := by
  simp only [rsBit, expanderByte, BitVec.getLsbD_append]
  simp

@[simp] theorem rwBit_expanderByte : rwBit (expanderByte n e rs) = false := by
  simp only [rwBit, expanderByte, BitVec.getLsbD_append]
  simp

@[simp] theorem enableBit_expanderByte : enableBit (expanderByte n e rs) = e := by
  simp only [enableBit, expanderByte, BitVec.getLsbD_append]
  simp

@[simp] theorem backlightBit_expanderByte : backlightBit (expanderByte n e rs) = true := by
  simp only [backlightBit, expanderByte, BitVec.getLsbD_append]
  simp

@[simp] theorem dataNibble_expanderByte : dataNibble (expanderByte n e rs) = n :=
  BitVec.extractLsb'_append_eq_left

/-- The upper half of an expander byte is its data nibble. -/
theorem expanderByte_and_f0 : expanderByte n e rs &&& 0xF0 = n ++ 0#4 :=
  append_and_f0 n _

/-- Clearing bit 2 lowers the enable bit and nothing else. -/
theorem expanderByte_and_fb : expanderByte n e rs &&& 0xFB = expanderByte n false rs := by
  revert n e rs; decide

/-- R160's way to put an expander byte together, with the enable bit down. -/
theorem or_ctlBits : (n ++ 0#4) ||| ctlBits rs = expanderByte n false rs := by
  revert n rs; decide

/-- Setting bit 2 raises the enable bit and nothing else. -/
theorem expanderByte_or_enable : expanderByte n e rs ||| 0x04 = expanderByte n true rs := by
  revert n e rs; decide

end

/-! ## a value by its nibbles -/

section
variable (v : Byte)

theorem highNibble_append_lowNibble : v.extractLsb' 4 4 ++ v.extractLsb' 0 4 = v := by
  rw [BitVec.extractLsb'_append_extractLsb'_eq_extractLsb' (by decide)]
  exact BitVec.extractLsb'_eq_self

theorem and_f0_eq_highNibble : v &&& 0xF0 = v.extractLsb' 4 4 ++ 0#4 := by
  conv_lhs => rw [← highNibble_append_lowNibble v]
  exact append_and_f0 _ _

/-- The shift of R160 brings the low nibble up; the mask behind it is redundant (R168). -/
theorem shiftLeft_and_f0_eq_lowNibble : (v <<< 4) &&& 0xF0 = v.extractLsb' 0 4 ++ 0#4 := by
  rw [and_f0_eq_highNibble]
  congr 1
  ext i hi
  simpa using fun _ => (by omega : 4 + i < 8)

end

/-! ## a frame by its bytes -/

/-- R160 read by fields: the high nibble with the enable bit up and then down, and the low one so. -/
theorem encodeFrame_eq (v : Byte) (rs : Bool) : encodeFrame v rs =
    ⟨expanderByte (v.extractLsb' 4 4) true rs, expanderByte (v.extractLsb' 4 4) false rs,
      expanderByte (v.extractLsb' 0 4) true rs, expanderByte (v.extractLsb' 0 4) false rs⟩ := by
  simp only [encodeFrame, and_f0_eq_highNibble v, shiftLeft_and_f0_eq_lowNibble, or_ctlBits,
    expanderByte_or_enable]

/-! ## what the LCD makes of a frame -/

/-- A falling edge takes the nibble of its second byte; behind a byte with the enable bit down there is none. -/
theorem latches_strobe (n : BitVec 4) (rs : Bool) (pins : List Byte) :
    latches (expanderByte n true rs :: expanderByte n false rs :: pins) = (rs, n) :: latches pins := by
  cases pins <;> simp [latches]

/-- Whatever pin values follow, a frame gives its two latches, high nibble first, and no other. -/
theorem latches_encodeFrame_append (v : Byte) (rs : Bool) (pins : List Byte) :
    latches ((encodeFrame v rs).bytes ++ pins) = (rs, v.extractLsb' 4 4) :: (rs, v.extractLsb' 0 4) :: latches pins := by
  simp only [encodeFrame_eq, Frame.bytes, List.cons_append, List.nil_append, latches_strobe]

/-- So the LCD receives the value of a frame first, and then what it receives of the rest. -/
theorem lcdReceives_encodeFrame_append (v : Byte) (rs : Bool) (pins : List Byte) :
    lcdReceives ((encodeFrame v rs).bytes ++ pins) = (rs, v) :: lcdReceives pins := by
  simp [lcdReceives, latches_encodeFrame_append, reassemble, highNibble_append_lowNibble]

/-- What the LCD receives of a frame tells its value and its register. -/
theorem encodeFrame_injective {v v' : Byte} {rs rs' : Bool} (h : encodeFrame v' rs' = encodeFrame v rs) :
    v' = v ∧ rs' = rs := by
  have hlcd : [(rs', v')] = [(rs, v)] := by
    calc [(rs', v')]
      _ = lcdReceives ((encodeFrame v' rs').bytes ++ []) := (lcdReceives_encodeFrame_append v' rs' []).symm
      _ = lcdReceives ((encodeFrame v rs).bytes ++ []) := by rw [h]
      _ = [(rs, v)] := lcdReceives_encodeFrame_append v rs []
  simpa [and_comm] using hlcd

/-- Settles O7: the bytes of a frame by their fields (`encodeFrame_eq`), then what the LCD makes of them. -/
theorem encodedFrameCarriesTheValue : Obligations.EncodedFrameCarriesTheValue := by
  intro v rs f
  have hf : f = _ := encodeFrame_eq v rs
  refine ⟨?high, ?low, ?control, ?enable, ?nibbles, ?fall1, ?fall2, ?latched, ?received, fun v' rs' => encodeFrame_injective⟩
  case high => rw [hf, and_f0_eq_highNibble v]; exact expanderByte_and_f0 _ _ _
  case low => rw [hf, shiftLeft_and_f0_eq_lowNibble]; exact expanderByte_and_f0 _ _ _
  case control | enable | nibbles => simp [hf, Frame.bytes]
  case fall1 | fall2 => rw [hf, expanderByte_and_fb]
  case latched => simpa [latches] using latches_encodeFrame_append v rs []
  case received => simpa [lcdReceives, latches, reassemble] using lcdReceives_encodeFrame_append v rs []

end Sys2Proof.Machine
end

section
/-! The reserved opcodes (30_encoding.md R104, 60_exceptions.md R205): the commands whose one entry is RV.0, the step that answers
`ill = 1`. With nothing pending that step is told in full; whatever is pending, what BUS and TMR cannot disturb around it. -/

namespace Sys2Proof.Machine

/-! ## the commands that begin at RV.0 -/

/-- A word with `op` in 0xB to 0xF decodes to the reserved command of its `op`, which keeps every bit of `arg`. -/
theorem decodeWord_mem_reserved {w : CmdWord} (hop : 0xB#4 ≤ opField w) :
    decodeWord w ∈ [.reservedB (argField w), .reservedC (argField w), .reservedD (argField w), .reservedE (argField w),
      .reservedF (argField w)] := by
  have hlow : 0xB ≤ (opField w).toNat := hop
  have hhigh : (opField w).toNat < 2 ^ 4 := (opField w).isLt
  obtain h | h | h | h | h : (opField w).toNat = 0xB ∨ (opField w).toNat = 0xC ∨ (opField w).toNat = 0xD ∨
      (opField w).toNat = 0xE ∨ (opField w).toNat = 0xF := by omega
  all_goals simp [decodeWord, h]

theorem entry_of_mem_reserved {i : Instr} {u : BitVec 32}
    (hi : i ∈ [.reservedB u, .reservedC u, .reservedD u, .reservedE u, .reservedF u]) : i.entry = .rv0 := by
  simp only [List.mem_cons, List.not_mem_nil, or_false] at hi
  obtain rfl | rfl | rfl | rfl | rfl := hi <;> rfl

/-- R130's table: the meaning of a command is the run from its first entry. -/
theorem exec_eq_issue_entry (i : Instr) (s : State) : exec i s = issue i i.entry s := by
  cases i <;> rfl

/-- The fuel of a run covers the one step of a reserved opcode and every turn that is given. -/
theorem reservedStep_le_opFuel (s : State) : 1 + s.env.turns.length ≤ opFuel s := by
  unfold opFuel; omega

/-! ## with nothing pending -/

/-- RV.0 does not hold, and its step is the response. -/
theorem leads_reserved {s : State} {k : List Entry} (hs : s.seq = .rv0 :: k) (hcalm : Calm s) :
    Leads 1 s (respond false false true s) :=
  leads_eng hcalm hs (by simp [State.held, hs]) rfl

/-! ## whatever is pending -/

/-- `ReservedAhead s n t`: in the execution of a reserved opcode begun in `s`, `n` of its steps are still ahead of `t`, and `t` has
the `ERR` and `TSTATE` of `s`, which neither RV.0 nor a step of BUS or TMR writes. -/
inductive ReservedAhead (s : State) : Nat → State → Prop
  | rv0 {t : State} (seq : t.seq = [.rv0]) (err : t.err = s.err) (tstate : t.tstate = s.tstate) : ReservedAhead s 1 t
  | done {t : State} (seq : t.seq = []) (answer : t.rsp = 0b100) (err : t.err = s.err) (tstate : t.tstate = s.tstate) :
      ReservedAhead s 0 t

section
variable {s t : State} {n : Nat}

theorem ReservedAhead.engStep (h : ReservedAhead s (n + 1) t) :
    t.seq ≠ [] ∧ t.held = false ∧ ∃ u, Machine.engStep t = .next u ∧ ReservedAhead s n u := by
  cases h with
  | rv0 seq err tstate => exact engStep_of_unheld seq (by simp [State.held, seq]) rfl (.done rfl rfl err tstate)

theorem ReservedAhead.busStep (p : Activity) (h : ReservedAhead s n t) : ReservedAhead s n (busStep p t) := by
  rw [busStep_frame]
  cases h <;> constructor <;> assumption

theorem ReservedAhead.tick (h : ReservedAhead s n t) : ReservedAhead s n (tick t) := by
  cases h <;> constructor <;> assumption

theorem ReservedAhead.withTurns (ts : List Turn) (h : ReservedAhead s n t) : ReservedAhead s n (t.withTurns ts) := by
  cases h <;> constructor <;> assumption

/-- A reserved opcode is answered from every idle state with `rst` low, however BUS and TMR move meanwhile. -/
theorem exec_reserved_completes {i : Instr} (hi : i.entry = .rv0) (h : Listens s) :
    ∃ t, exec i s = .next t ∧ ReservedAhead s 0 t := by
  have hstart : ReservedAhead s 1 { s with cwr := encode i, trace := s.trace ++ [.cmd (encode i)], seq := [.rv0] } :=
    .rv0 rfl rfl rfl
  rw [exec_eq_issue_entry, hi, issue_eq h]
  refine run_unheld (P := ReservedAhead s) (fun t ht => ?_) (fun _ _ => ReservedAhead.engStep)
    (fun _ p _ => ReservedAhead.busStep p) (fun _ _ => ReservedAhead.tick) (fun _ ts _ => ReservedAhead.withTurns ts) 1 hstart
    h.noReset (reservedStep_le_opFuel s)
  cases ht with | done seq => exact seq

end

/-- Settles O34: the five commands begin at RV.0, whose step `leads_reserved` tells in full when nothing is pending; with
activities pending, `ReservedAhead` is what BUS and TMR cannot disturb. -/
theorem reservedOpcodesAreAnsweredIllegal : Obligations.ReservedOpcodesAreAnsweredIllegal := by
  refine ⟨fun w hop => ⟨argField w, decodeWord_mem_reserved hop⟩, fun s u i h hi => ?_, fun s u i h hi => ?_⟩
  · have hidle : s.seq = [] := h.idle
    obtain ⟨ts, hts, hissue⟩ := issue_of_leads (s := s) (i := i) ⟨h.idle, h.noReset⟩
      (leads_reserved rfl ⟨h.noByte, h.noStart, h.noStop, h.noDelay⟩) rfl (reservedStep_le_opFuel s)
    refine ⟨ts, hts, ?_⟩
    rw [exec_eq_issue_entry, entry_of_mem_reserved hi, hissue]
    simp [respond, emit, rspWord, bit, hidle]
  · obtain ⟨t, hexec, hdone⟩ := exec_reserved_completes (entry_of_mem_reserved hi) h
    cases hdone with
    | done seq answer err tstate => exact ⟨t, hexec, seq, answer, err, tstate⟩

end Sys2Proof.Machine
end

section
/-! Words, bytes and lines of assembly (30_encoding.md R100 to R105, R111, R112): a word is the concatenation of its fields, and
so the decoder and the encoder are inverse to each other. -/

namespace Sys2Proof

/-! ## a word by its fields -/

section
variable (w : CmdWord)

theorem opField_append_argField : opField w ++ argField w = w := by
  rw [opField, argField, BitVec.extractLsb'_append_extractLsb'_eq_extractLsb' (by decide)]
  exact BitVec.extractLsb'_eq_self

theorem rest24_append_byte0 : rest24 w ++ byte0 w = argField w := by
  rw [rest24, byte0, BitVec.extractLsb'_append_extractLsb'_eq_extractLsb' (by decide)]
  rfl

theorem rest23_append_row_append_byte0 : rest23 w ++ rowField w ++ byte0 w = argField w := by
  rw [rest23, rowField, byte0, BitVec.extractLsb'_append_extractLsb'_eq_extractLsb' (by decide),
    BitVec.extractLsb'_append_extractLsb'_eq_extractLsb' (by decide)]
  rfl

theorem bytes_append : byte3 w ++ byte2 w ++ byte1 w ++ byte0 w = argField w := by
  rw [byte3, byte2, byte1, byte0, BitVec.extractLsb'_append_extractLsb'_eq_extractLsb' (by decide),
    BitVec.extractLsb'_append_extractLsb'_eq_extractLsb' (by decide),
    BitVec.extractLsb'_append_extractLsb'_eq_extractLsb' (by decide)]
  rfl

/-- The five bytes of a word put together again. -/
theorem opField_append_bytes : opField w ++ byte3 w ++ byte2 w ++ byte1 w ++ byte0 w = w := by
  rw [opField, byte3, byte2, byte1, byte0, BitVec.extractLsb'_append_extractLsb'_eq_extractLsb' (by decide),
    BitVec.extractLsb'_append_extractLsb'_eq_extractLsb' (by decide),
    BitVec.extractLsb'_append_extractLsb'_eq_extractLsb' (by decide),
    BitVec.extractLsb'_append_extractLsb'_eq_extractLsb' (by decide)]
  exact BitVec.extractLsb'_eq_self

/-- The decoder keeps the opcode. -/
theorem opcode_decodeWord : (decodeWord w).opcode = opField w := by
  have hlt : (opField w).toNat < 16 := (opField w).isLt
  apply BitVec.eq_of_toNat_eq
  generalize hop : (opField w).toNat = n at hlt
  interval_cases n <;> simp [decodeWord, hop, Instr.opcode]

/-- The decoder keeps every bit of `arg`. -/
theorem arg_decodeWord : (decodeWord w).arg = argField w := by
  unfold decodeWord
  split
  case h_3 | h_4 | h_7 | h_8 => exact rest24_append_byte0 w
  case h_6 => exact bytes_append w
  case h_11 => exact rest23_append_row_append_byte0 w
  all_goals rfl

theorem encode_decodeWord : encode (decodeWord w) = w := by
  rw [encode, opcode_decodeWord, arg_decodeWord, opField_append_argField]

/-- The five bytes of a word are decoded as the word is. -/
theorem decodeBytes_bytesOf : decodeBytes (bytesOf w) = .ok (decodeWord w) := by
  have hhigh : (0#4 ++ opField w).extractLsb' 4 4 = 0#4 := BitVec.extractLsb'_append_eq_left
  have hlow : (0#4 ++ opField w).extractLsb' 0 4 = opField w := BitVec.extractLsb'_append_eq_right
  simp only [bytesOf, decodeBytes, hhigh, if_true, hlow, opField_append_bytes]

end

theorem decodeWord_encode (i : Instr) : decodeWord (encode i) = i := by
  cases i with
  | init u => exact Laws.WordRoundTrip.init u
  | waitReady u => exact Laws.WordRoundTrip.waitReady u
  | beginTx a u => exact Laws.WordRoundTrip.beginTx a u
  | write v u => exact Laws.WordRoundTrip.write v u
  | endTx u => exact Laws.WordRoundTrip.endTx u
  | sendFrame f0 f1 f2 f3 => exact Laws.WordRoundTrip.sendFrame f0 f1 f2 f3
  | sendCmd v u => exact Laws.WordRoundTrip.sendCmd v u
  | sendChar v u => exact Laws.WordRoundTrip.sendChar v u
  | initDisplay u => exact Laws.WordRoundTrip.initDisplay u
  | clear u => exact Laws.WordRoundTrip.clear u
  | setCursor row col u => exact Laws.WordRoundTrip.setCursor row col u
  | reservedB u => exact Laws.WordRoundTrip.reservedB u
  | reservedC u => exact Laws.WordRoundTrip.reservedC u
  | reservedD u => exact Laws.WordRoundTrip.reservedD u
  | reservedE u => exact Laws.WordRoundTrip.reservedE u
  | reservedF u => exact Laws.WordRoundTrip.reservedF u

/-- Settles O1: the bytes of the word decode as the word does, and the word as the command it encodes. -/
theorem decodingUndoesEncoding : Obligations.DecodingUndoesEncoding := by
  intro i
  rw [decodeBytes_bytesOf, decodeWord_encode]

/-- Settles O2: the decoder keeps every field of the word, and gives every command back from its own word. -/
theorem encodingUndoesDecoding : Obligations.EncodingUndoesDecoding := by
  refine fun w => ⟨encode_decodeWord w, fun i hi => ?_⟩
  rw [← hi, decodeWord_encode]

/-! ## words given as numbers and as bytes -/

/-- The row of the opcode table that is the number `n` decodes as the word of `n`. -/
theorem decodeTableWord_eq {n : Nat} (hn : n < 2 ^ 36) : decodeTableWord 36 n = some (decodeWord (BitVec.ofNat 36 n)) := by
  have hbytes : [BitVec.ofNat 8 n, BitVec.ofNat 8 (n >>> 8), BitVec.ofNat 8 (n >>> 16), BitVec.ofNat 8 (n >>> 24),
      BitVec.ofNat 8 (n >>> 32)] = bytesOf (BitVec.ofNat 36 n) := by
    have hop : BitVec.ofNat 8 (n >>> 32) = 0#4 ++ opField (BitVec.ofNat 36 n) := by
      apply BitVec.eq_of_toNat_eq
      rw [BitVec.toNat_append]
      simp [opField, Nat.shiftRight_eq_div_pow]
      omega
    have hbyte (i : Nat) (hi : i + 8 ≤ 36) : BitVec.ofNat 8 (n >>> i) = (BitVec.ofNat 36 n).extractLsb' i 8 := by
      apply BitVec.eq_of_toNat_eq
      rw [BitVec.extractLsb'_toNat, BitVec.toNat_ofNat, BitVec.toNat_ofNat, Nat.mod_eq_of_lt hn]
    rw [hop, hbyte 8 (by decide), hbyte 16 (by decide), hbyte 24 (by decide)]
    exact congrArg (· :: _) (hbyte 0 (by decide))
  have h40 : n < 2 ^ 40 := hn.trans (by decide)
  simp only [decodeTableWord, Nat.mod_eq_of_lt hn, if_pos h40, hbytes, decodeBytes_bytesOf, Except.toOption]

/-- Settles O3: each number is decoded as its word, and the seven words are concrete. -/
theorem testVectorWordsDecode : Obligations.TestVectorWordsDecode := by
  unfold Obligations.TestVectorWordsDecode
  simp only [decodeTableWord_eq (n := 0x000000000) (by decide), decodeTableWord_eq (n := 0x1DEADBEEF) (by decide),
    decodeTableWord_eq (n := 0x20000004E) (by decide), decodeTableWord_eq (n := 0x30000000C) (by decide),
    decodeTableWord_eq (n := 0x5191D494D) (by decide), decodeTableWord_eq (n := 0xA00000103) (by decide),
    decodeTableWord_eq (n := 0xF12345678) (by decide)]
  decide

/-- The fifth byte has its top four bits 0 exactly when it is below 16. -/
theorem highNibble_eq_zero_iff (b : Byte) : b.extractLsb' 4 4 = 0#4 ↔ b.toNat < 16 := by
  have hlt : b.toNat < 256 := b.isLt
  rw [← BitVec.toNat_inj, BitVec.extractLsb'_toNat]
  simp only [Nat.shiftRight_eq_div_pow, BitVec.toNat_ofNat]
  omega

/-- Settles O4: `decodeBytes` by the length of its list, and at five bytes by the fifth. -/
theorem onlyFiveBytesOfThirtySixBitsDecode : Obligations.OnlyFiveBytesOfThirtySixBitsDecode := by
  refine fun bs => ⟨fun h => ?few, fun h => ?many, ?five⟩
  case few =>
    match bs, h with
    | [], _ | [_], _ | [_, _], _ | [_, _, _], _ | [_, _, _, _], _ => rfl
  case many =>
    match bs, h with
    | _ :: _ :: _ :: _ :: _ :: _ :: _, _ => rfl
  case five =>
    rintro b0 b1 b2 b3 b4 rfl
    exact ⟨fun h => ⟨_, if_pos ((highNibble_eq_zero_iff b4).2 h)⟩,
      fun h => if_neg fun h0 => by have := (highNibble_eq_zero_iff b4).1 h0; omega⟩

/-! ## assembly -/

@[simp] theorem byteOperand_toNat (b : Byte) : byteOperand b.toNat = some b := by
  simp [byteOperand, b.isLt]

@[simp] theorem rowOperand_toNat (r : BitVec 1) : rowOperand r.toNat = some r := by
  simp [rowOperand, r.isLt]

/-- Settles O5: each mnemonic selects its own form, whose operands are read back as they were written. -/
theorem assemblyLineNamesItsCommand : Obligations.AssemblyLineNamesItsCommand := by
  intro i hi
  cases i with
  | init u | waitReady u | endTx u | initDisplay u | clear u | reservedB u | reservedC u | reservedD u | reservedE u
    | reservedF u =>
    obtain rfl : u = 0 := by simpa [Instr.canonical] using hi
    decide
  | beginTx v u | write v u | sendCmd v u | sendChar v u =>
    obtain rfl : u = 0 := by simpa [Instr.canonical] using hi
    simp [assemble, Instr.mnemonic, Instr.operands, Instr.opcode]
  | sendFrame f0 f1 f2 f3 => simp [assemble, Instr.mnemonic, Instr.operands, Instr.opcode]
  | setCursor row col u =>
    obtain rfl : u = 0 := by simpa [Instr.canonical] using hi
    simp [assemble, Instr.mnemonic, Instr.operands, Instr.opcode]

/-- Settles O6: the expansion stops at the first 0x00, and a text without one is expanded to its end. -/
theorem writeStringIssuesOneSendCharEach : Obligations.WriteStringIssuesOneSendCharEach := by
  intro cs rest hcs
  have hall : ∀ c ∈ cs, (c != 0) = true := fun c hc => by simpa using hcs c hc
  constructor
  · rw [writeString, List.takeWhile_append_of_pos hall]
    simp
  · rw [writeString, List.takeWhile_eq_self_iff.2 hall]

end Sys2Proof

namespace Sys2Proof.Machine

/-- Settles O9: the base of the row OR'd with the column; the examples with the source's bases. -/
theorem cursorByteIsBaseOrColumn : Obligations.CursorByteIsBaseOrColumn := by
  have hrow (p : Params) (col : Byte) :
      cursorByte p 0 col = p.row0Base ||| col ∧ cursorByte p 1 col = p.row1Base ||| col := ⟨rfl, rfl⟩
  refine ⟨hrow, fun p h0 h1 => ?_⟩
  simp only [hrow, h0, h1]
  decide

end Sys2Proof.Machine
end

section
/-! What an ENG step does to the stack `SEQ` (00_scope.md R15, 10_state.md R42, R43): from a stack the listings build it always
answers, and it leaves such a stack again. Nothing is asked of the flags, so this holds of every command in every state. -/

namespace Sys2Proof.Machine

/-! ## the entries a step may leave -/

/-- The first entry of an operation with operands: the one label of its listing that reads `CWR`. -/
def Entry.readsCwr : Entry → Bool
  | .hb0 | .hx0 | .hf0 | .hc0 | .hd0 | .cu0 => true
  | _ => false

/-- The entry keeps the result it must and its index is in range; and it is none that reads `CWR`, for the listings enter those
by acceptance alone. -/
structure Entry.Fits (fidx : BitVec 3) (e : Entry) : Prop where
  kept : e.keepsResult = true
  index : e.indexOk fidx = true
  operand : e.readsCwr = false

/-- `SeqStep t e k`: the step at `e` over the stack `k` leads to `t` in one of R42's four ways. -/
inductive SeqStep (t : State) : Entry → List Entry → Prop
  /-- to a label of the same procedure -/
  | goto {e e' : Entry} {k : List Entry} (seq : t.seq = e' :: k) (proc : e'.proc = e.proc) (bound : e'.bound = true)
      (fits : e'.Fits t.fidx) : SeqStep t e k
  /-- into the procedure that begins at `d`, with the caller at `c` -/
  | call {e c d : Entry} {k : List Entry} (seq : t.seq = d :: c :: k) (proc : c.proc = e.proc)
      (called : c.called = some d.proc) (bound : d.bound = true) (fits : d.Fits t.fidx) (fits' : c.Fits t.fidx) :
      SeqStep t e k
  /-- back to the caller, with the result bound in it -/
  | ret {e c c' : Entry} {k : List Entry} {r : Ret} (seq : t.seq = c' :: k) (bind : bindResult r c = some c') :
      SeqStep t e (c :: k)
  /-- to the end of the operation -/
  | done {e : Entry} (seq : t.seq = []) : SeqStep t e []

/-- `FIDX` is written by sendFrame alone, and stays in range (10_state.md R45). -/
def FidxStep (e : Entry) (s t : State) : Prop := t.fidx = s.fidx ∨ e.proc = .sendFrame ∧ t.fidx ≤ 4

/-! ## `ret` -/

/-- The kind of result a procedure hands to its caller (R140). -/
def Ret.isOf : Ret → Proc → Bool
  | .unit, .waitReady | .unit, .delay => true
  | .bit _, .beginTransaction | .bit _, .writeByte | .bit _, .endTransaction => true
  | .pair _ _, .sendFrame | .pair _ _, .sendCommand | .pair _ _, .sendCharacter => true
  | _, _ => false

/-- A caller takes the result of the procedure it has called. -/
theorem bindResult_of_called {r : Ret} {p : Proc} {c : Entry} (hr : r.isOf p = true) (hc : c.called = some p) :
    ∃ c', bindResult r c = some c' := by
  cases c <;> simp only [Entry.called, Option.some.injEq, reduceCtorEq] at hc <;> subst hc <;> cases r <;>
    simp [Ret.isOf] at hr <;> exact ⟨_, rfl⟩

/-- What binding a result leaves of the caller: it stands at the label where it stood. -/
structure Rebound (c c' : Entry) : Prop where
  proc : c'.proc = c.proc
  marks : (c'.startAsked, c'.startSeen, c'.stopAsked) = (c.startAsked, c.startSeen, c.stopAsked)
  index : ∀ f, c'.indexOk f = c.indexOk f
  operand : c'.readsCwr = false
  bound : c.keepsResult = true → c'.bound = true
  kept : c.keepsResult = true → c'.keepsResult = true

theorem rebound_of_bindResult {r : Ret} {c c' : Entry} (h : bindResult r c = some c') : Rebound c c' := by
  unfold bindResult at h
  split at h <;> simp only [Option.some.injEq, reduceCtorEq] at h <;> subst h <;>
    exact ⟨rfl, rfl, fun _ => rfl, rfl, fun h => h, fun h => h⟩

/-- `ret` with a caller below. -/
theorem ret_eq {r : Ret} {c c' : Entry} (h : bindResult r c = some c') (k : List Entry) (s : State) :
    ret r (c :: k) s = .next (goto c' k s) := by
  simp only [ret, h]

/-- Where `ret` answers, the caller below has taken the result. -/
theorem ret_inv {r : Ret} {k : List Entry} {s t : State} (h : ret r k s = .next t) :
    ∃ c c' k', k = c :: k' ∧ bindResult r c = some c' ∧ t = goto c' k' s := by
  cases k with
  | nil => simp [ret] at h
  | cons c k =>
    cases hb : bindResult r c with
    | none => simp [ret, hb] at h
    | some c' =>
      rw [ret_eq hb, Host.Outcome.next.injEq] at h
      exact ⟨c, c', k, rfl, hb, h.symm⟩

/-- Where a step that reads a result answers, the result was bound. -/
theorem withBound_inv {α : Type} {r : Option α} {f : α → Result State Fault Refusal} {t : State}
    (h : withBound r f = .next t) : ∃ a, r = some a ∧ f a = .next t := by
  cases r with
  | none => simp [withBound] at h
  | some a => exact ⟨a, rfl, h⟩

/-! ## the steps with branches, by what they answer -/

section
variable {k : List Entry} {s t : State}

theorem sf2_inv {r : Option Bool} (h : sf2 r k s = .next t) : ∃ b, r = some b ∧
    ((∃ nack, t = goto .sf3 k { s with fok := b, fnack := nack }) ∨
      ret (.pair false false) k { s with fok := false } = .next t) := by
  obtain ⟨b, rfl, hb⟩ := withBound_inv h
  refine ⟨b, rfl, ?_⟩
  cases b with
  | true => exact .inl ⟨_, (Host.Outcome.next.inj hb).symm⟩
  | false =>
    by_cases hc : s.cfg.encCheckStart = true
    · simp only [hc, Bool.false_eq_true, if_false, if_true] at hb; exact .inr hb
    · simp only [hc, Bool.false_eq_true, if_false] at hb; exact .inl ⟨s.fnack, (Host.Outcome.next.inj hb).symm⟩

theorem sf3_inv (h : sf3 k s = .next t) :
    (s.fidx = 4 ∧ t = goto .sf6 k s) ∨ (s.fidx ≠ 4 ∧ ∃ v, t = call (.wr0 v) (.sf4 none) k s) := by
  unfold sf3 at h
  split at h
  · exact .inl ⟨‹_›, (Host.Outcome.next.inj h).symm⟩
  · split at h
    · exact .inr ⟨‹_›, _, (Host.Outcome.next.inj h).symm⟩
    · simp at h

theorem id1_inv {i : BitVec 3} (h : id1 i k s = .next t) :
    (i = 5 ∧ t = goto .id3 k s) ∨ (i ≠ 5 ∧ ∃ v, t = call (.sc0 v) (.id2 i none) k s) := by
  unfold id1 at h
  split at h
  · exact .inl ⟨‹_›, (Host.Outcome.next.inj h).symm⟩
  · split at h
    · exact .inr ⟨‹_›, _, (Host.Outcome.next.inj h).symm⟩
    · simp at h

theorem bg3_inv {a : Byte} (h : bg3 a k s = .next t) :
    (s.sdet = true ∧ t = goto (.bg4 a) k (confirmBoundary .startConfirmed s)) ∨
      (s.sdet = false ∧ ret (.bit false) k (raiseBusFailure s) = .next t) := by
  unfold bg3 at h
  split at h
  · exact .inl ⟨‹_›, (Host.Outcome.next.inj h).symm⟩
  · rename_i hdet
    exact .inr ⟨by simpa using hdet, h⟩

theorem en3_inv (h : en3 k s = .next t) :
    (s.pdet = true ∧ ret (.bit true) k (confirmBoundary .idle s) = .next t) ∨
      (s.pdet = false ∧ ret (.bit false) k (raiseBusFailure s) = .next t) := by
  unfold en3 at h
  split at h
  · exact .inl ⟨‹_›, h⟩
  · rename_i hdet
    exact .inr ⟨by simpa using hdet, h⟩

end

/-! ## the step -/

/-- The result of a procedure reaches its caller. -/
theorem ret_seqStep {r : Ret} {e : Entry} {k : List Entry} (hchain : callChain (e :: k) = true)
    (hproc : e.proc ≠ .operation) (hr : r.isOf e.proc = true) (s : State) :
    ∃ t, ret r k s = .next t ∧ SeqStep t e k ∧ FidxStep e s t := by
  obtain ⟨c, k, rfl, hcalled, -⟩ := callChain_caller hchain hproc
  obtain ⟨c', hbind⟩ := bindResult_of_called hr hcalled
  exact ⟨_, ret_eq hbind k s, .ret rfl hbind, .inl rfl⟩

/-- An operation stands on an empty stack, which its response leaves empty. -/
theorem respond_seqStep {e : Entry} {k : List Entry} (hchain : callChain (e :: k) = true) (hproc : e.proc = .operation)
    (ok nack ill : Bool) (s : State) :
    SeqStep (respond ok nack ill s) e k ∧ FidxStep e s (respond ok nack ill s) := by
  obtain rfl := callChain_operation hchain hproc
  exact ⟨.done rfl, .inl rfl⟩

/-- Every element of `FRAME` below `FIDX = 4` is there. -/
theorem frame_get_of_lt (f : Frame) : ∀ {i : BitVec 3}, i < 4 → ∃ v, f.get? i = some v := by
  have : ∀ i : BitVec 3, i < 4 → i = 0 ∨ i = 1 ∨ i = 2 ∨ i = 3 := by decide
  intro i hi
  obtain rfl | rfl | rfl | rfl := this i hi <;> exact ⟨_, rfl⟩

/-- Every element of `INITSEQ` below `k = 5` is there. -/
theorem initCmd_of_lt (p : Params) : ∀ {i : BitVec 3}, i < 5 → ∃ v, Params.initCmd? p i = some v := by
  have : ∀ i : BitVec 3, i < 5 → i = 0 ∨ i = 1 ∨ i = 2 ∨ i = 3 ∨ i = 4 := by decide
  intro i hi
  obtain rfl | rfl | rfl | rfl | rfl := this i hi <;> exact ⟨_, rfl⟩

theorem lt_of_le_of_ne_bound : ∀ i : BitVec 3, (i ≤ 4 → i ≠ 4 → i < 4) ∧ (i ≤ 5 → i ≠ 5 → i < 5) := by decide

theorem succ_le_of_lt_bound : ∀ i : BitVec 3, (i < 4 → i + 1 ≤ 4) ∧ (i < 5 → i + 1 ≤ 5) := by decide

/-- Both cases of WR.1: the byte is loaded, or the load is discarded and the write collision recorded (R134). -/
theorem loadShift_eq (v : Byte) (s : State) : loadShift v s = { s with
    wcol := s.wcol || s.loadBlocked
    txbuf := if s.loadBlocked then s.txbuf else v
    xbusy := s.xbusy || !s.loadBlocked } := by
  unfold loadShift
  split <;> simp [*, requestByte]

/-- Every labelled step answers from a stack the listings build, and in one of R42's four ways; only sendFrame writes `FIDX`. -/
theorem stepAt_seqStep {s : State} {e : Entry} {k : List Entry} (h : SeqOk s) (hs : s.seq = e :: k) :
    ∃ t, stepAt e k s = .next t ∧ SeqStep t e k ∧ FidxStep e s t := by
  obtain ⟨hchain, hbound, -, hindex⟩ := h
  rw [hs] at hchain hbound hindex
  simp only [List.head?_cons, Option.all_some] at hbound
  simp only [List.all_cons, Bool.and_eq_true] at hindex
  obtain ⟨hindex, -⟩ := hindex
  cases e with
  -- to the next label
  | in0 | in1 | in2 | in3 | wt1 | wt2 | bg1 | bg2 | wr2 | wr3 | en1 | en2 | dl0 | dl1 | hf0 | sc0 | sd0 | id0 =>
    exact ⟨_, rfl, .goto rfl rfl rfl ⟨rfl, rfl, rfl⟩, .inl rfl⟩
  | wt0 => exact ⟨_, rfl, .goto rfl rfl rfl ⟨rfl, rfl, rfl⟩, .inl (by rw [goto_fidx, recoverCollision_eq])⟩
  | wr1 v => exact ⟨_, rfl, .goto rfl rfl rfl ⟨rfl, rfl, rfl⟩, .inl (by rw [goto_fidx, loadShift_eq])⟩
  | sf5 =>
    simp only [Entry.indexOk, decide_eq_true_eq] at hindex
    have hle := (succ_le_of_lt_bound s.fidx).1 hindex
    exact ⟨_, rfl, .goto rfl rfl rfl ⟨rfl, decide_eq_true hle, rfl⟩, .inr ⟨rfl, hle⟩⟩
  | id2 i r =>
    simp only [Entry.indexOk, decide_eq_true_eq] at hindex
    obtain ⟨r, rfl⟩ := Option.isSome_iff_exists.1 hbound
    exact ⟨_, rfl, .goto rfl rfl rfl ⟨rfl, decide_eq_true ((succ_le_of_lt_bound i).2 hindex), rfl⟩, .inl rfl⟩
  -- into a procedure
  | hw0 | bg0 | bg4 | hb0 | wr0 | hx0 | en0 | he0 | sf0 | sf6 | hf1 | sc1 | hc0 | sd1 | hd0 | cl0 | cu0 =>
    exact ⟨_, rfl, .call rfl rfl rfl rfl ⟨rfl, rfl, rfl⟩ ⟨rfl, rfl, rfl⟩, .inl rfl⟩
  | sf1 => exact ⟨_, rfl, .call rfl rfl rfl rfl ⟨rfl, rfl, rfl⟩ ⟨rfl, rfl, rfl⟩, .inr ⟨rfl, show (0 : BitVec 3) ≤ 4 by decide⟩⟩
  | sf4 r =>
    obtain ⟨r, rfl⟩ := Option.isSome_iff_exists.1 hbound
    exact ⟨_, rfl, .call rfl rfl rfl rfl ⟨rfl, rfl, rfl⟩ ⟨rfl, hindex, rfl⟩, .inl rfl⟩
  | cl1 r => exact ⟨_, rfl, .call rfl rfl rfl rfl ⟨rfl, rfl, rfl⟩ ⟨hbound, rfl, rfl⟩, .inl rfl⟩
  -- to the next label or into a procedure
  | sf3 =>
    simp only [Entry.indexOk, decide_eq_true_eq] at hindex
    by_cases h4 : s.fidx = 4
    · exact ⟨goto .sf6 k s, if_pos h4, .goto rfl rfl rfl ⟨rfl, rfl, rfl⟩, .inl rfl⟩
    · have hlt := (lt_of_le_of_ne_bound s.fidx).1 hindex h4
      obtain ⟨v, hv⟩ := frame_get_of_lt s.frame hlt
      exact ⟨call (.wr0 v) (.sf4 none) k s, by simp only [stepAt, sf3, if_neg h4, hv],
        .call rfl rfl rfl rfl ⟨rfl, rfl, rfl⟩ ⟨rfl, decide_eq_true hlt, rfl⟩, .inl rfl⟩
  | id1 i =>
    simp only [Entry.indexOk, decide_eq_true_eq] at hindex
    by_cases h5 : i = 5
    · exact ⟨goto .id3 k s, if_pos h5, .goto rfl rfl rfl ⟨rfl, rfl, rfl⟩, .inl rfl⟩
    · have hlt := (lt_of_le_of_ne_bound i).2 hindex h5
      obtain ⟨v, hv⟩ := initCmd_of_lt s.cfg hlt
      exact ⟨call (.sc0 v) (.id2 i none) k s, by simp only [stepAt, id1, if_neg h5, hv],
        .call rfl rfl rfl rfl ⟨rfl, rfl, rfl⟩ ⟨rfl, decide_eq_true hlt, rfl⟩, .inl rfl⟩
  -- back to the caller
  | wt3 | bg5 | wr4 | dl2 => exact ret_seqStep hchain (by simp [Entry.proc]) rfl _
  | en3 =>
    by_cases hdet : s.pdet = true
    · simp only [stepAt, en3, if_pos hdet]; exact ret_seqStep hchain (by simp [Entry.proc]) rfl (confirmBoundary .idle s)
    · simp only [stepAt, en3, if_neg hdet]; exact ret_seqStep hchain (by simp [Entry.proc]) rfl (raiseBusFailure s)
  | sf7 r =>
    obtain ⟨r, rfl⟩ := Option.isSome_iff_exists.1 hbound
    exact ret_seqStep hchain (by simp [Entry.proc]) rfl _
  | sc2 r | sd2 r =>
    obtain ⟨r, rfl⟩ := Option.isSome_iff_exists.1 hbound
    exact ret_seqStep hchain (by simp [Entry.proc]) rfl _
  -- to the next label or back to the caller
  | bg3 a =>
    by_cases hdet : s.sdet = true
    · exact ⟨_, if_pos hdet, .goto rfl rfl rfl ⟨rfl, rfl, rfl⟩, .inl rfl⟩
    · simp only [stepAt, bg3, if_neg hdet]; exact ret_seqStep hchain (by simp [Entry.proc]) rfl (raiseBusFailure s)
  | sf2 r =>
    obtain ⟨r, rfl⟩ := Option.isSome_iff_exists.1 hbound
    simp only [stepAt, sf2, withBound]
    split
    · exact ⟨_, rfl, .goto rfl rfl rfl ⟨rfl, hindex, rfl⟩, .inl rfl⟩
    · split
      · exact ret_seqStep hchain (by simp [Entry.proc]) rfl _
      · exact ⟨_, rfl, .goto rfl rfl rfl ⟨rfl, hindex, rfl⟩, .inl rfl⟩
  -- to the response
  | in4 | hw1 | id3 | rv0 => exact ⟨_, rfl, respond_seqStep hchain rfl _ _ _ s⟩
  | hb1 r | hx1 r | he1 r | hf2 r | hc1 r | hd1 r | cl2 r | cu1 r =>
    obtain ⟨r, rfl⟩ := Option.isSome_iff_exists.1 hbound
    exact ⟨_, rfl, respond_seqStep hchain rfl _ _ _ s⟩

/-! ## the stack of every run -/

/-- A step leaves a stack the listings build. -/
theorem SeqOk.of_seqStep {s t : State} {e : Entry} {k : List Entry} (h : SeqOk s) (hs : s.seq = e :: k)
    (hstep : SeqStep t e k) (hfidx : FidxStep e s t) : SeqOk t := by
  obtain ⟨hchain, -, hkept, hindex⟩ := h
  rw [hs] at hchain hkept hindex
  have hbelow : k.all (Entry.indexOk t.fidx) = true := by
    rw [List.all_cons, Bool.and_eq_true] at hindex
    obtain hfidx | ⟨hproc, -⟩ := hfidx
    · rw [hfidx]; exact hindex.2
    · obtain ⟨-, -, -, hany⟩ := callChain_below_outer hchain (by rw [hproc]; rfl)
      rw [hany t.fidx s.fidx]; exact hindex.2
  simp only [List.all_cons, Bool.and_eq_true] at hkept
  cases hstep with
  | goto seq proc bound fits =>
    unfold SeqOk
    rw [seq]
    exact ⟨callChain_goto proc hchain, bound, by simp [fits.kept, hkept.2], by simp [fits.index, hbelow]⟩
  | call seq proc called bound fits fits' =>
    unfold SeqOk
    rw [seq]
    exact ⟨callChain_call called (callChain_goto proc hchain), bound, by simp [fits.kept, fits'.kept, hkept.2],
      by simp [fits.index, fits'.index, hbelow]⟩
  | ret seq bind =>
    have hc := rebound_of_bindResult bind
    simp only [callChain, List.all_cons, Bool.and_eq_true] at hchain hkept hbelow
    obtain ⟨-, hc0, hkept⟩ := hkept
    unfold SeqOk
    rw [seq]
    exact ⟨callChain_goto hc.proc hchain.2, hc.bound hc0, by simp [hc.kept hc0, hkept], by simp [hc.index, hbelow]⟩
  | done seq =>
    unfold SeqOk
    rw [seq]
    exact ⟨rfl, rfl, rfl, rfl⟩

/-- ENG's step answers, with its four ways, or holds. -/
theorem engStep_answers {s : State} (h : SeqOk s) : ∃ t, engStep s = .next t ∧ SeqOk t := by
  unfold engStep
  split
  · exact ⟨s, rfl, h⟩
  · rename_i e k hs
    split
    · exact ⟨s, rfl, h⟩
    · obtain ⟨t, ht, hstep, hfidx⟩ := stepAt_seqStep h hs
      exact ⟨t, ht, h.of_seqStep hs hstep hfidx⟩

/-- Every agent's step answers, and leaves a stack the listings build. -/
theorem agentStep_answers (a : Turn) {s : State} (h : SeqOk s) : ∃ t, agentStep a s = .next t ∧ SeqOk t := by
  cases a with
  | eng => exact engStep_answers (s := s.elapse) h
  | bus p => exact ⟨_, rfl, by rw [busStep_frame]; exact h⟩
  | tmr => exact ⟨_, rfl, h⟩
  | rst => exact ⟨_, rfl, rfl, rfl, rfl, rfl⟩

/-- Acceptance puts an operation's first entry on the empty stack. -/
theorem accept_seqOk (i : Instr) (s : State) : SeqOk (accept (encode i) i.entry s) := by
  cases i <;> exact ⟨rfl, rfl, rfl, rfl⟩

/-- What a command's execution is, as acceptance and a run. -/
theorem exec_of_cmdReady {s : State} (h : s.cmdReady = true) (i : Instr) :
    exec i s = run (opFuel s) (accept (encode i) i.entry s) := by
  rw [exec_eq_issue_entry, issue, if_pos h]

theorem idle_of_cmdReady {s : State} (h : s.cmdReady = true) : s.seq = [] ∧ s.resetDue = false := by
  simpa [State.cmdReady] using h

theorem exec_of_not_cmdReady {s : State} (h : s.cmdReady = false) (i : Instr) : exec i s = .next s := by
  rw [exec_eq_issue_entry, issue, h]; rfl

/-- Settles O48: the stack of an accepted command is one the listings build, in whatever state, and from such a stack every
step answers. -/
theorem everyCommandHasANextState : Obligations.EveryCommandHasANextState := by
  intro i s
  cases h : s.cmdReady with
  | false => exact ⟨s, exec_of_not_cmdReady h i⟩
  | true =>
    rw [exec_of_cmdReady h]
    obtain ⟨t, ht, -⟩ := run_answers (P := SeqOk) (fun a s hs _ _ => agentStep_answers a hs) (opFuel s) (accept_seqOk i s)
    exact ⟨t, ht⟩

/-- A step of the machine is a command's execution or one agent's step. -/
theorem step_cases (s : State) :
    (∃ w ws, s.env.cmds = w :: ws ∧ s.cmdReady = true ∧ step s = exec (decodeWord w) (s.withCmds ws)) ∨
      (s.accepted = none ∧ step s = microStep s) := by
  unfold step
  cases hacc : s.accepted with
  | none => exact .inr ⟨rfl, rfl⟩
  | some x =>
    left
    unfold State.accepted at hacc
    split at hacc
    · rename_i w ws hcmds
      split at hacc
      · rename_i hready
        rw [Option.some.injEq] at hacc
        subst hacc
        exact ⟨w, ws, hcmds, hready, rfl⟩
      · simp at hacc
    · simp at hacc

/-- Settles O45: a step is the execution of a command, which always answers, or one agent's, which answers from the stack of
the invariant. -/
theorem noStepStopsUnderTheInvariant : Obligations.NoStepStopsUnderTheInvariant := by
  intro s h
  obtain ⟨w, ws, -, -, hstep⟩ | ⟨-, hstep⟩ := step_cases s
  · obtain ⟨t, ht⟩ := everyCommandHasANextState (decodeWord w) (s.withCmds ws)
    exact ⟨t, hstep.trans ht⟩
  · rw [hstep, microStep]
    cases mover s with
    | none => exact ⟨s, rfl⟩
    | some a =>
      obtain ⟨t, ht, -⟩ := agentStep_answers a h.seqOk
      exact ⟨t, ht⟩

/-! ## the depth of the stack -/

/-- The entries there can be from one of the procedure down to the operation (R140's call graph). -/
def Proc.depth : Proc → Nat
  | .operation => 1
  | .sendCommand | .sendCharacter => 2
  | .sendFrame => 3
  | .beginTransaction | .endTransaction | .delay => 4
  | .writeByte => 5
  | .waitReady => 6

/-- A callee is one deeper than its caller may be. -/
theorem depth_lt_of_called {c : Entry} {p : Proc} (h : c.called = some p) : c.proc.depth < p.depth := by
  cases c <;> simp only [Entry.called, Option.some.injEq, reduceCtorEq] at h <;> subst h <;> simp [Entry.proc, Proc.depth]

theorem callChain_length_le {k : List Entry} : ∀ {e : Entry}, callChain (e :: k) = true → (e :: k).length ≤ e.proc.depth := by
  induction k with
  | nil =>
    intro e h
    simp only [callChain, beq_iff_eq] at h
    rw [h]
    exact Nat.le_refl 1
  | cons c k ih =>
    intro e h
    simp only [callChain, Bool.and_eq_true, beq_iff_eq] at h
    obtain ⟨hcalled, hchain⟩ := h
    exact Nat.succ_le_of_lt (lt_of_le_of_lt (ih hchain) (depth_lt_of_called hcalled))

/-- Settles O46: the call graph has no path longer than six. -/
theorem sequencerNeverDeeperThanSix : Obligations.SequencerNeverDeeperThanSix := by
  intro s h
  obtain ⟨hchain, -⟩ := h.seqOk
  cases hs : s.seq with
  | nil => exact Nat.zero_le 6
  | cons e k =>
    rw [hs] at hchain
    refine (callChain_length_le hchain).trans ?_
    cases e.proc <;> decide

end Sys2Proof.Machine
end

section
/-! The invariant under ENG's steps (40_engine_ops.md R139, R140). Where the invariant holds and ENG is not at a hold, nothing is
pending; most labels then change nothing the invariant speaks of but the stack, and the others are told one by one. -/

namespace Sys2Proof.Machine

/-! ## what the invariant says of the flags -/

/-- What the invariant reads of a state besides `SEQ` and `FIDX`. -/
structure Flags where
  en : Bool
  cfgSlew : Bool
  cfgMaster : Bool
  wcol : Bool
  xdone : Bool
  xbusy : Bool
  rbusy : Bool
  spend : Bool
  ppend : Bool
  sdet : Bool
  pdet : Bool
  err : Bool
  tstate : TState
  dly : Ticks
  lastErr : Bool

/-- A state's. -/
def State.flags (s : State) : Flags :=
  ⟨s.en, s.cfgSlew, s.cfgMaster, s.wcol, s.xdone, s.xbusy, s.rbusy, s.spend, s.ppend, s.sdet, s.pdet, s.err, s.tstate, s.dly,
    lastErr s.trace⟩

/-- Which of R39's marks a stack carries. -/
def marksOf (q : List Entry) : Bool × Bool × Bool := (q.any Entry.startAsked, q.any Entry.startSeen, q.any Entry.stopAsked)

theorem tstateAgrees_congr {q q' : List Entry} (h : marksOf q = marksOf q') (t : TState) :
    tstateAgrees q t = tstateAgrees q' t := by
  simp only [marksOf, Prod.mk.injEq] at h
  obtain ⟨h1, h2, h3⟩ := h
  simp only [tstateAgrees, h1, h2, h3]

/-- Without a mark, `TSTATE` is one of the three that last. -/
theorem tstateAgrees_of_no_marks {q : List Entry} (h : marksOf q = (false, false, false)) (t : TState) :
    tstateAgrees q t = (t == .idle || t == .addressSent || t == .dataSent) := by
  simp only [marksOf, Prod.mk.injEq] at h
  obtain ⟨h1, h2, h3⟩ := h
  simp [tstateAgrees, h1, h2, h3]

/-- A byte that returns keeps the agreement: it takes ADDRESS_SENT to DATA_SENT and leaves every other state. -/
theorem tstateAgrees_afterByte {q : List Entry} {t : TState} (h : tstateAgrees q t = true) :
    tstateAgrees q t.afterByte = true := by
  cases t with
  | addressSent =>
    unfold tstateAgrees at h ⊢
    split at h
    · simp at h
    · split at h
      · simp at h
      · split at h
        · simp at h
        · simp [*, TState.afterByte]
  | idle | startPending | startConfirmed | dataSent | stopPending => exact h

/-- Below beginTransaction and endTransaction no start and no stop is under way. -/
theorem marksOf_below {e : Entry} {k : List Entry} (hchain : callChain (e :: k) = true)
    (he : e.proc = .beginTransaction ∨ e.proc = .endTransaction) : marksOf k = (false, false, false) := by
  obtain ⟨c, k, rfl, hcalled, hchain⟩ := callChain_caller hchain (by obtain he | he := he <;> simp [he])
  have hc : c.proc.outer = true ∧ c.startAsked = false ∧ c.startSeen = false ∧ c.stopAsked = false := by
    cases c with
    | hb1 r | sf2 r | he1 r | sf7 r => exact ⟨rfl, rfl, rfl, rfl⟩
    | _ => obtain he | he := he <;> simp [he, Entry.called] at hcalled
  obtain ⟨houter, h1, h2, h3⟩ := hc
  obtain ⟨k1, k2, k3, -⟩ := callChain_below_outer hchain houter
  simp [marksOf, h1, h2, h3, k1, k2, k3]

/-- Binding a result in the caller leaves the marks. -/
theorem marksOf_rebound {c c' : Entry} {r : Ret} (h : bindResult r c = some c') (k : List Entry) :
    marksOf (c' :: k) = marksOf (c :: k) := by
  have hmarks := (rebound_of_bindResult h).marks
  simp only [Prod.mk.injEq] at hmarks
  obtain ⟨h1, h2, h3⟩ := hmarks
  simp only [marksOf, List.any_cons, h1, h2, h3]

/-- Binding a result leads to no label of INIT. -/
theorem rebound_ne_in1 {c c' : Entry} {r : Ret} (h : bindResult r c = some c') : c' ≠ .in1 := by
  unfold bindResult at h
  split at h <;> simp only [Option.some.injEq, reduceCtorEq] at h <;> subst h <;> simp

/-! ## the labels that change nothing of it -/

/-- The labels that write none of what the invariant reads, where nothing is pending and `WCOL` and `XDONE` are clear. -/
def Entry.plain : Entry → Bool
  | .in0 | .in1 | .bg1 _ | .bg2 _ | .bg3 _ | .bg5 | .wr1 _ | .wr2 | .wr3 | .wr4 | .en1 | .en2 | .en3 | .dl0 _ => false
  | _ => true

/-- A step that moves in `SEQ` alone, as far as the invariant sees. -/
structure PlainStep (s : State) (q : List Entry) (t : State) : Prop where
  flags : t.flags = s.flags
  marks : marksOf t.seq = marksOf q
  notIn1 : t.seq.head? ≠ some .in1

/-- `ret` from a label with no mark. -/
theorem ret_plainStep {s u t : State} {r : Ret} {e : Entry} {k : List Entry} (hu : u.flags = s.flags)
    (he : (e.startAsked, e.startSeen, e.stopAsked) = (false, false, false)) (h : ret r k u = .next t) :
    PlainStep s (e :: k) t := by
  obtain ⟨c, c', k, rfl, hbind, rfl⟩ := ret_inv h
  simp only [Prod.mk.injEq] at he
  obtain ⟨h1, h2, h3⟩ := he
  refine ⟨hu, (marksOf_rebound hbind k).trans ?_, by simpa using rebound_ne_in1 hbind⟩
  simp only [marksOf, List.any_cons, h1, h2, h3, Bool.false_or]

/-- The response of an operation. -/
theorem respond_plainStep {s : State} {e : Entry} (he : (e.startAsked, e.startSeen, e.stopAsked) = (false, false, false))
    (ok nack ill : Bool) : PlainStep s [e] (respond ok nack ill s) := by
  simp only [Prod.mk.injEq] at he
  obtain ⟨h1, h2, h3⟩ := he
  refine ⟨?_, by simp [marksOf, h1, h2, h3], by simp⟩
  simp only [State.flags, respond, emit, lastErr_append]

theorem stepAt_plainStep {s t : State} {e : Entry} {k : List Entry} (he : e.plain = true) (hw : s.wcol = false)
    (hx : s.xdone = false) (hchain : callChain (e :: k) = true) (h : stepAt e k s = .next t) : PlainStep s (e :: k) t := by
  have hrespond (he : e.proc = .operation) (hm : (e.startAsked, e.startSeen, e.stopAsked) = (false, false, false))
      (ok nack ill : Bool) (ht : respond ok nack ill s = t) : PlainStep s (e :: k) t := by
    obtain rfl := callChain_operation hchain he
    exact ht ▸ respond_plainStep hm ok nack ill
  cases e with
  | in0 | in1 | bg1 | bg2 | bg3 | bg5 | wr1 | wr2 | wr3 | wr4 | en1 | en2 | en3 | dl0 => simp [Entry.plain] at he
  | in2 | wt1 | hw0 | bg0 | bg4 | hb0 | wr0 | hx0 | en0 | he0 | dl1 | sf0 | sf1 | sf5 | sf6 | hf0 | hf1 | sc0 | sc1 | hc0
    | sd0 | sd1 | hd0 | id0 | cl0 | cl1 | cu0 =>
    obtain rfl := Host.Outcome.next.inj h
    exact ⟨rfl, rfl, by simp⟩
  | in3 | wt2 =>
    obtain rfl := Host.Outcome.next.inj h
    exact ⟨by simp [State.flags, hx], rfl, by simp⟩
  | wt0 =>
    obtain rfl := Host.Outcome.next.inj h
    exact ⟨by rw [recoverCollision_eq]; simp [State.flags, hw], rfl, by simp⟩
  | wt3 => exact ret_plainStep rfl rfl h
  | dl2 n => exact ret_plainStep (by simp [State.flags, lastErr_append]) rfl h
  | sf2 r =>
    obtain ⟨b, rfl, ⟨nack, rfl⟩ | h⟩ := sf2_inv h
    · exact ⟨rfl, rfl, by simp⟩
    · exact ret_plainStep (by rfl) rfl h
  | sf3 => obtain ⟨-, rfl⟩ | ⟨-, v, rfl⟩ := sf3_inv h <;> exact ⟨rfl, rfl, by simp⟩
  | id1 i => obtain ⟨-, rfl⟩ | ⟨-, v, rfl⟩ := id1_inv h <;> exact ⟨rfl, rfl, by simp⟩
  | sf4 r | id2 i r =>
    obtain ⟨r, rfl, h⟩ := withBound_inv h
    obtain rfl := Host.Outcome.next.inj h
    exact ⟨rfl, rfl, by simp⟩
  | sf7 r | sc2 r | sd2 r =>
    obtain ⟨r, rfl, h⟩ := withBound_inv h
    exact ret_plainStep (by rfl) rfl h
  | in4 | hw1 | id3 | rv0 => exact hrespond rfl rfl _ _ _ (Host.Outcome.next.inj h)
  | hb1 r | hx1 r | he1 r | hf2 r | hc1 r | hd1 r | cl2 r | cu1 r =>
    obtain ⟨r, rfl, h⟩ := withBound_inv h
    exact hrespond rfl rfl _ _ _ (Host.Outcome.next.inj h)

/-! ## the invariant after a step -/

/-- Where ENG can move, the invariant leaves nothing pending, and `XDONE` is set at most at WR.2 and WR.3. -/
theorem Inv.quiet {s : State} (h : Inv s) (hh : s.held = false) : Quiet s := by
  have hhold {b : Bool} {p : List Entry → Bool} (hb : b = true → p s.seq = true) (hp : p s.seq = true → b = true → s.held = true) :
      b = false := by
    cases b with
    | false => rfl
    | true => exact absurd (hp (hb rfl) rfl) (by simp [hh])
  refine ⟨?_, h.noReceive, hhold h.startHeld ?_, hhold h.stopHeld ?_, ?_⟩
  · cases hx : s.xbusy with
    | false => rfl
    | true =>
      have hd : s.xdone = false := by
        cases hd : s.xdone with
        | false => rfl
        | true => exact hx.symm.trans (h.doneNotBusy hd)
      have hat := h.byteHeld hx
      unfold atByteHold at hat
      split at hat
      · rename_i hs; simp [State.held, hs, hd] at hh
      · simp at hat
  · intro hat hp
    unfold atStartHold at hat
    split at hat
    · rename_i hs; simp [State.held, hs, hp]
    · simp at hat
  · intro hat hp
    unfold atStopHold at hat
    split at hat
    · rename_i hs; simp [State.held, hs, hp]
    · simp at hat
  · by_contra hd
    have hat := h.delayHeld hd
    unfold atDelayHold at hat
    split at hat
    · rename_i hs; simp [State.held, hs] at hh; exact hd hh
    · simp at hat

/-- The invariant of a state in which nothing is pending. -/
theorem Inv.of_quiet {t : State} (seqOk : SeqOk t) (quiet : Quiet t) (noWcol : t.wcol = false)
    (done : t.xdone = true → afterByteHold t.seq = true) (fidx : t.fidx ≤ 4) (one : ¬(t.sdet = true ∧ t.pdet = true))
    (configured : t.en = true → t.cfgSlew = true ∧ t.cfgMaster = true) (slew : t.seq.head? = some .in1 → t.cfgSlew = true)
    (tstate : tstateAgrees t.seq t.tstate = true) (err : t.err = lastErr t.trace) : Inv t where
  seqOk := seqOk
  startHeld := by simp [quiet.noStart]
  byteHeld := by simp [quiet.noByte]
  stopHeld := by simp [quiet.noStop]
  noReceive := quiet.noReceive
  noWriteCollision := noWcol
  doneSeen := fun h => by simp [done h]
  doneNotBusy := fun _ => quiet.noByte
  delayHeld := fun h => absurd quiet.noDelay h
  fidxRange := fidx
  oneCondition := one
  configured := configured
  slewFirst := slew
  tstateOk := tstate
  errTraced := err

/-- A plain step keeps the invariant. -/
theorem Inv.plainStep {s t : State} (h : Inv s) (hq : Quiet s) (hx : s.xdone = false) (hseq : SeqOk t) (hf : t.fidx ≤ 4)
    (hp : PlainStep s s.seq t) : Inv t := by
  obtain ⟨hflags, hmarks, hin1⟩ := hp
  simp only [State.flags, Flags.mk.injEq] at hflags
  obtain ⟨en, slew, master, wcol, xdone, xbusy, rbusy, spend, ppend, sdet, pdet, err, tstate, dly, last⟩ := hflags
  refine Inv.of_quiet hseq ⟨xbusy.trans hq.noByte, rbusy.trans hq.noReceive, spend.trans hq.noStart, ppend.trans hq.noStop,
    dly.trans hq.noDelay⟩ (wcol.trans h.noWriteCollision) (by simp [xdone, hx]) hf (by rw [sdet, pdet]; exact h.oneCondition)
    (by rw [en, slew, master]; exact h.configured) (fun h' => absurd h' hin1) ?_ (by rw [err, last]; exact h.errTraced)
  rw [tstateAgrees_congr hmarks, tstate]
  exact h.tstateOk

/-- A result handed to a caller that stands under no mark, or under the mark `TSTATE` has. -/
theorem Inv.of_ret {u t : State} {r : Ret} {k : List Entry} (ht : ret r k u = .next t) (seqOk : SeqOk t) (quiet : Quiet u)
    (noWcol : u.wcol = false) (done : u.xdone = false) (fidx : u.fidx ≤ 4) (one : ¬(u.sdet = true ∧ u.pdet = true))
    (configured : u.en = true → u.cfgSlew = true ∧ u.cfgMaster = true) (tstate : tstateAgrees k u.tstate = true)
    (err : u.err = lastErr u.trace) : Inv t := by
  obtain ⟨c, c', k, rfl, hbind, rfl⟩ := ret_inv ht
  have hin1 : (c' :: k).head? ≠ some .in1 := by simpa using rebound_ne_in1 hbind
  exact Inv.of_quiet seqOk ⟨quiet.noByte, quiet.noReceive, quiet.noStart, quiet.noStop, quiet.noDelay⟩ noWcol
    (fun h => absurd (done.symm.trans h) (by simp)) fidx one configured (fun h => absurd h hin1)
    ((tstateAgrees_congr (marksOf_rebound hbind k) _).trans tstate) err

/-- The labels of INIT, of the holds, and of the checks of start, byte and stop: each keeps the invariant by what it writes. -/
theorem Inv.specialStep {s t : State} {e : Entry} {k : List Entry} (h : Inv s) (hs : s.seq = e :: k) (hq : Quiet s)
    (hx : s.xdone = true → e = .wr2 ∨ e = .wr3) (he : e.plain = false) (hseq : SeqOk t)
    (ht : stepAt e k s = .next t) : Inv t := by
  obtain ⟨noByte, noReceive, noStart, noStop, noDelay⟩ := hq
  have hchain : callChain (e :: k) = true := hs ▸ h.seqOk.1
  have hagrees : tstateAgrees (e :: k) s.tstate = true := hs ▸ h.tstateOk
  have hx0 (h2 : e ≠ .wr2) (h3 : e ≠ .wr3) : s.xdone = false := by
    cases hd : s.xdone with
    | false => rfl
    | true => obtain h' | h' := hx hd <;> contradiction
  cases e with
  | in0 =>
    obtain rfl := Host.Outcome.next.inj ht
    exact Inv.of_quiet hseq ⟨noByte, noReceive, noStart, noStop, noDelay⟩ h.noWriteCollision
      (fun hd => absurd ((hx0 (by simp) (by simp)).symm.trans hd) (by simp)) h.fidxRange h.oneCondition
      (fun hen => ⟨rfl, (h.configured hen).2⟩) (fun _ => rfl) hagrees h.errTraced
  | in1 =>
    obtain rfl := Host.Outcome.next.inj ht
    exact Inv.of_quiet hseq ⟨noByte, noReceive, noStart, noStop, noDelay⟩ h.noWriteCollision
      (fun hd => absurd ((hx0 (by simp) (by simp)).symm.trans hd) (by simp)) h.fidxRange h.oneCondition
      (fun _ => ⟨h.slewFirst (by simp [hs]), rfl⟩) (by simp) hagrees h.errTraced
  | bg1 a =>
    have hd := hx0 (by simp) (by simp)
    obtain rfl := Host.Outcome.next.inj ht
    exact { h with
      seqOk := hseq, startHeld := fun _ => rfl, byteHeld := by simp [noByte], stopHeld := by simp [noStop]
      doneSeen := by simp [hd], doneNotBusy := by simp [hd], delayHeld := by simp [noDelay], slewFirst := by simp
      tstateOk := by simp [tstateAgrees, Entry.startAsked] }
  | bg2 a =>
    obtain rfl := Host.Outcome.next.inj ht
    exact Inv.of_quiet hseq ⟨noByte, noReceive, noStart, noStop, noDelay⟩ h.noWriteCollision
      (fun hd => absurd ((hx0 (by simp) (by simp)).symm.trans hd) (by simp)) h.fidxRange h.oneCondition h.configured (by simp)
      hagrees h.errTraced
  | bg3 a =>
    have hd := hx0 (by simp) (by simp)
    have hmarks := marksOf_below hchain (.inl rfl)
    obtain ⟨-, rfl⟩ | ⟨-, ht⟩ := bg3_inv ht
    · refine Inv.of_quiet hseq ⟨noByte, noReceive, noStart, noStop, noDelay⟩ h.noWriteCollision
        (fun h' => absurd (hd.symm.trans h') (by simp)) h.fidxRange h.oneCondition h.configured (by simp) ?_
        (by simp [lastErr_append])
      simp only [marksOf, Prod.mk.injEq] at hmarks
      simp [tstateAgrees, hmarks.1, Entry.startAsked, Entry.startSeen]
    · exact Inv.of_ret ht hseq ⟨noByte, noReceive, noStart, noStop, noDelay⟩ h.noWriteCollision hd h.fidxRange h.oneCondition
        h.configured (by simp [tstateAgrees_of_no_marks hmarks]) (by simp [lastErr_append])
  | bg5 =>
    have hmarks := marksOf_below hchain (.inl rfl)
    exact Inv.of_ret ht hseq ⟨noByte, noReceive, noStart, noStop, noDelay⟩ h.noWriteCollision (hx0 (by simp) (by simp))
      h.fidxRange h.oneCondition h.configured (by simp [tstateAgrees_of_no_marks hmarks]) h.errTraced
  | wr1 v =>
    have hd := hx0 (by simp) (by simp)
    have hload : s.loadBlocked = false := by simp [State.loadBlocked, noByte, noStart, noStop]
    obtain rfl := Host.Outcome.next.inj ht
    rw [show loadShift v s = requestByte v s by simp [loadShift, hload]] at hseq ⊢
    exact { h with
      seqOk := hseq, startHeld := by simp [noStart], byteHeld := fun _ => rfl, stopHeld := by simp [noStop]
      doneSeen := by simp [hd], doneNotBusy := by simp [hd], delayHeld := by simp [noDelay], slewFirst := by simp
      tstateOk := hagrees }
  | wr2 =>
    obtain rfl := Host.Outcome.next.inj ht
    exact Inv.of_quiet hseq ⟨noByte, noReceive, noStart, noStop, noDelay⟩ h.noWriteCollision (fun _ => rfl) h.fidxRange
      h.oneCondition h.configured (by simp) hagrees h.errTraced
  | wr3 =>
    obtain rfl := Host.Outcome.next.inj ht
    exact Inv.of_quiet hseq ⟨noByte, noReceive, noStart, noStop, noDelay⟩ h.noWriteCollision (by simp) h.fidxRange
      h.oneCondition h.configured (by simp) hagrees h.errTraced
  | wr4 =>
    exact Inv.of_ret ht hseq ⟨noByte, noReceive, noStart, noStop, noDelay⟩ h.noWriteCollision (hx0 (by simp) (by simp))
      h.fidxRange h.oneCondition h.configured (tstateAgrees_afterByte hagrees) h.errTraced
  | en1 =>
    have hd := hx0 (by simp) (by simp)
    obtain rfl := Host.Outcome.next.inj ht
    have hmarks := marksOf_below hchain (.inr rfl)
    simp only [marksOf, Prod.mk.injEq] at hmarks
    obtain ⟨h1, h2, -⟩ := hmarks
    exact { h with
      seqOk := hseq, startHeld := by simp [noStart], byteHeld := by simp [noByte], stopHeld := fun _ => rfl
      doneSeen := by simp [hd], doneNotBusy := by simp [hd], delayHeld := by simp [noDelay], slewFirst := by simp
      tstateOk := by simp [tstateAgrees, h1, h2, Entry.startAsked, Entry.startSeen, Entry.stopAsked] }
  | en2 =>
    obtain rfl := Host.Outcome.next.inj ht
    exact Inv.of_quiet hseq ⟨noByte, noReceive, noStart, noStop, noDelay⟩ h.noWriteCollision
      (fun hd => absurd ((hx0 (by simp) (by simp)).symm.trans hd) (by simp)) h.fidxRange h.oneCondition h.configured (by simp)
      hagrees h.errTraced
  | en3 =>
    have hd := hx0 (by simp) (by simp)
    have hmarks := marksOf_below hchain (.inr rfl)
    obtain ⟨-, ht⟩ | ⟨-, ht⟩ := en3_inv ht <;>
      exact Inv.of_ret ht hseq ⟨noByte, noReceive, noStart, noStop, noDelay⟩ h.noWriteCollision hd h.fidxRange h.oneCondition
        h.configured (by simp [tstateAgrees_of_no_marks hmarks]) (by simp [lastErr_append])
  | dl0 n =>
    have hd := hx0 (by simp) (by simp)
    obtain rfl := Host.Outcome.next.inj ht
    exact { h with
      seqOk := hseq, startHeld := by simp [noStart], byteHeld := by simp [noByte], stopHeld := by simp [noStop]
      doneSeen := by simp [hd], doneNotBusy := by simp [hd], delayHeld := fun _ => rfl, slewFirst := by simp
      tstateOk := hagrees }
  | _ => simp [Entry.plain] at he

theorem Inv.engStep {s t : State} (h : Inv s) (ht : engStep s = .next t) : Inv t := by
  unfold Machine.engStep at ht
  split at ht
  · exact Host.Outcome.next.inj ht ▸ h
  · rename_i e k hs
    by_cases hh : s.held = true
    · rw [if_pos hh] at ht
      exact Host.Outcome.next.inj ht ▸ h
    · rw [if_neg hh] at ht
      have hq := h.quiet (by simpa using hh)
      obtain ⟨t', ht', hstep, hfidx⟩ := stepAt_seqStep h.seqOk hs
      obtain rfl : t' = t := Host.Outcome.next.inj (ht'.symm.trans ht)
      have hseq := h.seqOk.of_seqStep hs hstep hfidx
      have hx : s.xdone = true → e = .wr2 ∨ e = .wr3 := by
        intro hd
        have hat := h.doneSeen hd
        rw [hs] at hat
        cases e <;> simp [atByteHold, afterByteHold] at hat ⊢
      cases hp : e.plain with
      | false => exact h.specialStep hs hq hx hp hseq ht
      | true =>
        have hd : s.xdone = false := by
          cases hd : s.xdone with
          | false => rfl
          | true => obtain rfl | rfl := hx hd <;> simp [Entry.plain] at hp
        refine h.plainStep hq hd hseq ?_ (hs ▸ stepAt_plainStep hp h.noWriteCollision hd (hs ▸ h.seqOk.1) ht)
        obtain hf | ⟨-, hf⟩ := hfidx
        · exact hf ▸ h.fidxRange
        · exact hf

theorem Inv.agentStep {s t : State} (h : Inv s) {a : Turn} (ht : agentStep a s = .next t) : Inv t := by
  cases a with
  | eng => exact h.elapse.engStep ht
  | bus p => exact Host.Outcome.next.inj ht ▸ h.elapse.bus p
  | tmr => exact Host.Outcome.next.inj ht ▸ h.elapse.tick
  | rst => exact Host.Outcome.next.inj ht ▸ Inv.reset s.elapse

theorem Inv.exec {s t : State} (h : Inv s) {i : Instr} (ht : exec i s = .next t) : Inv t := by
  cases hr : s.cmdReady with
  | false => exact Host.Outcome.next.inj ((exec_of_not_cmdReady hr i).symm.trans ht) ▸ h
  | true =>
    rw [exec_of_cmdReady hr] at ht
    have hidle : s.seq = [] := (idle_of_cmdReady hr).1
    exact run_induct (P := Inv) (fun _ _ _ hP _ _ => hP.agentStep) (h.accept hidle i) ht

/-- Settles O44: a command's execution is a run of agents' steps, and each agent's step keeps the invariant: ENG's by its label,
the others by what they write. -/
theorem everyStepKeepsTheInvariant : Obligations.EveryStepKeepsTheInvariant := by
  refine fun s t h => ⟨fun ht => ?_, fun a => h.agentStep⟩
  obtain ⟨w, ws, -, -, hstep⟩ | ⟨-, hstep⟩ := step_cases s
  · exact (h.withCmds ws).exec (hstep.symm.trans ht)
  · rw [hstep, microStep] at ht
    split at ht
    · exact Host.Outcome.next.inj ht ▸ h
    · exact h.agentStep ht

/-- The three holds of the bus are three labels. -/
theorem holds_exclusive (q : List Entry) : (atStartHold q && atByteHold q) = false ∧ (atStartHold q && atStopHold q) = false ∧
    (atByteHold q && atStopHold q) = false := by
  cases q with
  | nil => exact ⟨rfl, rfl, rfl⟩
  | cons e k => cases e <;> exact ⟨rfl, rfl, rfl⟩

theorem count_le_one_of_exclusive : ∀ a b c : Bool, ¬(a = true ∧ b = true) → ¬(a = true ∧ c = true) → ¬(b = true ∧ c = true) →
    [a, b, c].count true ≤ 1 := by decide

/-- Settles O47: a pending activity is one ENG waits for, and ENG stands at one label. -/
theorem atMostOneActivityPending : Obligations.AtMostOneActivityPending := by
  refine fun s h => ⟨?_, fun hs => ?_⟩
  · obtain ⟨h1, h2, h3⟩ := holds_exclusive s.seq
    apply count_le_one_of_exclusive
    · rintro ⟨hstart, hbyte⟩; simp [h.startHeld hstart, h.byteHeld hbyte] at h1
    · rintro ⟨hstart, hstop⟩; simp [h.startHeld hstart, h.stopHeld hstop] at h2
    · rintro ⟨hbyte, hstop⟩; simp [h.byteHeld hbyte, h.stopHeld hstop] at h3
  · have hh : s.held = false := by
      obtain hs | hs := hs
      · simp [State.held, hs]
      · obtain ⟨k, hk⟩ := List.head?_eq_some_iff.1 hs
        simp [State.held, hk]
    have hq := h.quiet hh
    exact ⟨by simp [State.busIdle, hq.noByte, hq.noReceive, hq.noStart, hq.noStop], h.noWriteCollision⟩

/-- Settles O43: nothing is pending and nothing is set. -/
theorem invariantHoldsAtReset : Obligations.InvariantHoldsAtReset :=
  Inv.of_quiet ⟨rfl, rfl, rfl, rfl⟩ ⟨rfl, rfl, rfl, rfl, rfl⟩ rfl (by simp [State.reset]) (by decide) (by simp [State.reset])
    (by simp [State.reset]) (by simp [State.reset]) rfl rfl

end Sys2Proof.Machine
end

section
/-! What a step adds to `TRACE` and what it leaves alone (10_state.md R49, R50; 30_encoding.md R106): an inversion per agent, and
what follows for the run of a command. -/

namespace Sys2Proof.Machine

/-! ## the effect of one step -/

/-- An event an operation emits between its acceptance and its response. -/
def Event.isInner : Event → Bool
  | .cmd _ | .rsp _ | .reset => false
  | .start | .byte _ _ | .stop | .coll _ | .delay _ | .err _ => true

/-- `Tells s t`: what the step from `s` to `t` adds to the history, and whether that answers the command. -/
inductive Tells (s t : State) : Prop
  | goes (es : List Event) (inner : es.all Event.isInner = true) (trace : t.trace = s.trace ++ es) (rsp : t.rsp = s.rsp)
      (seq : t.seq = [] → s.seq = [])
  | answers (trace : t.trace = s.trace ++ [.rsp t.rsp]) (seq : t.seq = [])

/-- `Effect s t`: what a step of ENG, BUS or TMR from `s` to `t` leaves alone, and what it adds to the history. -/
structure Effect (s t : State) : Prop where
  cfg : t.cfg = s.cfg
  cmds : t.env.cmds = s.env.cmds
  rbusy : t.rbusy = s.rbusy
  en : s.en = true → t.en = true
  tells : Tells s t

/-- `Works s u`: `u` is `s` after writes and emissions inside an operation. -/
structure Works (s u : State) : Prop where
  cfg : u.cfg = s.cfg
  cmds : u.env.cmds = s.env.cmds
  rbusy : u.rbusy = s.rbusy
  en : s.en = true → u.en = true
  rsp : u.rsp = s.rsp
  trace : ∃ es, es.all Event.isInner = true ∧ u.trace = s.trace ++ es

theorem Works.silent {s u : State} (cfg : u.cfg = s.cfg) (cmds : u.env.cmds = s.env.cmds) (rbusy : u.rbusy = s.rbusy)
    (en : s.en = true → u.en = true) (rsp : u.rsp = s.rsp) (trace : u.trace = s.trace) : Works s u :=
  ⟨cfg, cmds, rbusy, en, rsp, [], rfl, by rw [trace, List.append_nil]⟩

theorem Works.refl (s : State) : Works s s := .silent rfl rfl rfl id rfl rfl

/-- A step that goes on. -/
theorem Works.effect {s u : State} (h : Works s u) (hs : u.seq = [] → s.seq = []) : Effect s u := by
  obtain ⟨es, inner, trace⟩ := h.trace
  exact ⟨h.cfg, h.cmds, h.rbusy, h.en, .goes es inner trace h.rsp hs⟩

/-- A step that goes on in `SEQ` and emits nothing. -/
theorem Effect.silent {s t : State} (cfg : t.cfg = s.cfg) (cmds : t.env.cmds = s.env.cmds) (rbusy : t.rbusy = s.rbusy)
    (en : s.en = true → t.en = true) (rsp : t.rsp = s.rsp) (trace : t.trace = s.trace) (seq : t.seq ≠ []) : Effect s t :=
  (Works.silent cfg cmds rbusy en rsp trace).effect fun h => absurd h seq

/-- A step that returns to the caller. -/
theorem Effect.of_ret {s u t : State} {r : Ret} {k : List Entry} (ht : ret r k u = .next t) (h : Works s u) : Effect s t := by
  obtain ⟨c, c', k, rfl, -, rfl⟩ := ret_inv ht
  exact Works.effect ⟨h.cfg, h.cmds, h.rbusy, h.en, h.rsp, h.trace⟩ (by simp)

/-- The response. -/
theorem effect_respond {ok nack ill : Bool} {s t : State}
    (ht : Host.Outcome.next (respond ok nack ill s) = (.next t : Result State Fault Refusal)) :
    Effect s t := by
  obtain rfl := Host.Outcome.next.inj ht
  exact ⟨rfl, rfl, rfl, id, .answers rfl rfl⟩

/-- What an ENG step leaves alone and adds, by its label. -/
theorem stepAt_effect {e : Entry} {k : List Entry} {s t : State} (h : stepAt e k s = .next t) : Effect s t := by
  cases e with
  | in2 | in3 | wt1 | wt2 | hw0 | bg0 | bg1 | bg2 | bg4 | hb0 | wr0 | wr2 | wr3 | hx0 | en0 | en1 | en2 | he0 | dl0 | dl1
    | sf0 | sf1 | sf5 | sf6 | hf0 | hf1 | sc0 | sc1 | hc0 | sd0 | sd1 | hd0 | id0 | cl0 | cl1 | cu0 =>
    obtain rfl := Host.Outcome.next.inj h
    exact .silent rfl rfl rfl id rfl rfl (by simp)
  | in0 | in1 =>
    obtain rfl := Host.Outcome.next.inj h
    exact .silent rfl rfl rfl (fun h => by simp [h]) rfl rfl (by simp)
  | wt0 =>
    obtain rfl := Host.Outcome.next.inj h
    rw [recoverCollision_eq]
    exact .silent rfl rfl rfl id rfl rfl (by simp)
  | wr1 v =>
    obtain rfl := Host.Outcome.next.inj h
    rw [loadShift_eq]
    exact .silent rfl rfl rfl id rfl rfl (by simp)
  | wt3 => exact .of_ret h (.refl s)
  | bg3 a =>
    obtain ⟨-, rfl⟩ | ⟨-, h⟩ := bg3_inv h
    · exact Works.effect ⟨rfl, rfl, rfl, id, rfl, [_], rfl, rfl⟩ (by simp)
    · exact .of_ret h ⟨rfl, rfl, rfl, id, rfl, [_], rfl, rfl⟩
  | en3 =>
    obtain ⟨-, h⟩ | ⟨-, h⟩ := en3_inv h <;> exact .of_ret h ⟨rfl, rfl, rfl, id, rfl, [_], rfl, rfl⟩
  | bg5 | wr4 => exact .of_ret h (.silent rfl rfl rfl id rfl rfl)
  | dl2 n => exact .of_ret h ⟨rfl, rfl, rfl, id, rfl, [_], rfl, rfl⟩
  | sf2 r =>
    obtain ⟨b, rfl, ⟨nack, rfl⟩ | h⟩ := sf2_inv h
    · exact .silent rfl rfl rfl id rfl rfl (by simp)
    · exact .of_ret h (.silent rfl rfl rfl id rfl rfl)
  | sf3 => obtain ⟨-, rfl⟩ | ⟨-, v, rfl⟩ := sf3_inv h <;> exact .silent rfl rfl rfl id rfl rfl (by simp)
  | id1 i => obtain ⟨-, rfl⟩ | ⟨-, v, rfl⟩ := id1_inv h <;> exact .silent rfl rfl rfl id rfl rfl (by simp)
  | sf4 r | id2 i r =>
    obtain ⟨r, rfl, h⟩ := withBound_inv h
    obtain rfl := Host.Outcome.next.inj h
    exact .silent rfl rfl rfl id rfl rfl (by simp)
  | sf7 r | sc2 r | sd2 r =>
    obtain ⟨r, rfl, h⟩ := withBound_inv h
    exact .of_ret h (.silent rfl rfl rfl id rfl rfl)
  | in4 | hw1 | id3 | rv0 => exact effect_respond h
  | hb1 r | hx1 r | he1 r | hf2 r | hc1 r | hd1 r | cl2 r | cu1 r =>
    obtain ⟨r, rfl, h⟩ := withBound_inv h
    exact effect_respond h

/-- A BUS step adds at most its event, and takes nothing of the inputs but its draw. -/
theorem busStep_tells (p : Activity) (s : State) :
    (∃ es, es.all Event.isInner = true ∧ (busStep p s).trace = s.trace ++ es) ∧ (busStep p s).env.cmds = s.env.cmds ∧
      (busStep p s).env.turns = s.env.turns := by
  by_cases h : s.activityReady p = true
  · simp only [busStep, h, if_true]
    cases p with
    | start =>
      cases s.env.starts with
      | nil => exact ⟨⟨[], rfl, by simp⟩, rfl, rfl⟩
      | cons o os =>
        cases o with
        | missing => exact ⟨⟨[], rfl, by simp [startDone]⟩, rfl, rfl⟩
        | detected | collided => exact ⟨⟨[_], rfl, rfl⟩, rfl, rfl⟩
    | byte =>
      cases s.env.bytes with
      | nil => exact ⟨⟨[], rfl, by simp⟩, rfl, rfl⟩
      | cons o os => cases o <;> exact ⟨⟨[_], rfl, rfl⟩, rfl, rfl⟩
    | stop =>
      cases s.env.stops with
      | nil => exact ⟨⟨[], rfl, by simp⟩, rfl, rfl⟩
      | cons o os =>
        cases o with
        | missing => exact ⟨⟨[], rfl, by simp [stopDone]⟩, rfl, rfl⟩
        | detected | collided => exact ⟨⟨[_], rfl, rfl⟩, rfl, rfl⟩
  · rw [busStep_idle (by simpa using h)]
    exact ⟨⟨[], rfl, by simp⟩, rfl, rfl⟩

theorem busStep_seq (p : Activity) (s : State) : (busStep p s).seq = s.seq := by
  rw [busStep_frame]

theorem busStep_effect (p : Activity) (s : State) : Effect s (busStep p s) := by
  obtain ⟨htrace, hcmds, -⟩ := busStep_tells p s
  refine Works.effect ⟨?_, hcmds, ?_, ?_, ?_, htrace⟩ (by rw [busStep_seq]; exact id) <;> rw [busStep_frame]
  exact id

theorem engStep_effect {s t : State} (h : engStep s = .next t) : Effect s t := by
  unfold engStep at h
  split at h
  · exact Host.Outcome.next.inj h ▸ (Works.refl s).effect id
  · split at h
    · exact Host.Outcome.next.inj h ▸ (Works.refl s).effect id
    · exact stepAt_effect h

/-- What a step of ENG, BUS or TMR leaves alone, and what it adds. -/
theorem agentStep_effect {a : Turn} (ha : a ≠ .rst) {s t : State} (h : agentStep a s = .next t) : Effect s t := by
  have hel : Effect s.elapse t → Effect s t := by
    rintro ⟨cfg, cmds, rbusy, en, ⟨es, inner, trace, rsp, seq⟩ | ⟨trace, seq⟩⟩
    · exact ⟨cfg, cmds, rbusy, en, .goes es inner trace rsp seq⟩
    · exact ⟨cfg, cmds, rbusy, en, .answers trace seq⟩
  refine hel ?_
  cases a with
  | eng => exact engStep_effect h
  | bus p => exact Host.Outcome.next.inj h ▸ busStep_effect p s.elapse
  | tmr =>
    obtain rfl := Host.Outcome.next.inj h
    exact Works.effect (.silent rfl rfl rfl id rfl rfl) id
  | rst => exact absurd rfl ha

/-- A Reset step is taken by nobody else's turn. -/
theorem agentStep_rst (s : State) : agentStep .rst s = .next (resetStep s.elapse) := rfl

/-! ## the rules of the whole machine -/

/-- A property that holds of the state a command's execution or an agent's step begins in, at acceptance, and after every step
of an agent inside an operation, holds after a step of the machine. -/
theorem step_induct {P : State → Prop} {s t : State} (h0 : P s)
    (hidle : ∀ a t, mover s = some a → agentStep a s = .next t → P t)
    (haccept : ∀ w ws, s.cmdReady = true → P (accept w (decodeWord w).entry (s.withCmds ws)))
    (hstep : ∀ a u v, P u → u.seq ≠ [] → mover u = some a → agentStep a u = .next v → P v) (h : step s = .next t) : P t := by
  obtain ⟨w, ws, -, hready, heq⟩ | ⟨-, heq⟩ := step_cases s
  · have hready' : (s.withCmds ws).cmdReady = true := hready
    rw [heq, exec_of_cmdReady hready', encode_decodeWord] at h
    exact run_induct hstep (haccept w ws hready) h
  · rw [heq, microStep] at h
    cases hm : mover s with
    | none => rw [hm] at h; exact Host.Outcome.next.inj h ▸ h0
    | some a => rw [hm] at h; exact hidle a t hm h

/-- One agent's step only adds to the history. -/
theorem agentStep_trace {a : Turn} {s t : State} (h : agentStep a s = .next t) : ∃ es, t.trace = s.trace ++ es := by
  by_cases ha : a = .rst
  · subst ha
    exact Host.Outcome.next.inj h ▸ ⟨[.reset], rfl⟩
  · obtain ⟨es, -, trace, -, -⟩ | ⟨trace, -⟩ := (agentStep_effect ha h).tells
    exacts [⟨es, trace⟩, ⟨_, trace⟩]

/-- Settles O53: acceptance appends its event, and every agent's step what it emits. -/
theorem traceIsOnlyAppendedTo : Obligations.TraceIsOnlyAppendedTo := by
  intro s t h
  refine step_induct (P := fun t => ∃ es, t.trace = s.trace ++ es) ⟨[], by simp⟩ (fun a t _ => agentStep_trace)
    (fun w ws _ => ⟨[.cmd w], rfl⟩) ?_ h
  rintro a u v ⟨es, hu⟩ - - hv
  obtain ⟨es', hv⟩ := agentStep_trace hv
  exact ⟨es ++ es', by rw [hv, hu, List.append_assoc]⟩

/-- What no step but a Reset step changes, told from a first state on: inside an operation `EN` is not cleared, and where it is, a
Reset step was the last. -/
structure Fixed (s t : State) : Prop where
  cfg : t.cfg = s.cfg
  rbusy : t.rbusy = true → s.rbusy = true
  inside : t.seq ≠ [] → s.en = true → t.en = true
  cleared : s.en = true → t.en = false → ∃ es, t.trace = s.trace ++ es ++ [.reset]

/-- A step from a state whose `EN` is the first one's. -/
theorem Fixed.agentStep {s u v : State} {a : Turn} (h : Fixed s u) (hen : s.en = true → u.en = true)
    (htrace : ∃ es, u.trace = s.trace ++ es) (hv : agentStep a u = .next v) : Fixed s v := by
  by_cases ha : a = .rst
  · subst ha
    obtain rfl := Host.Outcome.next.inj hv
    obtain ⟨es, htrace⟩ := htrace
    exact ⟨h.cfg, fun h => absurd h (by simp [resetStep, State.reset]), fun h => absurd rfl h,
      fun _ _ => ⟨es, by rw [← htrace]; rfl⟩⟩
  · have he := agentStep_effect ha hv
    exact ⟨he.cfg.trans h.cfg, fun hr => h.rbusy (he.rbusy ▸ hr), fun _ hs => he.en (hen hs),
      fun hs hv => absurd (he.en (hen hs)) (by simp [hv])⟩

/-- Settles O54: of the agents only RST clears `EN`, and its step ends the operation. -/
theorem fixedFieldsStayFixed : Obligations.FixedFieldsStayFixed := by
  intro s t h
  have hrefl : Fixed s s := ⟨rfl, id, fun _ => id, fun h h' => absurd h (by simp [h'])⟩
  have hfixed := step_induct (P := fun t => Fixed s t ∧ ∃ es, t.trace = s.trace ++ es) ⟨hrefl, [], by simp⟩
    (fun a t _ ht => ⟨hrefl.agentStep id ⟨[], by simp⟩ ht, agentStep_trace ht⟩)
    (fun w ws _ => ⟨⟨rfl, id, fun _ => id, fun h h' => absurd (h.symm.trans h') (by simp)⟩, [.cmd w], rfl⟩) ?_ h
  · obtain ⟨⟨cfg, rbusy, -, cleared⟩, -⟩ := hfixed
    exact ⟨cfg, rbusy, cleared⟩
  · rintro a u v ⟨hu, es, htrace⟩ hseq - hv
    obtain ⟨es', htrace'⟩ := agentStep_trace hv
    exact ⟨hu.agentStep (hu.inside hseq) ⟨es, htrace⟩ hv, es ++ es', by rw [htrace', htrace, List.append_assoc]⟩

/-! ## one response for one command -/

/-- In the execution of `i` begun in `s` with `rst` low: what the history and `RSP` are, before and after the response. -/
structure Told (i : Instr) (s t : State) : Prop where
  noReset : .rst ∉ t.env.turns
  history : ∃ es, es.all Event.isInner = true ∧
    ((t.seq ≠ [] ∧ t.trace = s.trace ++ .cmd (encode i) :: es ∧ t.rsp = s.rsp) ∨
      (t.seq = [] ∧ t.trace = s.trace ++ .cmd (encode i) :: es ++ [.rsp t.rsp]))

/-- With no Reset step among the turns, it is never RST's. -/
theorem mover_ne_rst {s : State} {a : Turn} (h : .rst ∉ s.env.turns) (hm : mover s = some a) : a ≠ .rst := by
  rintro rfl
  unfold mover at hm
  split at hm
  · rename_i b ts hturns
    exact h (by rw [hturns, Option.some.inj hm]; exact List.mem_cons_self)
  · split_ifs at hm <;> simp at hm

theorem Told.step {i : Instr} {s u v : State} {a : Turn} (h : Told i s u) (hseq : u.seq ≠ []) (hm : mover u = some a)
    (hv : agentStep a u = .next v) : Told i s v := by
  have ha := mover_ne_rst h.noReset hm
  obtain ⟨es, inner, hes⟩ := h.history
  have htold : u.trace = s.trace ++ .cmd (encode i) :: es ∧ u.rsp = s.rsp := by
    obtain ⟨-, h⟩ | ⟨h, -⟩ := hes
    exacts [h, absurd h hseq]
  obtain ⟨htrace, hrsp⟩ := htold
  refine ⟨by rw [agentStep_turns ha hv]; exact fun h' => h.noReset (List.mem_of_mem_tail h'), ?_⟩
  obtain ⟨es', inner', trace, rsp, seq⟩ | ⟨trace, seq⟩ := (agentStep_effect ha hv).tells
  · exact ⟨es ++ es', by simp [inner, inner'],
      .inl ⟨fun h' => hseq (seq h'), by simp [trace, htrace], rsp.trans hrsp⟩⟩
  · exact ⟨es, inner, .inr ⟨seq, by rw [trace, htrace]⟩⟩

theorem Listens.cmdReady {s : State} (h : Listens s) : s.cmdReady = true := by
  simp [State.cmdReady, h.idle, resetDue_of_noReset h.noReset]

/-- The history of a command's execution. -/
theorem exec_told {i : Instr} {s t : State} (h : Listens s) (ht : exec i s = .next t) : Told i s t := by
  rw [exec_of_cmdReady h.cmdReady] at ht
  have h0 : Told i s (accept (encode i) i.entry s) := ⟨h.noReset, [], rfl, .inl ⟨by simp [accept], rfl, rfl⟩⟩
  exact run_induct (P := Told i s) (fun _ _ _ hP => hP.step) h0 ht

/-- Settles O55: inside an operation no step answers but the one that ends it. -/
theorem exactlyOneResponsePerCommand : Obligations.ExactlyOneResponsePerCommand := by
  intro i s t h ht
  obtain ⟨es, inner, htold⟩ := (exec_told h ht).history
  refine ⟨es, ?_, ?_⟩
  · rw [List.all_eq_true] at inner ⊢
    intro e he
    have := inner e he
    cases e with
    | reset | cmd w | rsp r => simp [Event.isInner] at this
    | _ => rfl
  · obtain ⟨hseq, htrace⟩ | ⟨hseq, htrace⟩ := htold
    · exact ⟨fun h => absurd h hseq, fun _ => htrace⟩
    · exact ⟨fun _ => htrace, fun h => absurd hseq h⟩

/-! ## execution as a run of the machine's steps -/

/-- Inside an operation no word is taken at the port: a step is one agent's. -/
theorem step_of_busy {s : State} (hs : s.seq ≠ []) : step s = microStep s := by
  obtain ⟨w, ws, -, hready, -⟩ | ⟨-, heq⟩ := step_cases s
  · exact absurd (idle_of_cmdReady hready).1 hs
  · exact heq

/-- A run is a run of the machine's steps, up to where it ends. -/
theorem exists_coreRun_eq_run (f : Nat) (s : State) : ∃ n, core.run n s = run f s := by
  induction f generalizing s with
  | zero => exact ⟨0, rfl⟩
  | succ f ih =>
    by_cases hs : s.seq = []
    · exact ⟨0, (run_idle hs _).symm⟩
    · cases hm : mover s with
      | none => exact ⟨0, (run_stuck hm _).symm⟩
      | some a =>
        have hstep : core.step s = agentStep a s := by
          show step s = _
          rw [step_of_busy hs, microStep, hm]
        have hne : s.seq.isEmpty = false := by simpa using hs
        cases ha : agentStep a s with
        | next t =>
          obtain ⟨n, hn⟩ := ih t
          exact ⟨n + 1, by simp only [Host.Core.run, hstep, run, hne, hm, ha]; exact hn⟩
        | fault r => exact ⟨1, by simp only [Host.Core.run, hstep, run, hne, hm, ha]; rfl⟩
        | refused r => exact ⟨1, by simp only [Host.Core.run, hstep, run, hne, hm, ha]; rfl⟩

/-- Settles O50: an execution is acceptance and a run, and each step of the run is one of the machine's. -/
theorem executionIsARunOfSteps : Obligations.ExecutionIsARunOfSteps := by
  intro i s h
  rw [exec_of_cmdReady h]
  exact exists_coreRun_eq_run _ _

/-! ## acceptance -/

/-- Settles O10: the word at the port is accepted, since the core is ready. -/
theorem stepExecutesTheAcceptedWord : Obligations.StepExecutesTheAcceptedWord := by
  intro s w ws hs hr hcmds
  have hacc : s.accepted = some (w, ws) := by simp [State.accepted, State.cmdReady, hcmds, hs, hr]
  simp only [step, hacc]

/-- With the Reset steps at its front dropped, the order of the steps begins with none. -/
theorem resetDue_withPortWord (s : State) (nbits w : Nat) : (s.withPortWord nbits w).resetDue = false := by
  have h : ∀ ts : List Turn, ∀ us, ts.dropWhile (· == .rst) ≠ .rst :: us := by
    intro ts us hts
    have := List.head?_dropWhile_not (· == Turn.rst) ts
    rw [hts] at this
    simp at this
  unfold State.resetDue
  split
  · rename_i us hus
    exact absurd hus (h s.env.turns us)
  · rfl

/-- Settles O11: the placed word is accepted, and a number of 36 bits is decoded as its word. -/
theorem stepRunsThePlacedWord : Obligations.StepRunsThePlacedWord := by
  intro s w hw
  refine ⟨_, decodeTableWord_eq hw, ?_⟩
  have hword : BitVec.ofNat 36 w = tableWord 36 w := by rw [tableWord, Nat.mod_eq_of_lt hw]
  rw [hword]
  exact stepExecutesTheAcceptedWord (s.withPortWord 36 w) _ _ rfl (resetDue_withPortWord s 36 w) rfl

/-- Every agent's step leaves the host's words alone. -/
theorem agentStep_cmds {a : Turn} {s t : State} (h : agentStep a s = .next t) : t.env.cmds = s.env.cmds := by
  by_cases ha : a = .rst
  · subst ha
    exact Host.Outcome.next.inj h ▸ rfl
  · exact (agentStep_effect ha h).cmds

/-- Settles O12: a core that is not ready accepts nothing, so its step is one agent's. -/
theorem noCommandAcceptedWhileNotReady : Obligations.NoCommandAcceptedWhileNotReady := by
  intro s h
  have hready : s.cmdReady = false := by
    obtain h | h := h <;> simp [State.cmdReady, h]
  refine ⟨hready, exec_of_not_cmdReady hready, fun t ht => ?_⟩
  obtain ⟨w, ws, -, hready', -⟩ | ⟨-, hstep⟩ := step_cases s
  · simp [hready] at hready'
  · rw [hstep, microStep] at ht
    split at ht
    · exact Host.Outcome.next.inj ht ▸ rfl
    · exact agentStep_cmds ht

/-! ## BUS, TMR and RST -/

/-- Settles O36: an enabled `ByteDone` takes the first draw, and each draw says what it does. -/
theorem byteDoneFollowsItsDraw : Obligations.ByteDoneFollowsItsDraw := by
  intro s o bs hdraw
  refine ⟨by simp [State.byteReady, hdraw], fun hready => ?_⟩
  have hstep : busStep .byte s = byteDone o { s with env := { s.env with bytes := bs } } := by
    simp only [busStep, State.activityReady, hready, hdraw, if_true]
  rw [hstep]
  cases o <;> rfl

/-- Settles O38: an activity that is not pending, or on an unarmed core, is not ready; and `busStep_frame`. -/
theorem busWritesOnlyItsFlags : Obligations.BusWritesOnlyItsFlags := by
  intro p s
  refine ⟨fun h => ?_, busStep_frame p s, (busStep_tells p s).2⟩
  have hready : s.activityReady p = false := by
    cases p <;> obtain h | h := h <;>
      simp [State.activityReady, State.startReady, State.byteReady, State.stopReady, h]
  exact ⟨hready, busStep_idle hready⟩

/-- Settles O39: the counter is a number above 0 or it is 0. -/
theorem tickCountsDownToZero : Obligations.TickCountsDownToZero := by
  refine fun s => ⟨tick_idle, fun h => ?_⟩
  have hpos : 1 ≤ s.dly.toNat := by
    rw [Nat.one_le_iff_ne_zero]
    exact fun h0 => h (BitVec.eq_of_toNat_eq h0)
  have htick : tick s = { s with dly := s.dly - 1 } := by simp only [tick, if_neg h]
  refine ⟨htick, ?_⟩
  rw [htick]
  show (s.dly - 1).toNat + 1 = s.dly.toNat
  rw [BitVec.toNat_sub_of_le (by simpa [BitVec.le_def] using hpos)]
  exact Nat.sub_add_cancel hpos

/-- While `rst` is 1 the machine's step is RST's. -/
theorem step_of_resetDue {s : State} (h : s.resetDue = true) : step s = .next (resetStep s.elapse) := by
  obtain ⟨w, ws, -, hready, -⟩ | ⟨-, heq⟩ := step_cases s
  · exact absurd (idle_of_cmdReady hready).2 (by simp [h])
  · unfold State.resetDue at h
    split at h
    · rename_i ts hturns
      have hm : mover s = some .rst := by simp [mover, hturns]
      rw [heq, microStep, hm]
      rfl
    · simp at h

/-- Settles O40: RST's turn is taken in any state, and its step is `resetStep`. -/
theorem resetStepClearsTheCore : Obligations.ResetStepClearsTheCore := by
  intro s h
  exact ⟨by simp [State.ports, State.cmdReady, h], _, step_of_resetDue h, rfl⟩

/-- One step where nobody can move: a turn that is given passes. -/
theorem step_of_nobody {s : State} (hs : s.seq ≠ []) (he : s.engReady = false) (hb : s.busReady = false) (hd : s.dly = 0)
    (hr : s.resetDue = false) : step s = .next (s.withTurns s.env.turns.tail) := by
  have hh : s.held = true := by
    simpa [State.engReady, hs] using he
  rw [step_of_busy hs, microStep]
  cases hturns : s.env.turns with
  | nil =>
    have hm : mover s = none := by
      simp [mover, hturns, he, hd, show s.startReady = false from busReady_false hb .start,
        show s.byteReady = false from busReady_false hb .byte, show s.stopReady = false from busReady_false hb .stop]
    have hself : s.withTurns [] = s := hturns ▸ withTurns_self s
    simp only [hm, List.tail_nil, hself]
  | cons a ts =>
    have hself : s.withTurns (a :: ts) = s := hturns ▸ withTurns_self s
    simp only [show mover s = some a by simp [mover, hturns], List.tail_cons]
    conv_lhs => rw [← hself]
    cases a with
    | eng => exact engTurn_held hh ts
    | bus p => exact busTurn_idle (busReady_false hb p) ts
    | tmr => exact tmrTurn_idle hd ts
    | rst => simp [State.resetDue, hturns] at hr

/-- Settles O41: where nobody can move each turn passes and changes nothing, and RST's is the one that ends the operation. -/
theorem onlyResetEndsAnUnboundedWait : Obligations.OnlyResetEndsAnUnboundedWait := by
  refine fun s hs he hb hd => ⟨fun n => ?_, fun hr => ⟨step_of_resetDue hr, rfl⟩⟩
  induction n generalizing s with
  | zero => exact fun _ => rfl
  | succ n ih =>
    intro hr
    have hdue : s.resetDue = false := by
      unfold State.resetDue
      split
      · rename_i ts hturns; simp [hturns] at hr
      · rfl
    have hstep : core.step s = .next (s.withTurns s.env.turns.tail) := step_of_nobody hs he hb hd hdue
    simp only [Host.Core.run, hstep]
    rw [ih (s.withTurns s.env.turns.tail) hs he hb hd (fun h => hr ?_)]
    · simp [List.drop_tail]
    · cases hturns : s.env.turns with
      | nil => simp [hturns] at h
      | cons a ts => simpa [hturns] using Or.inr (by simpa [hturns] using h)

/-- Settles O42: the reset state is concrete. -/
theorem resetLeavesAnIdleUnarmedCore : Obligations.ResetLeavesAnIdleUnarmedCore :=
  ⟨rfl, rfl, rfl, rfl, rfl, rfl, rfl, rfl, rfl, rfl, rfl⟩

end Sys2Proof.Machine
end

section
/-! The labelled steps of every operation agree with its summary (40_engine_ops.md R136, 41_encoder_ops.md section 4,
42_display_ops.md section 6): each operation is its first step, the procedures it calls, and its response. -/

namespace Sys2Proof.Machine

/-! ## one operation -/

/-- An operation that calls one procedure: its first step, the procedure, and the response. -/
theorem leads_calling {s u : State} {e d c c' : Entry} {n : Nat} {ok nack ill : Bool} (hs : Quiet s) (hu : Quiet u)
    (hproc : Leads n (placed [d, c] s) (placed [c'] u)) (he : (placed [e] s).held = false)
    (hcall : stepAt e [] (placed [e] s) = .next (placed [d, c] s)) (hc : (placed [c'] u).held = false)
    (hrespond : stepAt c' [] (placed [c'] u) = .next (respond ok nack ill u)) :
    Leads (1 + n + 1) (placed [e] s) (respond ok nack ill u) :=
  ((leads_eng (s := placed [e] s) hs.calm rfl he hcall).trans hproc).trans
    (leads_eng (s := placed [c'] u) hu.calm rfl hc hrespond)

/-- writeByte where the summary returns (R136 (b)); the result is what stands in `ACKSTAT`. -/
theorem leads_sumByte {s t : State} {v : Byte} {c c' : Entry} {k : List Entry} (hq : Quiet s) (ht : sumByte v s = some t)
    (hc : bindResult (.bit t.ackstat) c = some c') : Leads 10 (placed (.wr0 v :: c :: k) s) (placed (c' :: k) t) := by
  unfold sumByte at ht
  split at ht
  · rename_i o os he hb
    split at ht
    · rename_i hret
      rw [Option.some.injEq] at ht
      subst ht
      exact leads_writeByte (s := placed (.wr0 v :: c :: k) s) rfl hq.calm hq.noByte hq.noReceive hq.noStart hq.noStop he hb
        hret hc
    · simp at ht
  · simp at ht

theorem leads_sumBegin {s t : State} {a : Byte} {ok : Bool} {c c' : Entry} {k : List Entry} (hq : Quiet s)
    (ht : sumBegin a s = some (t, ok)) (hc : bindResult (.bit ok) c = some c') :
    ∃ n, n ≤ 21 ∧ Leads n (placed (.bg0 a :: c :: k) s) (placed (c' :: k) t) :=
  leads_begin (s := placed (.bg0 a :: c :: k) s) (t := placed (.bg0 a :: c :: k) t) rfl hq.calm hq.noByte hq.noReceive
    hq.noStart hq.noStop (by rw [sumBegin_placed, ht]; rfl) hc

theorem leads_sumEnd {s t : State} {ok : Bool} {c c' : Entry} {k : List Entry} (hq : Quiet s)
    (ht : sumEnd s = some (t, ok)) (hc : bindResult (.bit ok) c = some c') :
    Leads 9 (placed (.en0 :: c :: k) s) (placed (c' :: k) t) :=
  leads_end (s := placed (.en0 :: c :: k) s) (t := placed (.en0 :: c :: k) t) rfl hq.calm hq.noByte hq.noReceive
    hq.noStart hq.noStop (by rw [sumEnd_placed, ht]; rfl) hc

theorem Quiet.placed {s : State} (h : Quiet s) (q : List Entry) : Quiet (placed q s) :=
  ⟨h.noByte, h.noReceive, h.noStart, h.noStop, h.noDelay⟩

theorem leads_sumFrame {s t : State} {ok nack : Bool} {c c' : Entry} {k : List Entry} (hq : Quiet s)
    (ht : sumFrame s = some (t, ok, nack)) (hc : bindResult (.pair ok nack) c = some c') :
    ∃ n, n ≤ 104 + 4 * s.cfg.nStrobe.toNat ∧ Leads n (placed (.sf0 :: c :: k) s) (placed (c' :: k) t) :=
  leads_sendFrame (s := placed (.sf0 :: c :: k) s) (t := placed (.sf0 :: c :: k) t) rfl (hq.placed _)
    (by rw [sumFrame_placed, ht]; rfl) hc

/-- sendCommand where the summary returns. -/
theorem leads_sumCommand {s t : State} {v : Byte} {ok nack : Bool} {c c' : Entry} {k : List Entry} (hq : Quiet s)
    (ht : sumSend v false s = some (t, ok, nack)) (hc : bindResult (.pair ok nack) c = some c') :
    ∃ n, n ≤ 107 + 4 * s.cfg.nStrobe.toNat ∧ Leads n (placed (.sc0 v :: c :: k) s) (placed (c' :: k) t) :=
  leads_sendCommand (s := placed (.sc0 v :: c :: k) s) (t := placed (.sc0 v :: c :: k) t) rfl (hq.placed _)
    (by rw [sumSend_placed, ht]; rfl) hc

/-- sendCharacter where the summary returns. -/
theorem leads_sumCharacter {s t : State} {v : Byte} {ok nack : Bool} {c c' : Entry} {k : List Entry} (hq : Quiet s)
    (ht : sumSend v true s = some (t, ok, nack)) (hc : bindResult (.pair ok nack) c = some c') :
    ∃ n, n ≤ 107 + 4 * s.cfg.nStrobe.toNat ∧ Leads n (placed (.sd0 v :: c :: k) s) (placed (c' :: k) t) :=
  leads_sendCharacter (s := placed (.sd0 v :: c :: k) s) (t := placed (.sd0 v :: c :: k) t) rfl (hq.placed _)
    (by rw [sumSend_placed, ht]; rfl) hc

/-! ## INIT_DISPLAY's loop, ID.1 to ID.2 (R181) -/

/-- The elements of `INITSEQ` as `k` reads them. -/
theorem initSeq_get {p : Params} {i : BitVec 3} {c : Byte} {cs : List Byte} (h : p.initSeq.drop i.toNat = c :: cs) :
    Params.initCmd? p i = some c ∧ i ≠ 5 ∧ (i + 1).toNat = i.toNat + 1 ∧ p.initSeq.drop (i + 1).toNat = cs := by
  have hlt : i.toNat < p.initSeq.length := by
    by_contra hge
    rw [List.drop_eq_nil_of_le (by omega)] at h
    simp at h
  have h5 : i.toNat < 5 := hlt
  have hsucc : (i + 1).toNat = i.toNat + 1 := by rw [BitVec.toNat_add]; simp; omega
  rw [List.drop_eq_getElem_cons hlt, List.cons.injEq] at h
  obtain ⟨hc, hcs⟩ := h
  refine ⟨?_, by rintro rfl; simp at h5, hsucc, by rw [hsucc, hcs]⟩
  rw [Params.initCmd?, List.getElem?_eq_getElem hlt, hc]

theorem sumInitSeq_quiet {cs : List Byte} {s t : State} (h : sumInitSeq cs s = some t) : Quiet s → Quiet t := by
  induction cs generalizing s with
  | nil =>
    rw [sumInitSeq, Option.some.injEq] at h
    exact fun hq => h ▸ hq
  | cons c cs ih =>
    rw [sumInitSeq] at h
    split at h
    · rename_i u ok nack hu
      intro hq
      have hqu := (sumSend_same hu).quiet hq
      exact ih h ⟨hqu.noByte, hqu.noReceive, hqu.noStart, hqu.noStop, hqu.noDelay⟩
    · simp at h

/-- The loop sends what is left of `INITSEQ` where the summary returns. -/
theorem leads_initLoop {cs : List Byte} {s t : State} {i : BitVec 3} (hq : Quiet s) (hcs : s.cfg.initSeq.drop i.toNat = cs)
    (hi : i.toNat + cs.length = 5) (ht : sumInitSeq cs s = some t) :
    ∃ n, n ≤ cs.length * (109 + 4 * s.cfg.nStrobe.toNat) + 1 ∧ Leads n (placed [.id1 i] s) (placed [.id3] t) := by
  induction cs generalizing s i with
  | nil =>
    rw [sumInitSeq, Option.some.injEq] at ht
    subst ht
    obtain rfl : i = 5 := BitVec.eq_of_toNat_eq hi
    exact ⟨1, by omega, leads_eng (hq.placed _).calm rfl rfl rfl⟩
  | cons c cs ih =>
    obtain ⟨hget, hne, hsucc, hrest⟩ := initSeq_get hcs
    rw [sumInitSeq] at ht
    split at ht
    · rename_i u ok nack hu
      have hsame := sumSend_same hu
      have hqu := hsame.quiet hq
      have h0 := leads_eng (s := placed [.id1 i] s) (hq.placed _).calm rfl rfl (t := placed [.sc0 c, .id2 i none] s)
        (by simp only [stepAt, id1, if_neg hne, show (placed [.id1 i] s).cfg = s.cfg from rfl, hget]; rfl)
      obtain ⟨n, hn, h1⟩ := leads_sumCommand (c := .id2 i none) (c' := .id2 i (some (ok, nack))) (k := []) hq hu rfl
      have h2 := leads_eng (s := placed [.id2 i (some (ok, nack))] u) (hqu.placed _).calm rfl rfl
        (t := placed [.id1 (i + 1)] { u with aok := u.aok && ok, anack := u.anack || nack }) rfl
      obtain ⟨m, hm, h3⟩ := ih (s := { u with aok := u.aok && ok, anack := u.anack || nack }) (i := i + 1)
        ⟨hqu.noByte, hqu.noReceive, hqu.noStart, hqu.noStop, hqu.noDelay⟩ (by rw [← hrest, ← hsame.cfg])
        (by rw [hsucc, Nat.add_assoc, Nat.add_comm 1]; exact hi) ht
      refine ⟨_, ?_, ((h0.trans h1).trans h2).trans h3⟩
      have hcfg : u.cfg = s.cfg := hsame.cfg
      simp only [hcfg] at hm
      rw [List.length_cons, Nat.add_mul]
      omega
    · simp at ht

/-! ## every operation -/

/-- The labelled steps of a command lead to its response where the summary returns. -/
theorem leads_sumBody {i : Instr} {s u : State} {ok nack ill : Bool} (hq : Quiet s) (hcwr : s.cwr = encode i)
    (h : sumBody i s = some (u, ok, nack, ill)) :
    ∃ n, n ≤ 1000 + 20 * s.cfg.nStrobe.toNat + s.cfg.nClear.toNat ∧
      Leads n (placed [i.entry] s) (respond ok nack ill u) := by
  cases i with
  | init x =>
    simp only [sumBody, Option.some.injEq, Prod.mk.injEq] at h
    obtain ⟨rfl, rfl, rfl, rfl⟩ := h
    exact ⟨5, by omega, leads_init (s := placed [.in0] s) rfl (hq.placed _).calm⟩
  | waitReady x =>
    simp only [sumBody, Option.some.injEq, Prod.mk.injEq] at h
    obtain ⟨rfl, rfl, rfl, rfl⟩ := h
    exact ⟨6, by omega, leads_calling hq (u := clr s) ⟨hq.noByte, hq.noReceive, hq.noStart, hq.noStop, hq.noDelay⟩
      (leads_waitReady (s := placed [.wt0, .hw1] s) rfl hq.calm hq.noByte hq.noReceive rfl) rfl rfl rfl rfl⟩
  | beginTx a x =>
    obtain ⟨⟨u, ok⟩, hu, h⟩ := Option.map_eq_some_iff.1 h
    simp only [Prod.mk.injEq] at h
    obtain ⟨rfl, rfl, rfl, rfl⟩ := h
    obtain ⟨n, hn, hl⟩ := leads_sumBegin (c := .hb1 none) (k := []) hq hu rfl
    exact ⟨_, by omega, leads_calling hq ((sumBegin_same hu).quiet hq) hl rfl
      (by simp [Instr.entry, stepAt, hb0, call, State.opByte, placed, hcwr]) rfl rfl⟩
  | write v x =>
    obtain ⟨u, hu, h⟩ := Option.map_eq_some_iff.1 h
    simp only [Prod.mk.injEq] at h
    obtain ⟨rfl, rfl, rfl, rfl⟩ := h
    exact ⟨_, by omega, leads_calling hq ((sumByte_same hu).quiet hq) (leads_sumByte (c := .hx1 none) (k := []) hq hu rfl) rfl
      (by simp [Instr.entry, stepAt, hx0, call, State.opByte, placed, hcwr]) rfl rfl⟩
  | endTx x =>
    obtain ⟨⟨u, ok⟩, hu, h⟩ := Option.map_eq_some_iff.1 h
    simp only [Prod.mk.injEq] at h
    obtain ⟨rfl, rfl, rfl, rfl⟩ := h
    exact ⟨_, by omega, leads_calling hq ((sumEnd_same hu).quiet hq) (leads_sumEnd (c := .he1 none) (k := []) hq hu rfl) rfl rfl
      rfl rfl⟩
  | sendFrame f0 f1 f2 f3 =>
    obtain ⟨⟨u, ok, nack⟩, hu, h⟩ := Option.map_eq_some_iff.1 h
    simp only [Prod.mk.injEq] at h
    obtain ⟨rfl, rfl, rfl, rfl⟩ := h
    have hq' : Quiet { s with frame := ⟨f0, f1, f2, f3⟩ } := ⟨hq.noByte, hq.noReceive, hq.noStart, hq.noStop, hq.noDelay⟩
    obtain ⟨n, hn, hl⟩ := leads_sumFrame (c := .hf2 none) (k := []) hq' hu rfl
    have h0 := leads_eng (s := placed [.hf0] s) (hq.placed _).calm rfl rfl
      (t := placed [.hf1] { s with frame := ⟨f0, f1, f2, f3⟩ })
      (by simp [stepAt, hf0, goto, State.opFrame, placed, hcwr])
    exact ⟨_, by simp only at hn; omega, h0.trans (leads_calling hq' ((sumFrame_same hu).1.quiet hq') hl rfl rfl rfl rfl)⟩
  | sendCmd v x =>
    obtain ⟨⟨u, ok, nack⟩, hu, h⟩ := Option.map_eq_some_iff.1 h
    simp only [Prod.mk.injEq] at h
    obtain ⟨rfl, rfl, rfl, rfl⟩ := h
    obtain ⟨n, hn, hl⟩ := leads_sumCommand (c := .hc1 none) (k := []) hq hu rfl
    exact ⟨_, by omega, leads_calling hq ((sumSend_same hu).quiet hq) hl rfl
      (by simp [Instr.entry, stepAt, hc0, call, State.opByte, placed, hcwr]) rfl rfl⟩
  | sendChar v x =>
    obtain ⟨⟨u, ok, nack⟩, hu, h⟩ := Option.map_eq_some_iff.1 h
    simp only [Prod.mk.injEq] at h
    obtain ⟨rfl, rfl, rfl, rfl⟩ := h
    obtain ⟨n, hn, hl⟩ := leads_sumCharacter (c := .hd1 none) (k := []) hq hu rfl
    exact ⟨_, by omega, leads_calling hq ((sumSend_same hu).quiet hq) hl rfl
      (by simp [Instr.entry, stepAt, hd0, call, State.opByte, placed, hcwr]) rfl rfl⟩
  | initDisplay x =>
    obtain ⟨u, hu, h⟩ := Option.map_eq_some_iff.1 h
    simp only [Prod.mk.injEq] at h
    obtain ⟨rfl, rfl, rfl, rfl⟩ := h
    have hq' : Quiet { s with aok := true, anack := false } := ⟨hq.noByte, hq.noReceive, hq.noStart, hq.noStop, hq.noDelay⟩
    obtain ⟨n, hn, hl⟩ := leads_initLoop (i := 0) hq' rfl rfl hu
    have hn : n ≤ 5 * (109 + 4 * s.cfg.nStrobe.toNat) + 1 := hn
    have hqu := sumInitSeq_quiet hu hq'
    have h0 := leads_eng (s := placed [.id0] s) (hq.placed _).calm rfl rfl
      (t := placed [.id1 0] { s with aok := true, anack := false }) rfl
    have h1 := leads_eng (s := placed [.id3] u) (hqu.placed _).calm rfl rfl (t := respond u.aok u.anack false u) rfl
    exact ⟨_, by omega, (h0.trans hl).trans h1⟩
  | clear x =>
    obtain ⟨⟨u, ok, nack⟩, hu, h⟩ := Option.map_eq_some_iff.1 h
    simp only [Prod.mk.injEq] at h
    obtain ⟨rfl, rfl, rfl, rfl⟩ := h
    have hsame := sumSend_same hu
    have hqu := hsame.quiet hq
    obtain ⟨n, hn, hl⟩ := leads_sumCommand (c := .cl1 none) (k := []) hq hu rfl
    have h0 := leads_eng (s := placed [.cl1 (some (ok, nack))] u) (hqu.placed _).calm rfl rfl
      (t := placed [.dl0 s.cfg.nClear, .cl2 (some (ok, nack))] u) (by rw [← hsame.cfg]; rfl)
    have h1 := leads_delay (s := placed [.dl0 s.cfg.nClear, .cl2 (some (ok, nack))] u) rfl (hqu.placed _).calm
      (hqu.placed _).busReady rfl
    exact ⟨_, by omega, leads_calling hq (u := sumDelay s.cfg.nClear u)
      ⟨hqu.noByte, hqu.noReceive, hqu.noStart, hqu.noStop, rfl⟩ ((hl.trans h0).trans h1) rfl rfl rfl rfl⟩
  | setCursor row col x =>
    obtain ⟨⟨u, ok, nack⟩, hu, h⟩ := Option.map_eq_some_iff.1 h
    simp only [Prod.mk.injEq] at h
    obtain ⟨rfl, rfl, rfl, rfl⟩ := h
    obtain ⟨n, hn, hl⟩ := leads_sumCommand (c := .cu1 none) (k := []) hq hu rfl
    exact ⟨_, by omega, leads_calling hq ((sumSend_same hu).quiet hq) hl rfl
      (by simp [Instr.entry, stepAt, cu0, call, State.opByte, State.opRow, placed, hcwr]) rfl rfl⟩
  | reservedB x | reservedC x | reservedD x | reservedE x | reservedF x =>
    simp only [sumBody, Option.some.injEq, Prod.mk.injEq] at h
    obtain ⟨rfl, rfl, rfl, rfl⟩ := h
    exact ⟨1, by omega, leads_reserved (s := placed [.rv0] s) rfl (hq.placed _).calm⟩

/-- A command's execution from the summary of its body. -/
theorem exec_of_sumBody {i : Instr} {s u : State} {ok nack ill : Bool} (hs : Ready s)
    (h : sumBody i (acceptedState i s) = some (u, ok, nack, ill)) :
    ∃ ts, ts <:+ s.env.turns ∧ exec i s = .next (.withTurns ts (respond ok nack ill u)) := by
  have hq : Quiet (acceptedState i s) := ⟨hs.noByte, hs.noReceive, hs.noStart, hs.noStop, hs.noDelay⟩
  obtain ⟨n, hn, hl⟩ := leads_sumBody hq rfl h
  rw [exec_eq_issue_entry]
  refine issue_of_leads hs.toListens hl rfl ?_
  have hcfg : (acceptedState i s).cfg = s.cfg := rfl
  rw [hcfg] at hn
  unfold opFuel
  omega

/-- Settles O51: each command's labelled steps lead to the state of its summary in every order of the steps. -/
theorem executionAgreesWithTheSummary : Obligations.ExecutionAgreesWithTheSummary := by
  intro i s t hs ht
  obtain ⟨⟨u, ok, nack, ill⟩, hu, rfl⟩ := Option.map_eq_some_iff.1 ht
  exact exec_of_sumBody hs hu

end Sys2Proof.Machine
end

section
/-! What each command does, read off its summary for given draws (40_engine_ops.md R133 to R136, 41_encoder_ops.md R162 to R167,
42_display_ops.md R181 to R183). -/

namespace Sys2Proof.Machine

/-! ## the engine's operations -/

/-- Settles O16: the summary of a detected start and a byte that returns. -/
theorem beginOpensATransaction : Obligations.BeginOpensATransaction := by
  intro s a u o os bs hs he hstarts hbytes ho
  refine executionAgreesWithTheSummary _ s _ hs ?_
  simp [summary, sumBody, sumBegin, sumByte, he, hstarts, hbytes, ho, respond, emit, byteEffect, rspWord, bit, clr, hs.idle]

/-- Settles O17: the summary of a start that is missing or collided. -/
theorem beginFailsWithoutAStart : Obligations.BeginFailsWithoutAStart := by
  intro s a u o os hs he hstarts ho
  refine executionAgreesWithTheSummary _ s _ hs ?_
  cases o with
  | detected => exact absurd rfl ho
  | missing | collided =>
    simp [summary, sumBody, sumBegin, he, hstarts, respond, emit, failEvents, rspWord, bit, clr, hs.idle]

/-- Settles O19: the summary of a byte that returns. -/
theorem writeSendsTheByte : Obligations.WriteSendsTheByte := by
  intro s v u o bs hs he hbytes ho
  refine executionAgreesWithTheSummary _ s _ hs ?_
  simp [summary, sumBody, sumByte, he, hbytes, ho, respond, emit, byteEffect, clr, hs.idle]

/-- Settles O22: the summary of a stop, for each draw. -/
theorem endClosesTheTransaction : Obligations.EndClosesTheTransaction := by
  intro s u o os hs he hstops
  refine executionAgreesWithTheSummary _ s _ hs ?_
  have hmissing : (CondOutcome.missing == .detected) = false := rfl
  have hcollided : (CondOutcome.collided == .detected) = false := rfl
  cases o <;> simp [summary, sumBody, sumEnd, he, hstops, respond, emit, stopEvents, clr, hs.idle, hmissing, hcollided]

/-! ## the operations that are one frame and nothing more -/

/-- The body of `i`, with the parameters `p`, is the one frame `f`. -/
def OneFrame (i : Instr) (p : Params) (f : Frame) : Prop :=
  ∀ s : State, s.cfg = p → sumBody i s = (sumFrame { s with frame := f }).map fun r => (r.1, r.2.1, r.2.2, false)

theorem oneFrame_sendFrame (f0 f1 f2 f3 : Byte) (p : Params) : OneFrame (.sendFrame f0 f1 f2 f3) p ⟨f0, f1, f2, f3⟩ :=
  fun _ _ => rfl

theorem oneFrame_sendCmd (v : Byte) (u : BitVec 24) (p : Params) : OneFrame (.sendCmd v u) p (encodeFrame v false) :=
  fun _ _ => rfl

theorem oneFrame_sendChar (v : Byte) (u : BitVec 24) (p : Params) : OneFrame (.sendChar v u) p (encodeFrame v true) :=
  fun _ _ => rfl

theorem oneFrame_setCursor (row : BitVec 1) (col : Byte) (u : BitVec 23) (p : Params) :
    OneFrame (.setCursor row col u) p (encodeFrame (cursorByte p row col) false) := by
  rintro s rfl
  rfl

section
variable {i : Instr} {f : Frame} {s : State}

/-- A command that is one frame, whose start is detected and whose bytes all return. -/
theorem exec_frame_sent {b : Answers} {o : CondOutcome} (hi : OneFrame i s.cfg f) (hs : Ready s) (he : s.en = true)
    (hd : FrameDraws b o s) : ∃ ts, ts <:+ s.env.turns ∧ exec i s =
      .next (.withTurns ts (respond (o == .detected) b.nack false (frameSent f b o (acceptedState i s)))) := by
  have hd' : FrameDraws b o (acceptedState i s) := ⟨hd.starts, hd.bytes, hd.stops, hd.returned⟩
  exact exec_of_sumBody hs (by rw [hi (acceptedState i s) rfl, sumFrame_sent f (s := acceptedState i s) he hd']; rfl)

/-- A command that is one frame, whose start is not confirmed, with `ENC_CHECK_START`. -/
theorem exec_frame_failed {o : CondOutcome} {os : List CondOutcome} (hi : OneFrame i s.cfg f) (hs : Ready s)
    (he : s.en = true) (hc : s.cfg.encCheckStart = true) (hstarts : s.env.starts = o :: os) (ho : o ≠ .detected) :
    ∃ ts, ts <:+ s.env.turns ∧ exec i s =
      .next (.withTurns ts (respond false false false (frameFailed f o (acceptedState i s)))) :=
  exec_of_sumBody hs (by
    rw [hi (acceptedState i s) rfl, sumFrame_failed f (s := acceptedState i s) he hc hstarts ho]; rfl)

end

/-- Settles O23: SEND_FRAME is one frame. -/
theorem sendFrameSendsItsFourBytes : Obligations.SendFrameSendsItsFourBytes :=
  fun _ _ _ _ _ _ _ hs he hd => exec_frame_sent (oneFrame_sendFrame _ _ _ _ _) hs he hd

/-- Settles O24: SEND_CMD is one frame. -/
theorem sendCmdSendsACommandFrame : Obligations.SendCmdSendsACommandFrame :=
  fun _ _ _ _ _ hs he hd => exec_frame_sent (oneFrame_sendCmd _ _ _) hs he hd

/-- Settles O25: SEND_CHAR is one frame. -/
theorem sendCharSendsACharacterFrame : Obligations.SendCharSendsACharacterFrame :=
  fun _ _ _ _ _ hs he hd => exec_frame_sent (oneFrame_sendChar _ _ _) hs he hd

/-- Settles O29: SET_CURSOR is one frame, of `cursorByte`. -/
theorem setCursorSendsItsCommandByte : Obligations.SetCursorSendsItsCommandByte :=
  fun _ _ _ _ _ _ hs he hd => exec_frame_sent (oneFrame_setCursor _ _ _ _) hs he hd

/-- Settles O26: each of the four is one frame, and a frame without a confirmed start gives up. -/
theorem frameGivesUpWithoutAStart : Obligations.FrameGivesUpWithoutAStart :=
  fun _ _ _ hs he hc hstarts ho =>
    ⟨fun _ _ _ _ => exec_frame_failed (oneFrame_sendFrame _ _ _ _ _) hs he hc hstarts ho,
      fun _ _ => exec_frame_failed (oneFrame_sendCmd _ _ _) hs he hc hstarts ho,
      fun _ _ => exec_frame_failed (oneFrame_sendChar _ _ _) hs he hc hstarts ho,
      fun _ _ _ => exec_frame_failed (oneFrame_setCursor _ _ _ _) hs he hc hstarts ho⟩

/-- Without `ENC_CHECK_START` a frame whose start is missing sends its four bytes and a stop: its result and its history. -/
theorem sumFrame_unchecked {s : State} {b1 b2 b3 b4 : ByteOutcome} {os ps : List CondOutcome} {bs : List ByteOutcome}
    (he : s.en = true) (hc : s.cfg.encCheckStart = false) (hstarts : s.env.starts = .missing :: os)
    (hbytes : s.env.bytes = b1 :: b2 :: b3 :: b4 :: bs) (hstops : s.env.stops = .detected :: ps) (h1 : b1.returns = true)
    (h2 : b2.returns = true) (h3 : b3.returns = true) (h4 : b4.returns = true) :
    ∃ t, sumFrame s = some (t, false, b1.nack || b2.nack || b3.nack || b4.nack) ∧
      t.trace = s.trace ++ [.err true, b1.event s.frame.f0, .delay s.cfg.nStrobe, b2.event s.frame.f1, .delay s.cfg.nStrobe,
        b3.event s.frame.f2, .delay s.cfg.nStrobe, b4.event s.frame.f3, .delay s.cfg.nStrobe, .stop, .err false] := by
  simp [sumFrame, sumBegin, sumBytes, sumByte, sumEnd, sumDelay, byteEffect, clr, he, hc, hstarts, hbytes, hstops, h1, h2, h3, h4]

/-- Settles O27: SEND_FRAME is one frame, and this one goes on after its missing start. -/
theorem uncheckedFrameGoesOnWithoutAStart : Obligations.UncheckedFrameGoesOnWithoutAStart := by
  intro s f0 f1 f2 f3 b1 b2 b3 b4 os ps bs hs he hc hstarts hbytes hstops hret
  simp only [Bool.and_eq_true] at hret
  obtain ⟨⟨⟨h1, h2⟩, h3⟩, h4⟩ := hret
  obtain ⟨u, hu, htrace⟩ := sumFrame_unchecked
    (s := { acceptedState (.sendFrame f0 f1 f2 f3) s with frame := ⟨f0, f1, f2, f3⟩ }) he hc hstarts hbytes hstops h1 h2 h3 h4
  obtain ⟨ts, -, hexec⟩ := exec_of_sumBody (i := .sendFrame f0 f1 f2 f3) hs
    (by rw [oneFrame_sendFrame f0 f1 f2 f3 s.cfg (acceptedState (.sendFrame f0 f1 f2 f3) s) rfl, hu]; rfl)
  refine ⟨_, hexec, rfl, rfl, ?_⟩
  simp [htrace, acceptedState]

/-! ## CLEAR and INIT_DISPLAY -/

/-- Settles O30: the frame, and the delay after it. -/
theorem clearSendsItsFrameAndSettles : Obligations.ClearSendsItsFrameAndSettles := by
  intro s u b o hs he hd
  have hd' : FrameDraws b o (acceptedState (.clear u) s) := ⟨hd.starts, hd.bytes, hd.stops, hd.returned⟩
  exact exec_of_sumBody hs (by rw [sumBody, sumSend, sumFrame_sent _ (s := acceptedState (.clear u) s) he hd']; rfl)

/-- Settles O31: the frame gives up, and the delay is made after it. -/
theorem clearSettlesAfterAFailedFrame : Obligations.ClearSettlesAfterAFailedFrame := by
  intro s u o os hs he hc hstarts ho
  exact exec_of_sumBody hs (by
    rw [sumBody, sumSend, sumFrame_failed _ (s := acceptedState (.clear u) s) he hc hstarts ho]; rfl)

/-- The draws that stand first, of each kind. -/
structure DrawsAhead (s : State) (os : List CondOutcome) (bs : List ByteOutcome) (ps : List CondOutcome) : Prop where
  starts : s.env.starts = os
  bytes : s.env.bytes = bs
  stops : s.env.stops = ps

section
variable {s : State} {b : Answers} {o : CondOutcome} {os ps : List CondOutcome} {bs : List ByteOutcome}

theorem DrawsAhead.frameDraws (h : DrawsAhead s (.detected :: os) (b.draws ++ bs) (o :: ps)) (hb : b.allReturn = true) :
    FrameDraws b o s :=
  ⟨⟨os, h.starts⟩, ⟨bs, h.bytes⟩, ⟨ps, h.stops⟩, hb⟩

/-- A frame takes its draws and no others. -/
theorem DrawsAhead.frameSent (h : DrawsAhead s (.detected :: os) (b.draws ++ bs) (o :: ps)) (f : Frame) :
    DrawsAhead (frameSent f b o s) os bs ps :=
  ⟨by rw [frameSent_starts, h.starts]; rfl, by rw [frameSent_bytes, h.bytes]; rfl, by rw [frameSent_stops, h.stops]; rfl⟩

end

/-- Settles O32: five turns of the loop, each of which sends its frame with its own draws. -/
theorem initDisplaySendsTheFiveCommandsInOrder : Obligations.InitDisplaySendsTheFiveCommandsInOrder := by
  intro s u b1 b2 b3 b4 b5 o1 o2 o3 o4 o5 os ps bs hs he hstarts hbytes hstops hret ok nack
  simp only [Bool.and_eq_true] at hret
  obtain ⟨⟨⟨⟨r1, r2⟩, r3⟩, r4⟩, r5⟩ := hret
  simp only [List.append_assoc] at hbytes
  have h1 : DrawsAhead (acceptedState (.initDisplay u) s) _ _ _ := ⟨hstarts, hbytes, hstops⟩
  have h2 := h1.frameSent (encodeFrame s.cfg.cmdFs4 false)
  have h3 := h2.frameSent (encodeFrame s.cfg.cmdFs4_5x8 false)
  have h4 := h3.frameSent (encodeFrame s.cfg.cmdClear false)
  have h5 := h4.frameSent (encodeFrame s.cfg.cmdDisplayOn false)
  have hsum := calc
    sumInitSeq s.cfg.initSeq (accumulate true false (acceptedState (.initDisplay u) s))
    _ = _ := sumInitSeq_sent he (h1.frameDraws r1)
    _ = _ := sumInitSeq_sent he (h2.frameDraws r2)
    _ = _ := sumInitSeq_sent he (h3.frameDraws r3)
    _ = _ := sumInitSeq_sent he (h4.frameDraws r4)
    _ = _ := sumInitSeq_sent he (h5.frameDraws r5)
  have hok : (((((true && o1 == .detected) && o2 == .detected) && o3 == .detected) && o4 == .detected) && o5 == .detected) = ok := by
    simp [ok, Bool.and_assoc]
  have hnack : (((((false || b1.nack) || b2.nack) || b3.nack) || b4.nack) || b5.nack) = nack := by simp [nack]
  rw [hok, hnack] at hsum
  exact exec_of_sumBody hs (by
    rw [sumBody]
    exact congrArg (Option.map fun s : State => (s, s.aok, s.anack, false)) hsum)

/-- Settles O33: five turns of the loop, each of which gives up its frame. -/
theorem initDisplayGoesOnAfterFailedFrames : Obligations.InitDisplayGoesOnAfterFailedFrames := by
  intro s u os hs he hc hstarts
  have ho : CondOutcome.missing ≠ .detected := by simp
  have hnext {f : Frame} {t : State} {o : CondOutcome} {os : List CondOutcome} (h : t.env.starts = o :: os) :
      (frameFailed f o t).env.starts = os := by
    rw [frameFailed_starts, h]; rfl
  have h1 : (acceptedState (.initDisplay u) s).env.starts = _ := hstarts
  have h2 := hnext (f := encodeFrame s.cfg.cmdFs4 false) h1
  have h3 := hnext (f := encodeFrame s.cfg.cmdFs4_5x8 false) h2
  have h4 := hnext (f := encodeFrame s.cfg.cmdClear false) h3
  have h5 := hnext (f := encodeFrame s.cfg.cmdDisplayOn false) h4
  have hsum := calc
    sumInitSeq s.cfg.initSeq (accumulate true false (acceptedState (.initDisplay u) s))
    _ = _ := sumInitSeq_failed he hc h1 ho
    _ = _ := sumInitSeq_failed he hc h2 ho
    _ = _ := sumInitSeq_failed he hc h3 ho
    _ = _ := sumInitSeq_failed he hc h4 ho
    _ = _ := sumInitSeq_failed he hc h5 ho
  exact exec_of_sumBody hs (by
    rw [sumBody]
    exact congrArg (Option.map fun s : State => (s, s.aok, s.anack, false)) hsum)

end Sys2Proof.Machine
end

section
/-! Where an operation waits for ever (60_exceptions.md R204, 93_implementation_defined.md U1, U3, U21), the delay (41_encoder_ops.md
R161), and WAIT_READY whatever start or stop is pending (40_engine_ops.md R132). -/

namespace Sys2Proof.Machine

/-! ## unbounded waits -/

/-- Where nobody can move, a step changes nothing. -/
theorem Stuck.step {t : State} (h : Stuck t) : step t = .next t := by
  obtain ⟨hs, hm⟩ := h
  rw [step_of_busy hs, microStep, hm]

/-- The steps of a command lead to a wait that nobody ends: it stays there, and so does every step after it. -/
theorem exec_of_leads_wait {n : Nat} {i : Instr} {s t : State} (h : Listens s)
    (hl : Leads n (placed [i.entry] (acceptedState i s)) t) (hh : t.held = true) (hb : t.busReady = false) (hd : t.dly = 0)
    (hn : n ≤ 1000) :
    exec i s = .next (t.withTurns []) ∧ Stuck (t.withTurns []) ∧ step (t.withTurns []) = .next (t.withTurns []) := by
  have hn' : n + s.env.turns.length ≤ opFuel s := by unfold opFuel; omega
  obtain ⟨hexec, hstuck⟩ := issue_of_leads_wait h hl hh hb hd hn'
  exact ⟨by rw [exec_eq_issue_entry, hexec], hstuck, hstuck.step⟩

/-- Settles O15: the flags are recovered at WT.0, and at WT.1 nobody clears `RBUSY`. -/
theorem waitReadyHoldsOnReceive : Obligations.WaitReadyHoldsOnReceive := by
  intro s u hs hr
  have hcalm : Calm s := ⟨hs.noByte, hs.noStart, hs.noStop, hs.noDelay⟩
  have h0 := leads_eng (s := placed [.hw0] (acceptedState (.waitReady u) s)) hcalm rfl rfl
    (t := placed [.wt0, .hw1] (acceptedState (.waitReady u) s)) rfl
  have h1 := leads_eng (s := placed [.wt0, .hw1] (acceptedState (.waitReady u) s)) hcalm rfl rfl
    (t := placed [.wt1, .hw1] { acceptedState (.waitReady u) s with bcl := false, wcol := false })
    (by simp only [stepAt, wt0, recoverCollision_eq]; rfl)
  obtain ⟨hexec, hstuck, hstep⟩ := exec_of_leads_wait (i := .waitReady u) (s := s) ⟨hs.idle, hs.noReset⟩ (h0.trans h1)
    (by simp [State.held, placed, State.transferring, acceptedState, hr]) (Calm.busReady hcalm) hs.noDelay (by decide)
  exact ⟨_, hexec, hstuck, rfl, hstep⟩

/-- Settles O18: the start is requested, and BUS has no step that completes it. -/
theorem beginHoldsOnASilentBus : Obligations.BeginHoldsOnASilentBus := by
  intro s a u hs hsilent
  have hq : Quiet (acceptedState (.beginTx a u) s) := ⟨hs.noByte, hs.noReceive, hs.noStart, hs.noStop, hs.noDelay⟩
  have h0 := leads_eng (s := placed [.hb0] (acceptedState (.beginTx a u) s)) (hq.placed _).calm rfl rfl
    (t := placed [.bg0 a, .hb1 none] (acceptedState (.beginTx a u) s))
    (by simp [stepAt, hb0, call, State.opByte, placed, acceptedState])
  have h1 := leads_startRequest (s := placed [.bg0 a, .hb1 none] (acceptedState (.beginTx a u) s)) rfl (hq.placed _).calm
    hs.noByte hs.noReceive
  obtain ⟨hexec, hstuck, hstep⟩ := exec_of_leads_wait (i := .beginTx a u) hs.toListens (h0.trans h1) rfl
    (by obtain h | h := hsilent <;>
          simp [State.busReady, State.startReady, State.byteReady, State.stopReady, placed, acceptedState, hs.noByte, hs.noStop, h])
    hs.noDelay (by decide)
  exact ⟨_, hexec, hstuck, rfl, hstep⟩

/-- WRITE's steps up to its hold. -/
theorem leads_writeRequest {s : State} (hs : Ready s) (v : Byte) (u : BitVec 24) :
    Leads 7 (placed [.hx0] (acceptedState (.write v u) s))
      (placed [.wr2, .hx1 none] { clr (acceptedState (.write v u) s) with txbuf := v, xbusy := true }) := by
  have hq : Quiet (acceptedState (.write v u) s) := ⟨hs.noByte, hs.noReceive, hs.noStart, hs.noStop, hs.noDelay⟩
  have h0 := leads_eng (s := placed [.hx0] (acceptedState (.write v u) s)) (hq.placed _).calm rfl rfl
    (t := placed [.wr0 v, .hx1 none] (acceptedState (.write v u) s))
    (by simp [stepAt, hx0, call, State.opByte, placed, acceptedState])
  exact h0.trans (leads_byteRequest (s := placed [.wr0 v, .hx1 none] (acceptedState (.write v u) s)) rfl (hq.placed _).calm
    hs.noByte hs.noReceive hs.noStart hs.noStop)

/-- Settles O21: the byte is requested, and BUS has no step that completes it. -/
theorem writeHoldsOnASilentBus : Obligations.WriteHoldsOnASilentBus := by
  intro s v u hs hsilent
  obtain ⟨hexec, hstuck, hstep⟩ := exec_of_leads_wait (i := .write v u) hs.toListens (leads_writeRequest hs v u) rfl
    (by obtain h | h := hsilent <;>
          simp [State.busReady, State.startReady, State.byteReady, State.stopReady, placed, acceptedState, hs.noStart, hs.noStop, h])
    hs.noDelay (by decide)
  exact ⟨_, hexec, hstuck, rfl, hstep⟩

/-- Settles O20: BUS completes the byte without `XDONE`, and nothing is pending any more. -/
theorem writeHoldsAfterALostByte : Obligations.WriteHoldsAfterALostByte := by
  intro s v u k bs hs he hbytes
  let w : State := placed [.wr2, .hx1 none] { clr (acceptedState (.write v u) s) with txbuf := v, xbusy := true }
  obtain ⟨hready, hdone⟩ := byteDone_byStep (s := w) (o := .collided false k) (os := bs) he rfl hs.noStart hs.noStop hbytes
  have h1 := leads_bus (s := w) (p := .byte) hs.noDelay (by simp [w, placed]) rfl hready
  obtain ⟨hexec, hstuck, hstep⟩ := exec_of_leads_wait (i := .write v u) hs.toListens
    ((leads_writeRequest hs v u).trans h1) (by rw [hdone]; rfl)
    (by
      rw [hdone]
      simp [State.busReady, State.startReady, State.byteReady, State.stopReady, byteDone, w, placed, acceptedState, hs.noStart,
        hs.noStop])
    (by rw [hdone]; exact hs.noDelay) (by decide)
  refine ⟨_, hexec, hstuck, ?_, hstep⟩
  rw [hdone, byteDone]
  simp [w, placed, acceptedState, clr, emit, State.withTurns, hs.noByte]

/-! ## the delay -/

/-- Settles O28: DL.0, the ticks, DL.1 and DL.2 lead back to the caller. -/
theorem delayTakesItsTicks : Obligations.DelayTakesItsTicks := by
  intro s n c k hs hc hseq
  have hbind : bindResult .unit c = some c := by obtain rfl | ⟨r, rfl⟩ := hc <;> rfl
  have hcalm : Calm s := ⟨hs.noByte, hs.noStart, hs.noStop, hs.noDelay⟩
  obtain ⟨m, ts, hmin, hmax, hts, hrun⟩ := leads_delay hseq hcalm hcalm.busReady hbind s.env.turns hs.noReset
  have hrun0 : run m s = .next (.withTurns ts { sumDelay n s with seq := c :: k }) := by
    have := hrun 0
    rwa [Nat.zero_add, withTurns_self] at this
  exact ⟨m, ts, hmin, by omega, hts, coreRun_of_run hrun0 (by simp)⟩

/-! ## WAIT_READY whatever start or stop is pending -/

/-- With no byte in progress BUS touches neither `XBUSY` nor `XDONE`. -/
theorem busStep_of_no_byte {s : State} (h : s.xbusy = false) (p : Activity) :
    (busStep p s).xbusy = false ∧ (busStep p s).xdone = s.xdone := by
  by_cases hr : s.activityReady p = true
  · simp only [busStep, hr, if_true]
    cases p with
    | byte => simp [State.activityReady, State.byteReady, h] at hr
    | start => cases s.env.starts with | nil => exact ⟨h, rfl⟩ | cons o os => cases o <;> exact ⟨h, rfl⟩
    | stop => cases s.env.stops with | nil => exact ⟨h, rfl⟩ | cons o os => cases o <;> exact ⟨h, rfl⟩
  · rw [busStep_idle (by simpa using hr)]
    exact ⟨h, rfl⟩

/-- What WAIT_READY needs at its hold and what it leaves alone. -/
structure WaitKeeps (s t : State) : Prop where
  noByte : t.xbusy = false
  noReceive : t.rbusy = false
  err : t.err = s.err
  tstate : t.tstate = s.tstate

/-- `WaitAhead s n t`: in the execution of WAIT_READY begun in `s`, `n` of its steps are still ahead of `t`. `BCL` is not told: a
start or a stop that is pending may set it anew at any time. -/
inductive WaitAhead (s : State) : Nat → State → Prop
  | hw0 {t : State} (seq : t.seq = [.hw0]) (kept : WaitKeeps s t) : WaitAhead s 6 t
  | wt0 {t : State} (seq : t.seq = [.wt0, .hw1]) (kept : WaitKeeps s t) : WaitAhead s 5 t
  | wt1 {t : State} (seq : t.seq = [.wt1, .hw1]) (kept : WaitKeeps s t) (wcol : t.wcol = false) : WaitAhead s 4 t
  | wt2 {t : State} (seq : t.seq = [.wt2, .hw1]) (kept : WaitKeeps s t) (wcol : t.wcol = false) : WaitAhead s 3 t
  | wt3 {t : State} (seq : t.seq = [.wt3, .hw1]) (kept : WaitKeeps s t) (wcol : t.wcol = false) (xdone : t.xdone = false) :
      WaitAhead s 2 t
  | hw1 {t : State} (seq : t.seq = [.hw1]) (kept : WaitKeeps s t) (wcol : t.wcol = false) (xdone : t.xdone = false) :
      WaitAhead s 1 t
  | done {t : State} (seq : t.seq = []) (kept : WaitKeeps s t) (wcol : t.wcol = false) (xdone : t.xdone = false)
      (answer : t.rsp = 0b001) : WaitAhead s 0 t

section
variable {s t : State} {n : Nat}

theorem WaitAhead.engStep (h : WaitAhead s (n + 1) t) :
    t.seq ≠ [] ∧ t.held = false ∧ ∃ u, Machine.engStep t = .next u ∧ WaitAhead s n u := by
  cases h with
  | hw0 seq kept =>
    obtain ⟨hx, hr, he, ht⟩ := kept
    exact engStep_of_unheld seq (by simp [State.held, seq]) rfl (.wt0 rfl ⟨hx, hr, he, ht⟩)
  | wt0 seq kept =>
    obtain ⟨hx, hr, he, ht⟩ := kept
    have hstep : stepAt .wt0 [.hw1] t = .next { t with bcl := false, wcol := false, seq := [.wt1, .hw1] } := by
      simp only [stepAt, Machine.wt0, recoverCollision_eq]; rfl
    exact engStep_of_unheld seq (by simp [State.held, seq]) hstep
      (.wt1 rfl ⟨hx, hr, he, ht⟩ rfl)
  | wt1 seq kept wcol =>
    obtain ⟨hx, hr, he, ht⟩ := kept
    exact engStep_of_unheld seq (by simp [State.held, seq, State.transferring, hx, hr]) rfl (.wt2 rfl ⟨hx, hr, he, ht⟩ wcol)
  | wt2 seq kept wcol =>
    obtain ⟨hx, hr, he, ht⟩ := kept
    exact engStep_of_unheld seq (by simp [State.held, seq]) rfl (.wt3 rfl ⟨hx, hr, he, ht⟩ wcol rfl)
  | wt3 seq kept wcol xdone =>
    obtain ⟨hx, hr, he, ht⟩ := kept
    exact engStep_of_unheld seq (by simp [State.held, seq]) rfl (.hw1 rfl ⟨hx, hr, he, ht⟩ wcol xdone)
  | hw1 seq kept wcol xdone =>
    obtain ⟨hx, hr, he, ht⟩ := kept
    exact engStep_of_unheld seq (by simp [State.held, seq]) rfl (.done rfl ⟨hx, hr, he, ht⟩ wcol xdone rfl)

/-- What a step that keeps the stack and these flags keeps. -/
theorem WaitAhead.congr {u : State} (h : WaitAhead s n t) (seq : u.seq = t.seq) (xbusy : t.xbusy = false → u.xbusy = false)
    (rbusy : u.rbusy = t.rbusy) (err : u.err = t.err) (tstate : u.tstate = t.tstate) (wcol : u.wcol = t.wcol)
    (xdone : t.xbusy = false → u.xdone = t.xdone) (rsp : u.rsp = t.rsp) : WaitAhead s n u := by
  have hk (k : WaitKeeps s t) : WaitKeeps s u :=
    ⟨xbusy k.noByte, rbusy.trans k.noReceive, err.trans k.err, tstate.trans k.tstate⟩
  cases h with
  | hw0 seq' kept => exact .hw0 (seq.trans seq') (hk kept)
  | wt0 seq' kept => exact .wt0 (seq.trans seq') (hk kept)
  | wt1 seq' kept w => exact .wt1 (seq.trans seq') (hk kept) (wcol.trans w)
  | wt2 seq' kept w => exact .wt2 (seq.trans seq') (hk kept) (wcol.trans w)
  | wt3 seq' kept w d => exact .wt3 (seq.trans seq') (hk kept) (wcol.trans w) ((xdone kept.noByte).trans d)
  | hw1 seq' kept w d => exact .hw1 (seq.trans seq') (hk kept) (wcol.trans w) ((xdone kept.noByte).trans d)
  | done seq' kept w d a =>
    exact .done (seq.trans seq') (hk kept) (wcol.trans w) ((xdone kept.noByte).trans d) (rsp.trans a)

theorem WaitAhead.busStep (p : Activity) (h : WaitAhead s n t) : WaitAhead s n (busStep p t) := by
  refine h.congr ?_ (fun hx => (busStep_of_no_byte hx p).1) ?_ ?_ ?_ ?_ (fun hx => (busStep_of_no_byte hx p).2) ?_ <;>
    rw [busStep_frame]

end

/-- Settles O14: with nothing pending by its summary; with a start or a stop pending, `WaitAhead` is what BUS and TMR cannot
disturb. -/
theorem waitReadyClearsTheFlags : Obligations.WaitReadyClearsTheFlags := by
  refine ⟨fun s u hs => ?_, fun s u hs hx hr => ?_⟩
  · refine executionAgreesWithTheSummary _ s _ hs ?_
    simp [summary, sumBody, respond, emit, clr, rspWord, bit, hs.idle]
  · have hstart : WaitAhead s 6 (placed [.hw0] (acceptedState (.waitReady u) s)) := .hw0 rfl ⟨hx, hr, rfl, rfl⟩
    have hfuel : 6 + s.env.turns.length ≤ opFuel s := by unfold opFuel; omega
    obtain ⟨t, hexec, hdone⟩ := run_unheld (P := WaitAhead s) (fun t ht => by cases ht with | done seq => exact seq)
      (fun _ _ => WaitAhead.engStep) (fun _ p _ => WaitAhead.busStep p)
      (fun _ _ h => h.congr rfl id rfl rfl rfl rfl (fun _ => rfl) rfl)
      (fun _ _ _ h => h.congr rfl id rfl rfl rfl rfl (fun _ => rfl) rfl) 6 hstart hs.noReset hfuel
    refine ⟨t, by rw [exec_eq_issue_entry, issue_eq hs]; exact hexec, ?_⟩
    cases hdone with
    | done seq kept wcol xdone answer => exact ⟨seq, wcol, xdone, answer, kept.err, kept.tstate⟩

end Sys2Proof.Machine
end

section
/-! Every operation ends or waits (60_exceptions.md R204): the work that is left of an operation is a number that no step of ENG,
BUS or TMR raises, and that each step lowers which is taken with no turn given. -/

namespace Sys2Proof.Machine

/-! ## the work that is left -/

/-- The most steps of ENG, BUS and TMR from this label to the end of its procedure, with the procedures it calls and the
activities and delays it begins. -/
def Entry.work (p : Params) (fidx : BitVec 3) : Entry → Nat
  | .in0 => 5 | .in1 => 4 | .in2 => 3 | .in3 => 2 | .in4 => 1
  | .wt0 => 4 | .wt1 => 3 | .wt2 => 2 | .wt3 => 1
  | .hw0 => 6 | .hw1 => 1
  | .bg0 _ => 21 | .bg1 _ => 16 | .bg2 _ => 14 | .bg3 _ => 13 | .bg4 _ => 12 | .bg5 => 1
  | .hb0 => 23 | .hb1 _ => 1
  | .wr0 _ => 10 | .wr1 _ => 5 | .wr2 => 3 | .wr3 => 2 | .wr4 => 1
  | .hx0 => 12 | .hx1 _ => 1
  | .en0 => 9 | .en1 => 4 | .en2 => 2 | .en3 => 1
  | .he0 => 11 | .he1 _ => 1
  | .dl0 n => 3 + n.toNat | .dl1 _ => 2 | .dl2 _ => 1
  | .sf0 => 104 + 4 * p.nStrobe.toNat | .sf1 => 99 + 4 * p.nStrobe.toNat
  | .sf2 _ => 13 + (4 - fidx.toNat) * (16 + p.nStrobe.toNat) | .sf3 => 12 + (4 - fidx.toNat) * (16 + p.nStrobe.toNat)
  | .sf4 _ => 17 + p.nStrobe.toNat + (3 - fidx.toNat) * (16 + p.nStrobe.toNat)
  | .sf5 => 13 + (3 - fidx.toNat) * (16 + p.nStrobe.toNat)
  | .sf6 => 11 | .sf7 _ => 1
  | .hf0 => 107 + 4 * p.nStrobe.toNat | .hf1 => 106 + 4 * p.nStrobe.toNat | .hf2 _ => 1
  | .sc0 _ => 107 + 4 * p.nStrobe.toNat | .sc1 => 106 + 4 * p.nStrobe.toNat | .sc2 _ => 1
  | .hc0 => 109 + 4 * p.nStrobe.toNat | .hc1 _ => 1
  | .sd0 _ => 107 + 4 * p.nStrobe.toNat | .sd1 => 106 + 4 * p.nStrobe.toNat | .sd2 _ => 1
  | .hd0 => 109 + 4 * p.nStrobe.toNat | .hd1 _ => 1
  | .id0 => 548 + 20 * p.nStrobe.toNat | .id1 k => 2 + (5 - k.toNat) * (109 + 4 * p.nStrobe.toNat)
  | .id2 k _ => 3 + (4 - k.toNat) * (109 + 4 * p.nStrobe.toNat) | .id3 => 1
  | .cl0 => 113 + 4 * p.nStrobe.toNat + p.nClear.toNat | .cl1 _ => 5 + p.nClear.toNat | .cl2 _ => 1
  | .cu0 => 109 + 4 * p.nStrobe.toNat | .cu1 _ => 1
  | .rv0 => 1

/-- The work of a stack. -/
def seqWork (p : Params) (fidx : BitVec 3) (q : List Entry) : Nat := (q.map (Entry.work p fidx)).sum

@[simp] theorem seqWork_nil (p : Params) (f : BitVec 3) : seqWork p f [] = 0 := rfl

@[simp] theorem seqWork_cons (p : Params) (f : BitVec 3) (e : Entry) (k : List Entry) :
    seqWork p f (e :: k) = e.work p f + seqWork p f k := by
  simp [seqWork]

/-- The activities pending. -/
def State.pending (s : State) : Nat := s.spend.toNat + s.xbusy.toNat + s.ppend.toNat

/-- The work left in a state: of its stack, of the activities pending, and of the delay that runs. -/
def State.work (s : State) : Nat := seqWork s.cfg s.fidx s.seq + s.pending + s.dly.toNat

/-- Every entry has its own step ahead. -/
theorem work_pos (p : Params) (f : BitVec 3) (e : Entry) : 0 < e.work p f := by
  cases e <;> simp only [Entry.work] <;> omega

/-- Binding a result changes nothing of the work. -/
theorem work_rebound {r : Ret} {c c' : Entry} (h : bindResult r c = some c') (p : Params) (f : BitVec 3) :
    c'.work p f = c.work p f := by
  unfold bindResult at h
  split at h <;> simp only [Option.some.injEq, reduceCtorEq] at h <;> subst h <;> rfl

/-- Below sendFrame no work depends on `FIDX`. -/
theorem seqWork_below_outer {k : List Entry} (p : Params) (f g : BitVec 3) :
    ∀ {c : Entry}, callChain (c :: k) = true → c.proc.outer = true → seqWork p f k = seqWork p g k := by
  induction k with
  | nil => exact fun _ _ => rfl
  | cons d k ih =>
    intro c h hc
    simp only [callChain, Bool.and_eq_true, beq_iff_eq] at h
    obtain ⟨hcalled, hchain⟩ := h
    have hd : d.proc.outer = true ∧ d.work p f = d.work p g := by
      cases d with
      | hf2 r | sc2 r | sd2 r | hc1 r | id2 j r | cl1 r | cu1 r | hd1 r => exact ⟨rfl, rfl⟩
      | _ =>
        simp only [Entry.called, Option.some.injEq, reduceCtorEq] at hcalled <;>
          (rw [← hcalled] at hc; simp [Proc.outer] at hc)
    rw [seqWork_cons, seqWork_cons, hd.2, ih hchain hd.1]

/-! ## ENG's steps -/

section
variable {s t : State} {e : Entry} {k : List Entry}

/-- A result handed to the caller by a step that begins nothing. -/
theorem ret_work {r : Ret} {u : State} (ht : ret r k u = .next t) (hu : u.pending = s.pending) (hd : u.dly = s.dly)
    (hc : u.cfg = s.cfg) (hf : u.fidx = s.fidx) (hs : s.seq = e :: k) : t.work < s.work := by
  obtain ⟨c, c', k, rfl, hbind, rfl⟩ := ret_inv ht
  have hp : (goto c' k u).pending = s.pending := hu
  have hpos := work_pos s.cfg s.fidx e
  simp only [State.work, hp, goto_seq, goto_cfg, goto_fidx, goto_dly, hs, hc, hf, hd, seqWork_cons, work_rebound hbind]
  omega

/-- The response of an operation. -/
theorem respond_work (hs : s.seq = e :: k) (ok nack ill : Bool) : (respond ok nack ill s).work < s.work := by
  have hp : (respond ok nack ill s).pending = s.pending := rfl
  have hpos := work_pos s.cfg s.fidx e
  simp only [State.work, hp, respond_seq, respond_dly, hs, seqWork_cons, seqWork_nil]
  omega

/-- An ENG step lowers the work that is left. -/
theorem stepAt_work (h : SeqOk s) (hs : s.seq = e :: k) (ht : stepAt e k s = .next t) : t.work < s.work := by
  obtain ⟨hchain, hbound, -, hindex⟩ := h
  rw [hs] at hchain hbound hindex
  simp only [List.all_cons, Bool.and_eq_true] at hindex
  obtain ⟨hindex, -⟩ := hindex
  cases e with
  | in0 | in1 | in2 | in3 | wt1 | wt2 | hw0 | bg0 | bg1 | bg2 | bg4 | hb0 | wr0 | wr2 | wr3 | hx0 | en0 | en1 | en2 | he0
    | dl0 | dl1 | sf0 | sf6 | hf0 | hf1 | sc0 | sc1 | hc0 | sd0 | sd1 | hd0 | id0 | cl0 | cl1 | cu0 =>
    obtain rfl := Host.Outcome.next.inj ht
    simp [State.work, State.pending, hs, Entry.work] <;> omega
  | wt0 =>
    obtain rfl := Host.Outcome.next.inj ht
    rw [recoverCollision_eq]
    simp [State.work, State.pending, hs, Entry.work]
  | wr1 v =>
    obtain rfl := Host.Outcome.next.inj ht
    have hx := Bool.toNat_le (s.xbusy || !s.loadBlocked)
    rw [loadShift_eq]
    simp [State.work, State.pending, hs, Entry.work] at hx ⊢
    omega
  | sf1 =>
    obtain rfl := Host.Outcome.next.inj ht
    have hbelow : seqWork s.cfg 0#3 k = seqWork s.cfg s.fidx k := seqWork_below_outer s.cfg 0 s.fidx hchain rfl
    simp [State.work, State.pending, hs, Entry.work, hbelow]
    omega
  | sf5 =>
    obtain rfl := Host.Outcome.next.inj ht
    have hbelow := seqWork_below_outer s.cfg (s.fidx + 1) s.fidx hchain rfl
    have hlt : s.fidx.toNat < 4 := by
      simp only [Entry.indexOk, decide_eq_true_eq] at hindex
      exact hindex
    have hsucc : 4 - (s.fidx + 1).toNat = 3 - s.fidx.toNat := by rw [BitVec.toNat_add]; simp; omega
    simp only [State.work, State.pending, goto_seq, goto_cfg, goto_fidx, goto_dly, goto_spend, goto_xbusy, goto_ppend, hs,
      seqWork_cons, Entry.work, hbelow, hsucc]
    omega
  | sf2 r =>
    obtain ⟨b, rfl, ⟨nack, rfl⟩ | ht⟩ := sf2_inv ht
    · simp [State.work, State.pending, hs, Entry.work]
    · exact ret_work ht rfl rfl rfl rfl hs
  | sf3 =>
    obtain ⟨h4, rfl⟩ | ⟨hne, v, rfl⟩ := sf3_inv ht
    · simp [State.work, State.pending, hs, Entry.work]
      omega
    · have hlt : s.fidx.toNat < 4 := (lt_of_le_of_ne_bound s.fidx).1 (by simpa [Entry.indexOk] using hindex) hne
      have hsucc : 4 - s.fidx.toNat = (3 - s.fidx.toNat) + 1 := by omega
      simp [State.work, State.pending, hs, Entry.work, hsucc, Nat.add_mul]
      omega
  | sf4 r =>
    obtain ⟨r, rfl, ht⟩ := withBound_inv ht
    obtain rfl := Host.Outcome.next.inj ht
    simp [State.work, State.pending, hs, Entry.work]
    omega
  | id1 i =>
    obtain ⟨rfl, rfl⟩ | ⟨hne, v, rfl⟩ := id1_inv ht
    · simp [State.work, State.pending, hs, Entry.work]
    · have hlt : i.toNat < 5 := (lt_of_le_of_ne_bound i).2 (by simpa [Entry.indexOk] using hindex) hne
      have hsucc : 5 - i.toNat = (4 - i.toNat) + 1 := by omega
      simp [State.work, State.pending, hs, Entry.work, hsucc, Nat.add_mul]
      omega
  | id2 i r =>
    obtain ⟨r, rfl, ht⟩ := withBound_inv ht
    obtain rfl := Host.Outcome.next.inj ht
    have hlt : i.toNat < 5 := by
      simp only [Entry.indexOk, decide_eq_true_eq] at hindex
      exact hindex
    have hsucc : 5 - (i + 1).toNat = 4 - i.toNat := by rw [BitVec.toNat_add]; simp; omega
    simp only [State.work, State.pending, goto_seq, goto_cfg, goto_fidx, goto_dly, goto_spend, goto_xbusy, goto_ppend, hs,
      seqWork_cons, Entry.work, hsucc]
    omega
  | wt3 => exact ret_work ht rfl rfl rfl rfl hs
  | bg5 | wr4 | dl2 => exact ret_work ht (by rfl) (by rfl) (by rfl) (by rfl) hs
  | bg3 a =>
    obtain ⟨-, rfl⟩ | ⟨-, ht⟩ := bg3_inv ht
    · simp [State.work, State.pending, hs, Entry.work]
    · exact ret_work ht rfl rfl rfl rfl hs
  | en3 => obtain ⟨-, ht⟩ | ⟨-, ht⟩ := en3_inv ht <;> exact ret_work ht rfl rfl rfl rfl hs
  | sf7 r | sc2 r | sd2 r =>
    obtain ⟨r, rfl, ht⟩ := withBound_inv ht
    exact ret_work ht (by rfl) (by rfl) (by rfl) (by rfl) hs
  | in4 | hw1 | id3 | rv0 =>
    obtain rfl := Host.Outcome.next.inj ht
    exact respond_work hs _ _ _
  | hb1 r | hx1 r | he1 r | hf2 r | hc1 r | hd1 r | cl2 r | cu1 r =>
    obtain ⟨r, rfl, ht⟩ := withBound_inv ht
    obtain rfl := Host.Outcome.next.inj ht
    exact respond_work hs _ _ _

end

/-! ## the steps of all agents -/

/-- A completion takes its activity from the pending ones; where there is none it changes nothing. -/
theorem busStep_pending (p : Activity) (s : State) :
    (busStep p s).pending ≤ s.pending ∧ (s.activityReady p = true → (busStep p s).pending < s.pending) := by
  by_cases hr : s.activityReady p = true
  · have hlt : (busStep p s).pending < s.pending := by
      cases p with
      | start =>
        have hr' : s.startReady = true := hr
        simp only [State.startReady, Bool.and_eq_true, Bool.not_eq_true'] at hr'
        obtain ⟨⟨-, hpending⟩, hdraws⟩ := hr'
        cases hd : s.env.starts with
        | nil => simp [hd] at hdraws
        | cons o os => rw [busStep_start_of_ready hr hd]; cases o <;> simp [startDone, State.pending, hpending]
      | byte =>
        have hr' : s.byteReady = true := hr
        simp only [State.byteReady, Bool.and_eq_true, Bool.not_eq_true'] at hr'
        obtain ⟨⟨-, hpending⟩, hdraws⟩ := hr'
        cases hd : s.env.bytes with
        | nil => simp [hd] at hdraws
        | cons o os =>
          rw [show busStep .byte s = byteDone o { s with env := { s.env with bytes := os } } by
            simp only [busStep, hr, hd, if_true]]
          cases o <;> simp [byteDone, State.pending, hpending]
      | stop =>
        have hr' : s.stopReady = true := hr
        simp only [State.stopReady, Bool.and_eq_true, Bool.not_eq_true'] at hr'
        obtain ⟨⟨-, hpending⟩, hdraws⟩ := hr'
        cases hd : s.env.stops with
        | nil => simp [hd] at hdraws
        | cons o os => rw [busStep_stop_of_ready hr hd]; cases o <;> simp [stopDone, State.pending, hpending]
    exact ⟨hlt.le, fun _ => hlt⟩
  · rw [busStep_idle (by simpa using hr)]
    exact ⟨le_refl _, fun h => absurd h hr⟩

theorem busStep_work (p : Activity) (s : State) :
    (busStep p s).work ≤ s.work ∧ (s.activityReady p = true → (busStep p s).work < s.work) := by
  obtain ⟨hle, hlt⟩ := busStep_pending p s
  have hrest : seqWork (busStep p s).cfg (busStep p s).fidx (busStep p s).seq = seqWork s.cfg s.fidx s.seq ∧
      (busStep p s).dly = s.dly := by rw [busStep_frame]; exact ⟨rfl, rfl⟩
  unfold State.work
  rw [hrest.1, hrest.2]
  exact ⟨by omega, fun h => by have := hlt h; omega⟩

theorem tick_work (s : State) : (tick s).work ≤ s.work ∧ (s.dly ≠ 0 → (tick s).work < s.work) := by
  have hlt (h : s.dly ≠ 0) : (tick s).work < s.work := by
    obtain ⟨htick, hdly⟩ := (tickCountsDownToZero s).2 h
    have hrest : seqWork (tick s).cfg (tick s).fidx (tick s).seq + (tick s).pending = seqWork s.cfg s.fidx s.seq + s.pending :=
      rfl
    unfold State.work
    rw [hrest]
    omega
  by_cases h : s.dly = 0
  · rw [tick_idle h]
    exact ⟨le_refl _, fun h' => absurd h h'⟩
  · exact ⟨(hlt h).le, hlt⟩

theorem engStep_work {s t : State} (h : SeqOk s) (ht : engStep s = .next t) :
    t.work ≤ s.work ∧ (s.engReady = true → t.work < s.work) := by
  unfold engStep at ht
  split at ht
  · rename_i hs
    obtain rfl := Host.Outcome.next.inj ht
    exact ⟨le_refl _, fun he => by simp [State.engReady, hs] at he⟩
  · rename_i e k hs
    by_cases hh : s.held = true
    · rw [if_pos hh] at ht
      obtain rfl := Host.Outcome.next.inj ht
      exact ⟨le_refl _, fun he => by simp [State.engReady, hh] at he⟩
    · rw [if_neg hh] at ht
      have hlt := stepAt_work h hs ht
      exact ⟨hlt.le, fun _ => hlt⟩

/-- No step but RST's raises the work that is left. -/
theorem agentStep_work_le {a : Turn} (ha : a ≠ .rst) {s t : State} (h : SeqOk s) (ht : agentStep a s = .next t) :
    t.work ≤ s.work := by
  cases a with
  | eng => exact (engStep_work (s := s.elapse) h ht).1
  | bus p => exact Host.Outcome.next.inj ht ▸ (busStep_work p s.elapse).1
  | tmr => exact Host.Outcome.next.inj ht ▸ (tick_work s.elapse).1
  | rst => exact absurd rfl ha

/-- A step that is taken with no turn given lowers it. -/
theorem mover_work_lt {a : Turn} {s t : State} (h : SeqOk s) (hturns : s.env.turns = []) (hm : mover s = some a)
    (ht : agentStep a s = .next t) : t.work < s.work := by
  simp only [mover, hturns] at hm
  split_ifs at hm with heng hstart hbyte hstop hdly <;> obtain rfl := Option.some.inj hm
  · exact (engStep_work (s := s.elapse) h ht).2 heng
  · exact Host.Outcome.next.inj ht ▸ (busStep_work .start s.elapse).2 hstart
  · exact Host.Outcome.next.inj ht ▸ (busStep_work .byte s.elapse).2 hbyte
  · exact Host.Outcome.next.inj ht ▸ (busStep_work .stop s.elapse).2 hstop
  · exact Host.Outcome.next.inj ht ▸ (tick_work s.elapse).2 (by simpa using hdly)

/-- With fuel for the work that is left and the turns that are given, a run ends or waits where nobody can move. -/
theorem run_ends_or_waits {f : Nat} {s : State} (h : SeqOk s) (hf : s.work + s.env.turns.length ≤ f) :
    ∃ t, run f s = .next t ∧ (t.seq = [] ∨ Stuck t) := by
  induction f generalizing s with
  | zero =>
    refine ⟨s, rfl, .inl ?_⟩
    cases hs : s.seq with
    | nil => rfl
    | cons e k =>
      have hpos := work_pos s.cfg s.fidx e
      simp only [State.work, hs, seqWork_cons] at hf
      omega
  | succ f ih =>
    by_cases hs : s.seq = []
    · exact ⟨s, run_idle hs _, .inl hs⟩
    · cases hm : mover s with
      | none => exact ⟨s, run_stuck hm _, .inr ⟨hs, hm⟩⟩
      | some a =>
        obtain ⟨t, ht, hseq⟩ := agentStep_answers a h
        have hne : s.seq.isEmpty = false := by simpa using hs
        have hrun : run (f + 1) s = run f t := by simp only [run, hne, hm, ht]; rfl
        rw [hrun]
        by_cases ha : a = .rst
        · subst ha
          have hidle : t.seq = [] := Host.Outcome.next.inj ht ▸ rfl
          exact ⟨t, run_idle hidle f, .inl hidle⟩
        · refine ih hseq ?_
          rw [agentStep_turns ha ht]
          cases hturns : s.env.turns with
          | nil =>
            have := mover_work_lt h hturns hm ht
            simp only [hturns, List.length_nil, List.tail_nil] at hf ⊢
            omega
          | cons b ts =>
            have := agentStep_work_le ha h ht
            simp only [hturns, List.length_cons, List.tail_cons] at hf ⊢
            omega

/-- The first entry of an operation has less work ahead than the fuel of its execution. -/
theorem entry_work_le (i : Instr) (p : Params) (f : BitVec 3) :
    i.entry.work p f ≤ 990 + 20 * p.nStrobe.toNat + p.nClear.toNat := by
  cases i <;> simp only [Instr.entry, Entry.work] <;> omega

/-- Settles O49: the fuel covers the work of the operation, what is pending before it, and the turns. -/
theorem everyOperationEndsOrWaits : Obligations.EveryOperationEndsOrWaits := by
  intro i s t hready ht
  rw [exec_of_cmdReady hready] at ht
  have hfuel : (accept (encode i) i.entry s).work + (accept (encode i) i.entry s).env.turns.length ≤ opFuel s := by
    have hentry := entry_work_le i s.cfg s.fidx
    have h1 := Bool.toNat_le s.spend
    have h2 := Bool.toNat_le s.xbusy
    have h3 := Bool.toNat_le s.ppend
    simp [State.work, State.pending, accept, opFuel]
    omega
  obtain ⟨t', ht', hend⟩ := run_ends_or_waits (accept_seqOk i s) hfuel
  obtain rfl := Host.Outcome.next.inj (ht.symm.trans ht')
  exact hend

end Sys2Proof.Machine
end

section
/-! Two words that differ in unassigned bits alone (30_encoding.md R103, 93_implementation_defined.md U19): from their acceptance
on, the two executions go in step, and differ in `CWR` and the `EvCmd` event. -/

namespace Sys2Proof.Machine

/-! ## the state with another word in `CWR` and in the history -/

/-- The state with the word `w` in `CWR`, and `tr` in place of the first `n` events. -/
def retold (w : CmdWord) (tr : List Event) (n : Nat) (s : State) : State := { s with cwr := w, trace := tr ++ s.trace.drop n }

/-- The operands that the next step at an entry reads from a command word. -/
def Entry.operands (w : CmdWord) : Entry → Frame × BitVec 1
  | .hf0 => (⟨byte0 w, byte1 w, byte2 w, byte3 w⟩, 0)
  | .hb0 | .hx0 | .hc0 | .hd0 => (⟨byte0 w, 0, 0, 0⟩, 0)
  | .cu0 => (⟨byte0 w, 0, 0, 0⟩, rowField w)
  | _ => (⟨0, 0, 0, 0⟩, 0)

theorem operands_of_not_reads {e : Entry} (h : e.readsCwr = false) (w w' : CmdWord) : e.operands w = e.operands w' := by
  cases e with
  | hb0 | hx0 | hf0 | hc0 | hd0 | cu0 => simp [Entry.readsCwr] at h
  | _ => rfl

section
variable {w : CmdWord} {tr : List Event} {n : Nat} {s : State}

/-- An emission after the first `n` events. -/
theorem retold_emit (hn : n ≤ s.trace.length) (e : Event) : retold w tr n (emit e s) = emit e (retold w tr n s) := by
  simp [retold, emit, List.drop_append_of_le_length hn]

theorem ret_retold (r : Ret) (k : List Entry) (s : State) :
    ret r k (retold w tr n s) = mapNext (retold w tr n) (ret r k s) := by
  cases k with
  | nil => rfl
  | cons c k => simp only [ret]; split <;> rfl

theorem respond_retold (hn : n ≤ s.trace.length) (ok nack ill : Bool) :
    respond ok nack ill (retold w tr n s) = retold w tr n (respond ok nack ill s) :=
  (retold_emit (s := { s with rsp := rspWord ok nack ill, seq := [] }) hn _).symm

theorem ret_retold_emit (hn : n ≤ s.trace.length) (r : Ret) (k : List Entry) (e : Event) :
    ret r k (emit e (retold w tr n s)) = mapNext (retold w tr n) (ret r k (emit e s)) := by
  rw [← retold_emit hn, ret_retold]

/-- A labelled step reads of `CWR` its operands alone, and of the history nothing. -/
theorem stepAt_retold {e : Entry} (k : List Entry) (hn : n ≤ s.trace.length) (hop : e.operands s.cwr = e.operands w) :
    stepAt e k (retold w tr n s) = mapNext (retold w tr n) (stepAt e k s) := by
  have hnext (ok nack ill : Bool) : Host.Outcome.next (respond ok nack ill (retold w tr n s)) =
      mapNext (retold w tr n) (.next (respond ok nack ill s)) := by
    rw [respond_retold hn]; rfl
  cases e with
  | wt0 => simp only [stepAt, wt0, recoverCollision_eq]; rfl
  | wr1 v => simp only [stepAt, wr1, loadShift_eq]; rfl
  | hb0 | hx0 | hc0 | hd0 =>
    simp only [Entry.operands, Prod.mk.injEq, Frame.mk.injEq] at hop
    simp only [stepAt, hb0, hx0, hc0, hd0, State.opByte, hop.1.1]
    rfl
  | hf0 =>
    simp only [Entry.operands, Prod.mk.injEq, Frame.mk.injEq] at hop
    obtain ⟨⟨h0, h1, h2, h3⟩, -⟩ := hop
    simp only [stepAt, hf0, State.opFrame, h0, h1, h2, h3]
    rfl
  | cu0 =>
    simp only [Entry.operands, Prod.mk.injEq, Frame.mk.injEq] at hop
    simp only [stepAt, cu0, State.opByte, State.opRow, hop.1.1, hop.2]
    rfl
  | wt3 => exact ret_retold ..
  | bg3 a =>
    cases h : s.sdet with
    | true =>
      simp only [stepAt, bg3, show (retold w tr n s).sdet = true from h, h, if_true]
      exact congrArg Host.Outcome.next (congrArg (goto (.bg4 a) k)
        (retold_emit (s := { s with err := false, tstate := .startConfirmed }) hn _).symm)
    | false =>
      simp only [stepAt, bg3, show (retold w tr n s).sdet = false from h, h]
      exact ret_retold_emit (s := { s with err := true, tstate := .idle }) hn _ k _
  | en3 =>
    cases h : s.pdet with
    | true =>
      simp only [stepAt, en3, show (retold w tr n s).pdet = true from h, h, if_true]
      exact ret_retold_emit (s := { s with err := false, tstate := .idle }) hn _ k _
    | false =>
      simp only [stepAt, en3, show (retold w tr n s).pdet = false from h, h]
      exact ret_retold_emit (s := { s with err := true, tstate := .idle }) hn _ k _
  | bg5 => exact ret_retold _ _ { s with tstate := .addressSent }
  | wr4 => exact ret_retold _ _ { s with tstate := s.tstate.afterByte }
  | dl2 m => exact ret_retold_emit hn _ k _
  | sf2 r =>
    refine withBound_map r _ _ _ fun r => ?_
    cases r with
    | true => rfl
    | false =>
      by_cases h : s.cfg.encCheckStart = true
      · simp only [h, show (retold w tr n s).cfg = s.cfg from rfl, if_true]; exact ret_retold _ _ { s with fok := false }
      · simp only [h, show (retold w tr n s).cfg = s.cfg from rfl]; rfl
  | sf3 =>
    by_cases h : s.fidx = 4
    · simp only [stepAt, sf3, show (retold w tr n s).fidx = s.fidx from rfl, h, if_true]; rfl
    · simp only [stepAt, sf3, show (retold w tr n s).fidx = s.fidx from rfl, h, if_false,
        show (retold w tr n s).frame = s.frame from rfl]
      split <;> rfl
  | id1 i =>
    by_cases h : i = 5
    · simp only [stepAt, id1, h, if_true]; rfl
    · simp only [stepAt, id1, h, if_false, show (retold w tr n s).cfg = s.cfg from rfl]; split <;> rfl
  | sf4 r | id2 i r => exact withBound_map r _ _ _ fun _ => rfl
  | sf7 r => exact withBound_map r _ _ _ fun r => ret_retold _ _ { s with fok := s.fok && r }
  | sc2 r | sd2 r => exact withBound_map r _ _ _ fun _ => ret_retold ..
  | in4 | hw1 | id3 | rv0 => exact hnext _ _ _
  | hb1 r | hx1 r | he1 r | hf2 r | hc1 r | hd1 r | cl2 r | cu1 r => exact withBound_map r _ _ _ fun _ => hnext _ _ _
  | _ => rfl

/-- A completion reads neither. -/
theorem busStep_retold (hn : n ≤ s.trace.length) (p : Activity) :
    busStep p (retold w tr n s) = retold w tr n (busStep p s) := by
  by_cases h : s.activityReady p = true
  · simp only [busStep, h, show (retold w tr n s).activityReady p = s.activityReady p by cases p <;> rfl, if_true]
    have hdrop (e : Event) : (s.trace ++ [e]).drop n = s.trace.drop n ++ [e] := List.drop_append_of_le_length hn
    cases p with
    | start =>
      simp only [show (retold w tr n s).env = s.env from rfl]
      split
      · rename_i o os _; cases o <;> simp [startDone, retold, emit, hdrop]
      · rfl
    | byte =>
      simp only [show (retold w tr n s).env = s.env from rfl]
      split
      · rename_i o os _; cases o <;> simp [byteDone, retold, emit, hdrop]
      · rfl
    | stop =>
      simp only [show (retold w tr n s).env = s.env from rfl]
      split
      · rename_i o os _; cases o <;> simp [stopDone, retold, emit, hdrop]
      · rfl
  · have h' : s.activityReady p = false := by simpa using h
    rw [busStep_idle h', busStep_idle (s := retold w tr n s) (by cases p <;> exact h')]

end

/-! ## two executions in step -/

/-- Where the two executions stand: the stack is one the listings build, its next step reads the same operands from both words,
the first `n` events are past, and `rst` is low. -/
structure InStep (w : CmdWord) (n : Nat) (s : State) : Prop where
  seqOk : SeqOk s
  operands : ∀ e ∈ s.seq, e.operands s.cwr = e.operands w
  past : n ≤ s.trace.length
  noReset : .rst ∉ s.env.turns

/-- Nothing reads `CWR` from below: only the first entry of an operation reads it. -/
theorem not_reads_of_below {k : List Entry} : ∀ {e : Entry}, callChain (e :: k) = true → ∀ c ∈ k, c.readsCwr = false := by
  induction k with
  | nil => simp
  | cons d k ih =>
    intro e h c hc
    simp only [callChain, Bool.and_eq_true, beq_iff_eq] at h
    obtain ⟨hcalled, hchain⟩ := h
    obtain rfl | hc := List.mem_cons.1 hc
    · cases c with
      | hb0 | hx0 | hf0 | hc0 | hd0 | cu0 => simp [Entry.called] at hcalled
      | _ => rfl
    · exact ih hchain c hc

/-- After a step no entry reads `CWR`. -/
theorem not_reads_of_seqStep {t : State} {e : Entry} {k : List Entry} (hchain : callChain (e :: k) = true)
    (h : SeqStep t e k) : ∀ c ∈ t.seq, c.readsCwr = false := by
  have hbelow := not_reads_of_below hchain
  cases h with
  | goto seq proc bound fits => rw [seq]; exact List.forall_mem_cons.2 ⟨fits.operand, hbelow⟩
  | call seq proc called bound fits fits' =>
    rw [seq]; exact List.forall_mem_cons.2 ⟨fits.operand, List.forall_mem_cons.2 ⟨fits'.operand, hbelow⟩⟩
  | ret seq bind =>
    rw [seq]; exact List.forall_mem_cons.2 ⟨(rebound_of_bindResult bind).operand, (List.forall_mem_cons.1 hbelow).2⟩
  | done seq => rw [seq]; simp

section
variable {w : CmdWord} {tr : List Event} {n : Nat} {s : State}

theorem engStep_inStep (h : InStep w n s) :
    engStep (retold w tr n s) = mapNext (retold w tr n) (engStep s) ∧
      ∀ t, engStep s = .next t → ∀ e ∈ t.seq, e.operands t.cwr = e.operands w := by
  unfold engStep
  rw [show (retold w tr n s).seq = s.seq from rfl, show (retold w tr n s).held = s.held from rfl]
  cases hs : s.seq with
  | nil =>
    refine ⟨rfl, fun t ht => ?_⟩
    obtain rfl := Host.Outcome.next.inj ht
    exact h.operands
  | cons e k =>
    cases hh : s.held with
    | true =>
      refine ⟨rfl, fun t ht => ?_⟩
      obtain rfl := Host.Outcome.next.inj ht
      exact h.operands
    | false =>
      refine ⟨stepAt_retold k h.past (h.operands e (by simp [hs])), fun t ht => ?_⟩
      obtain ⟨t', ht', hstep, -⟩ := stepAt_seqStep h.seqOk hs
      obtain rfl : t' = t := Host.Outcome.next.inj (ht'.symm.trans ht)
      exact fun c hc => operands_of_not_reads (not_reads_of_seqStep (hs ▸ h.seqOk.1) hstep c hc) _ _

/-- A step of ENG, BUS or TMR goes in step. -/
theorem agentStep_inStep {a : Turn} (ha : a ≠ .rst) (h : InStep w n s) :
    agentStep a (retold w tr n s) = mapNext (retold w tr n) (agentStep a s) ∧
      ∀ t, agentStep a s = .next t → InStep w n t := by
  have hel : InStep w n s.elapse := ⟨h.seqOk, h.operands, h.past, fun hm => h.noReset (List.mem_of_mem_tail hm)⟩
  have hkeep (hop : ∀ t, agentStep a s = .next t → ∀ e ∈ t.seq, e.operands t.cwr = e.operands w) :
      ∀ t, agentStep a s = .next t → InStep w n t := by
    intro t ht
    obtain ⟨t', ht', hseq⟩ := agentStep_answers a h.seqOk
    obtain rfl : t' = t := Host.Outcome.next.inj (ht'.symm.trans ht)
    obtain ⟨es, htrace⟩ := agentStep_trace ht
    refine ⟨hseq, hop _ ht, ?_, by rw [agentStep_turns ha ht]; exact hel.noReset⟩
    rw [htrace, List.length_append]
    exact h.past.trans (Nat.le_add_right _ _)
  cases a with
  | eng =>
    obtain ⟨heq, hop⟩ := engStep_inStep (tr := tr) hel
    exact ⟨heq, hkeep hop⟩
  | bus p =>
    refine ⟨congrArg Host.Outcome.next (busStep_retold (s := s.elapse) h.past p), hkeep fun t ht => ?_⟩
    obtain rfl := Host.Outcome.next.inj ht
    rw [busStep_frame]
    exact h.operands
  | tmr =>
    refine ⟨rfl, hkeep fun t ht => ?_⟩
    obtain rfl := Host.Outcome.next.inj ht
    exact h.operands
  | rst => exact absurd rfl ha

/-- Two executions in step end in step, with the same turns left. -/
theorem run_retold (f : Nat) (h : InStep w n s) : run f (retold w tr n s) = mapNext (retold w tr n) (run f s) := by
  induction f generalizing s with
  | zero => rfl
  | succ f ih =>
    have hmover : mover (retold w tr n s) = mover s := rfl
    by_cases hs : s.seq = []
    · rw [run_idle hs, run_idle (s := retold w tr n s) hs]; rfl
    · cases hm : mover s with
      | none => rw [run_stuck hm, run_stuck (hmover.trans hm)]; rfl
      | some a =>
        have hne : s.seq.isEmpty = false := by simpa using hs
        obtain ⟨heq, hkeep⟩ := agentStep_inStep (tr := tr) (mover_ne_rst h.noReset hm) h
        obtain ⟨t, ht, -⟩ := agentStep_answers a h.seqOk
        have hrun : run (f + 1) s = run f t := by simp only [run, hne, hm, ht]; rfl
        have hrun' : run (f + 1) (retold w tr n s) = run f (retold w tr n t) := by
          simp only [run, show (retold w tr n s).seq.isEmpty = false from hne, hmover, hm, heq, ht, mapNext]; rfl
        rw [hrun, hrun', ih (hkeep t ht)]

end

/-! ## the unassigned bits -/

/-- A command has the first entry and the operands of itself with its unassigned bits cleared. -/
theorem plain_alike (i : Instr) : i.plain.entry = i.entry ∧
    i.entry.operands (encode i.plain) = i.entry.operands (encode i) := by
  cases i <;> simp [Instr.plain, Instr.entry, Entry.operands]

/-- Settles O52: the two executions go in step from acceptance on, since both words have the same operands. -/
theorem unassignedBitsAffectNothing : Obligations.UnassignedBitsAffectNothing := by
  intro i j s t hplain hs ht
  obtain ⟨ts, hts, hexec⟩ := executionAgreesWithTheSummary i s t hs ht
  refine ⟨ts, hts, hexec, ?_⟩
  obtain ⟨hi, hopi⟩ := plain_alike i
  obtain ⟨hj, hopj⟩ := plain_alike j
  rw [hplain] at hi hopi
  have hentry : j.entry = i.entry := hj.symm.trans hi
  have hop : i.entry.operands (encode i) = i.entry.operands (encode j) := by
    rw [← hopi, ← hentry, hopj]
  have hready := hs.toListens.cmdReady
  rw [exec_of_cmdReady hready] at hexec ⊢
  have hstart : accept (encode j) j.entry s =
      retold (encode j) (s.trace ++ [.cmd (encode j)]) (s.trace.length + 1) (accept (encode i) i.entry s) := by
    simp [accept, retold, emit, hentry]
  have hinStep : InStep (encode j) (s.trace.length + 1) (accept (encode i) i.entry s) :=
    ⟨accept_seqOk i s, by simpa [accept] using hop, by simp [accept], hs.noReset⟩
  rw [hstart, run_retold _ hinStep, hexec]
  simp [mapNext, retold, State.withTurns]

end Sys2Proof.Machine
end

section
/-! The contract of the host (40_engine_ops.md R137) along its commands. -/

namespace Sys2Proof.Machine

/-! ## the phase of the contract -/

/-- An operation's own events leave the watcher where it is. -/
theorem watch_inner {es : List Event} (h : es.all Event.isInner = true) (c : Watch) : es.foldl Watch.after c = c := by
  induction es generalizing c with
  | nil => rfl
  | cons e es ih =>
    simp only [List.all_cons, Bool.and_eq_true] at h
    have hstep : c.after e = c := by
      cases e with
      | reset | cmd w | rsp r => simp [Event.isInner] at h
      | _ => rfl
    rw [List.foldl_cons, hstep, ih h.2]

/-- The watcher after a command that was answered. -/
theorem watch_answered {tr es : List Event} (h : es.all Event.isInner = true) (w : CmdWord) (r : RspWord) :
    watch (tr ++ .cmd w :: es ++ [.rsp r]) =
      ⟨(watch tr).phase.after w r, none, (watch tr).kept && (watch tr).phase.allows w⟩ := by
  simp only [watch, List.foldl_append, List.foldl_cons, List.foldl_nil, watch_inner h, Watch.after]

/-- What a phase says of `EN` and `TSTATE`. -/
def Phase.Holds (p : Phase) (s : State) : Prop :=
  match p with
  | .unarmed => s.en = false ∧ s.tstate = .idle
  | .closed => s.en = true ∧ s.tstate = .idle
  | .opened => s.en = true ∧ (s.tstate = .addressSent ∨ s.tstate = .dataSent)

theorem phaseAgrees_iff (s : State) :
    PhaseAgrees s ↔ s.seq = [] ∧ (watch s.trace).pending = none ∧ (watch s.trace).phase.Holds s := by
  unfold PhaseAgrees Phase.Holds
  cases (watch s.trace).phase <;> rfl

@[simp] theorem rspWord_ok (ok nack ill : Bool) : (rspWord ok nack ill)[0] = ok := by
  revert ok nack ill; decide

/-! ## what the summaries leave in `TSTATE` -/

theorem sumByte_tstate {v : Byte} {s t : State} (h : sumByte v s = some t) : t.tstate = s.tstate.afterByte := by
  unfold sumByte at h
  split at h
  · split at h
    · rw [Option.some.injEq] at h
      rw [← h]; rfl
    · simp at h
  · simp at h

theorem sumBegin_tstate {a : Byte} {s t : State} {ok : Bool} (h : sumBegin a s = some (t, ok)) :
    t.tstate = if ok then .addressSent else .idle := by
  unfold sumBegin at h
  split at h
  · rename_i o os _ _
    cases o with
    | missing | collided =>
      simp only [Option.some.injEq, Prod.mk.injEq] at h
      obtain ⟨rfl, rfl⟩ := h
      rfl
    | detected =>
      simp only at h
      split at h
      · simp only [Option.some.injEq, Prod.mk.injEq] at h
        obtain ⟨rfl, rfl⟩ := h
        rfl
      · simp at h
  · simp at h

theorem sumEnd_tstate {s t : State} {ok : Bool} (h : sumEnd s = some (t, ok)) : t.tstate = .idle := by
  unfold sumEnd at h
  split at h
  · rename_i o os _ _
    cases o <;> simp only [Option.some.injEq, Prod.mk.injEq] at h <;> obtain ⟨rfl, rfl⟩ := h <;> rfl
  · simp at h

/-- A frame ends with no transaction open, whether it was sent or given up (41_encoder_ops.md R165). -/
theorem sumFrame_tstate {s t : State} {r : Bool × Bool} (h : sumFrame s = some (t, r)) : t.tstate = .idle := by
  rw [sumFrame_eq] at h
  obtain ⟨⟨u, b⟩, hu, h⟩ := Option.bind_eq_some_iff.1 h
  unfold sumFrameRest at h
  split at h
  · rename_i hg
    simp only [Bool.and_eq_true, Bool.not_eq_true'] at hg
    simp only [Option.some.injEq, Prod.mk.injEq] at h
    obtain ⟨rfl, -⟩ := h
    have := sumBegin_tstate hu
    simpa [hg.1] using this
  · split at h
    · split at h
      · rename_i hend
        simp only [Option.some.injEq, Prod.mk.injEq] at h
        obtain ⟨rfl, -⟩ := h
        have hidle := sumEnd_tstate hend
        exact hidle
      · simp at h
    · simp at h

theorem sumSend_tstate {c : Byte} {rs : Bool} {s t : State} {r : Bool × Bool} (h : sumSend c rs s = some (t, r)) :
    t.tstate = .idle :=
  sumFrame_tstate (s := { s with frame := encodeFrame c rs }) h

/-- INIT_DISPLAY's loop leaves `EN` alone, and keeps `TSTATE` IDLE. -/
theorem sumInitSeq_phase {cs : List Byte} {s t : State} (h : sumInitSeq cs s = some t) :
    t.en = s.en ∧ (s.tstate = .idle → t.tstate = .idle) := by
  induction cs generalizing s with
  | nil =>
    rw [sumInitSeq, Option.some.injEq] at h
    exact h ▸ ⟨rfl, id⟩
  | cons c cs ih =>
    rw [sumInitSeq] at h
    split at h
    · rename_i u ok nack hu
      obtain ⟨hen, htstate⟩ := ih h
      have ht := sumSend_tstate hu
      exact ⟨hen.trans (sumSend_same hu).en, fun _ => htstate ht⟩
    · simp at h

/-- A command the contract allows leads from its phase to the phase after its answer. -/
theorem sumBody_phase {i : Instr} {p : Phase} {s u : State} {ok nack ill : Bool} (hallow : p.allows (encode i) = true)
    (hs : p.Holds s) (h : sumBody i s = some (u, ok, nack, ill)) : (p.after (encode i) (rspWord ok nack ill)).Holds u := by
  have hframe (hp : p = .closed) (hafter : p.after (encode i) (rspWord ok nack ill) = p) (hen : u.en = s.en)
      (ht : u.tstate = .idle) : (p.after (encode i) (rspWord ok nack ill)).Holds u := by
    rw [hafter]
    subst hp
    exact ⟨hen.trans hs.1, ht⟩
  cases i with
  | init x =>
    simp only [sumBody, Option.some.injEq, Prod.mk.injEq] at h
    obtain ⟨rfl, -⟩ := h
    cases p with
    | unarmed =>
      have hafter : Phase.after .unarmed (encode (.init x)) (rspWord ok nack ill) = .closed := by
        simp [Phase.after, Instr.opcode]
      rw [hafter]
      exact ⟨rfl, hs.2⟩
    | closed | opened => simp [Phase.allows, Instr.opcode] at hallow
  | waitReady x =>
    simp only [sumBody, Option.some.injEq, Prod.mk.injEq] at h
    obtain ⟨rfl, -⟩ := h
    have hafter : p.after (encode (.waitReady x)) (rspWord ok nack ill) = p := by simp [Phase.after, Instr.opcode]
    rw [hafter]
    exact hs
  | beginTx a x =>
    obtain ⟨⟨u, b⟩, hu, h⟩ := Option.map_eq_some_iff.1 h
    simp only [Prod.mk.injEq] at h
    obtain ⟨rfl, rfl, -⟩ := h
    have hen := (sumBegin_same hu).en
    have ht := sumBegin_tstate hu
    cases p with
    | unarmed | opened => simp [Phase.allows, Instr.opcode] at hallow
    | closed =>
      cases b with
      | true =>
        have hafter : Phase.after .closed (encode (.beginTx a x)) (rspWord true nack ill) = .opened := by
          simp [Phase.after, Instr.opcode]
        rw [hafter]
        exact ⟨hen.trans hs.1, .inl ht⟩
      | false =>
        have hafter : Phase.after .closed (encode (.beginTx a x)) (rspWord false nack ill) = .closed := by
          simp [Phase.after, Instr.opcode]
        rw [hafter]
        exact ⟨hen.trans hs.1, ht⟩
  | write v x =>
    obtain ⟨u, hu, h⟩ := Option.map_eq_some_iff.1 h
    simp only [Prod.mk.injEq] at h
    obtain ⟨rfl, -⟩ := h
    have ht := sumByte_tstate hu
    cases p with
    | unarmed | closed => simp [Phase.allows, Instr.opcode] at hallow
    | opened =>
      have hafter : Phase.after .opened (encode (.write v x)) (rspWord ok nack ill) = .opened := by
        simp [Phase.after, Instr.opcode]
      rw [hafter]
      obtain ⟨hen, hopen⟩ := hs
      exact ⟨(sumByte_same hu).en.trans hen, .inr (by obtain h | h := hopen <;> rw [ht, h] <;> rfl)⟩
  | endTx x =>
    obtain ⟨⟨u, b⟩, hu, h⟩ := Option.map_eq_some_iff.1 h
    simp only [Prod.mk.injEq] at h
    obtain ⟨rfl, -⟩ := h
    have hafter : p.after (encode (.endTx x)) (rspWord ok nack ill) = .closed := by simp [Phase.after, Instr.opcode]
    have hen : s.en = true := by
      cases p with
      | unarmed => simp [Phase.allows, Instr.opcode] at hallow
      | closed | opened => exact hs.1
    rw [hafter]
    exact ⟨(sumEnd_same hu).en.trans hen, sumEnd_tstate hu⟩
  | sendFrame f0 f1 f2 f3 =>
    obtain ⟨⟨u, r⟩, hu, h⟩ := Option.map_eq_some_iff.1 h
    simp only [Prod.mk.injEq] at h
    obtain ⟨rfl, -⟩ := h
    exact hframe (by cases p <;> simp [Phase.allows, Instr.opcode] at hallow ⊢) (by simp [Phase.after, Instr.opcode])
      (sumFrame_same hu).1.en (sumFrame_tstate hu)
  | sendCmd v x | sendChar v x | setCursor row col x =>
    obtain ⟨⟨u, r⟩, hu, h⟩ := Option.map_eq_some_iff.1 h
    simp only [Prod.mk.injEq] at h
    obtain ⟨rfl, -⟩ := h
    exact hframe (by cases p <;> simp [Phase.allows, Instr.opcode] at hallow ⊢) (by simp [Phase.after, Instr.opcode])
      (sumSend_same hu).en (sumSend_tstate hu)
  | initDisplay x =>
    obtain ⟨u, hu, h⟩ := Option.map_eq_some_iff.1 h
    simp only [Prod.mk.injEq] at h
    obtain ⟨rfl, -⟩ := h
    have hp : p = .closed := by cases p <;> simp [Phase.allows, Instr.opcode] at hallow ⊢
    obtain ⟨hen, ht⟩ := sumInitSeq_phase hu
    exact hframe hp (by simp [Phase.after, Instr.opcode]) hen (ht (by subst hp; exact hs.2))
  | clear x =>
    obtain ⟨⟨u, r⟩, hu, h⟩ := Option.map_eq_some_iff.1 h
    simp only [Prod.mk.injEq] at h
    obtain ⟨rfl, -⟩ := h
    have ht := sumSend_tstate hu
    exact hframe (by cases p <;> simp [Phase.allows, Instr.opcode] at hallow ⊢) (by simp [Phase.after, Instr.opcode])
      (sumSend_same hu).en ht
  | reservedB x | reservedC x | reservedD x | reservedE x | reservedF x =>
    cases p <;> simp [Phase.allows, Instr.opcode] at hallow

/-- Settles O56: the history of the command moves the watcher once, and the summary moves `EN` and `TSTATE` with it. -/
theorem contractPhaseFollowsTheState : Obligations.ContractPhaseFollowsTheState := by
  intro i s t hs hagrees hallow ht
  obtain ⟨ts, hts, hexec⟩ := executionAgreesWithTheSummary i s t hs ht
  obtain ⟨⟨u, ok, nack, ill⟩, hu, rfl⟩ := Option.map_eq_some_iff.1 ht
  obtain ⟨es, inner, ⟨hseq, -⟩ | ⟨-, htrace⟩⟩ := (exec_told hs.toListens hexec).history
  · exact absurd rfl hseq
  have hwatch : watch (respond ok nack ill u).trace = _ :=
    (congrArg watch htrace).trans (watch_answered inner (encode i) (rspWord ok nack ill))
  obtain ⟨-, -, hholds⟩ := (phaseAgrees_iff s).1 hagrees
  refine ⟨⟨ts, hts, hexec⟩, (phaseAgrees_iff _).2 ⟨rfl, by rw [hwatch], ?_⟩, ?_⟩
  · rw [hwatch]
    exact sumBody_phase (s := acceptedState i s) (u := u) hallow hholds hu
  · rw [onContract, hwatch, hallow, Bool.and_true, onContract]

end Sys2Proof.Machine
end

section
/-! What a well-behaved bus brings (20_memory.md R83 to R92), and the source's properties over several commands
(95_test_vectors.md section 1). -/

namespace Sys2Proof.Machine

/-! ## what the LCD makes of frames in a row -/

/-- Settles O8: the LCD takes the first frame's value, and then what it receives of the rest. -/
theorem framesReachTheLcdInOrder : Obligations.FramesReachTheLcdInOrder := by
  intro vs
  induction vs with
  | nil => rfl
  | cons v vs ih => rw [List.flatMap_cons, lcdReceives_encodeFrame_append, ih]

/-- The history of a command that sends the frame `f` and has it acknowledged. -/
def sentEvents (i : Instr) (p : Params) (f : Frame) : List Event :=
  .cmd (encode i) :: frameEvents p f .acked .detected ++ [.rsp 0b001]

/-- The expander's pins take the four bytes of such a frame, and then what the rest of the history brings. -/
theorem pinHistory_sentEvents_append (i : Instr) (p : Params) (f : Frame) (es : List Event) :
    pinHistory p (sentEvents i p f ++ es) = f.bytes ++ pinHistory p es := by
  simp [pinHistory, sentEvents, frameEvents, stopEvents, dataBytesFrom, Listening.after, ByteOutcome.event, Answers.acked,
    Frame.bytes]

/-- So from the history of frames sent one after another the LCD receives their values. -/
theorem lcdReceives_sentEvents {v : Byte} {rs : Bool} (i : Instr) (p : Params) :
    lcdReceives (pinHistory p (sentEvents i p (encodeFrame v rs))) = [(rs, v)] := by
  have h := pinHistory_sentEvents_append i p (encodeFrame v rs) []
  rw [List.append_nil] at h
  rw [h]
  exact lcdReceives_encodeFrame_append v rs []

/-! ## a command of one frame on a well-behaved bus -/

/-- Of the inputs the draws depend on the bus's alone, not on the host's words or the order of the steps. -/
theorem drawsOf_cmds_turns (as : List Ask) (n : Nat) (en : Bool) (b : Option Byte) (e : Env) (ws : List CmdWord)
    (ts : List Turn) : drawsOf as n en b { e with cmds := ws, turns := ts } = drawsOf as n en b e := by
  induction as generalizing n en b e with
  | nil => rfl
  | cons a as ih =>
    cases n with
    | succ n => simp only [drawsOf, ih]
    | zero =>
      cases a with
      | arm => exact ih 0 true b e
      | start a n =>
        obtain ⟨cs, starts, bytes, stops, us⟩ := e
        cases en <;> cases starts <;> simp only [drawsOf]
        simp only [← ih]
      | byte =>
        obtain ⟨cs, starts, bytes, stops, us⟩ := e
        cases en <;> cases bytes <;> simp only [drawsOf]
        simp only [← ih]
      | stop =>
        obtain ⟨cs, starts, bytes, stops, us⟩ := e
        cases en <;> cases stops <;> simp only [drawsOf]
        simp only [← ih]

/-- What a command leaves whose one frame `f` is sent and acknowledged; `as` is what will be asked of the bus afterwards. -/
structure FrameAcked (i : Instr) (f : Frame) (as : List Ask) (s t : State) : Prop where
  ready : Ready t
  en : t.en = true
  cfg : t.cfg = s.cfg
  cmds : t.env.cmds = s.env.cmds
  rsp : t.rsp = 0b001
  err : t.err = false
  tstate : t.tstate = .idle
  trace : t.trace = s.trace ++ sentEvents i s.cfg f
  rest : wellBehaved [s.cfg.expAddrByte] (drawsOf as 0 true none t.env) = true

theorem exec_frame_wellBehaved {i : Instr} {f : Frame} {as : List Ask} {b : Option Byte} {s : State}
    (hi : OneFrame i s.cfg f) (hs : Ready s) (he : s.en = true)
    (hw : wellBehaved [s.cfg.expAddrByte] (drawsOf (frameAsks s.cfg ++ as) 0 true b s.env) = true) :
    ∃ t, exec i s = .next t ∧ FrameAcked i f as s t := by
  obtain ⟨hd, hrest⟩ := wellBehaved_frame hw f
  obtain ⟨ts, hts, hexec⟩ := exec_frame_sent hi hs he hd
  refine ⟨_, hexec, ⟨⟨rfl, fun h => hs.noReset (hts.mem h)⟩, hs.noByte, hs.noReceive, hs.noStart, hs.noStop, rfl⟩, he, rfl, rfl,
    rfl, rfl, rfl, ?_, ?_⟩
  · simp [acceptedState, sentEvents, frameSent]; rfl
  · exact (congrArg (wellBehaved _) (drawsOf_cmds_turns as 0 true none (frameSent f .acked .detected s).env s.env.cmds ts)).trans
      hrest

/-- The LCD receives the value of such a frame, and nothing else. -/
theorem lcdReceives_frameAcked {i : Instr} {v : Byte} {rs : Bool} {as : List Ask} {s t : State}
    (h : FrameAcked i (encodeFrame v rs) as s t) :
    lcdReceives (pinHistory s.cfg (t.trace.drop s.trace.length)) = [(rs, v)] := by
  rw [h.trace, List.drop_left, lcdReceives_sentEvents]

/-- Settles O57: both commands are one frame, of their operand, with register-select cleared and set. -/
theorem lcdReceivesWhatIsSent : Obligations.LcdReceivesWhatIsSent := by
  intro s v u hs he
  have hone {i : Instr} {rs : Bool} (hi : OneFrame i s.cfg (encodeFrame v rs)) (hasks : asks s.cfg i = frameAsks s.cfg)
      (hw : wellBehaved [s.cfg.expAddrByte] (s.drawn [i]) = true) :
      ∃ t, exec i s = .next t ∧ t.seq = [] ∧ t.rsp = 0b001 ∧ t.err = false ∧ t.tstate = .idle ∧
        (InContract s t → lcdReceives (pinHistory s.cfg (t.trace.drop s.trace.length)) = [(rs, v)]) := by
    rw [State.drawn, List.flatMap_cons, hasks, he] at hw
    obtain ⟨t, hexec, hacked⟩ := exec_frame_wellBehaved hi hs he hw
    exact ⟨t, hexec, hacked.ready.idle, hacked.rsp, hacked.err, hacked.tstate, fun _ => lcdReceives_frameAcked hacked⟩
  exact ⟨hone (oneFrame_sendCmd v u s.cfg) rfl, hone (oneFrame_sendChar v u s.cfg) rfl⟩

/-! ## WRITE_STRING -/

/-- The steps of a core whose host issues one SEND_CHAR for each of `cs`: each sends its frame. -/
theorem run_sendChars {cs : List Byte} {b : Option Byte} {s : State} (hs : Ready s) (he : s.en = true)
    (hcmds : s.env.cmds = cs.map fun c => encode (.sendChar c 0))
    (hw : wellBehaved [s.cfg.expAddrByte] (drawsOf (cs.flatMap fun _ => frameAsks s.cfg) 0 true b s.env) = true) :
    ∃ t es, core.run cs.length s = .next t ∧ t.seq = [] ∧ t.env.cmds = [] ∧ t.err = (s.err && cs.isEmpty) ∧
      t.trace = s.trace ++ es ∧ pinHistory s.cfg es = cs.flatMap fun c => (encodeFrame c true).bytes := by
  induction cs generalizing b s with
  | nil => exact ⟨s, [], rfl, hs.idle, hcmds, by simp, by simp, rfl⟩
  | cons c cs ih =>
    let s' := s.withCmds (cs.map fun c => encode (.sendChar c 0))
    have hs' : Ready s' := ⟨⟨hs.idle, hs.noReset⟩, hs.noByte, hs.noReceive, hs.noStart, hs.noStop, hs.noDelay⟩
    have hw' : wellBehaved [s'.cfg.expAddrByte]
        (drawsOf (frameAsks s'.cfg ++ cs.flatMap fun _ => frameAsks s.cfg) 0 true b s'.env) = true :=
      (congrArg (wellBehaved _) (drawsOf_cmds_turns _ 0 true b s.env _ s.env.turns)).trans hw
    obtain ⟨u, hexec, hacked⟩ := exec_frame_wellBehaved (oneFrame_sendChar c 0 s'.cfg) hs' he hw'
    have hstep : step s = .next u := by
      rw [stepExecutesTheAcceptedWord s _ _ hs.idle (resetDue_of_noReset hs.noReset) hcmds, decodeWord_encode]
      exact hexec
    have hcfg : u.cfg = s.cfg := hacked.cfg
    have hrest := hacked.rest
    obtain ⟨t, es, hrun, hseq, hwords, herr, htrace, hpins⟩ :=
      ih hacked.ready hacked.en hacked.cmds (by rw [hcfg]; exact hrest)
    refine ⟨t, sentEvents (.sendChar c 0) s.cfg (encodeFrame c true) ++ es, ?_, hseq, hwords, ?_, ?_, ?_⟩
    · simpa [Host.Core.run, core, hstep] using hrun
    · simp [herr, hacked.err]
    · rw [htrace, hacked.trace, List.append_assoc]; rfl
    · rw [pinHistory_sentEvents_append, ← hcfg, hpins, List.flatMap_cons]

/-- Settles O60: the expansion is one SEND_CHAR for each character, and the LCD receives their frames in a row. -/
theorem writeStringReachesTheLcd : Obligations.WriteStringReachesTheLcd := by
  intro s cs hs he hcmds hcs hw
  have hexpand : writeString cs = cs.map fun c => .sendChar c 0 := by
    simpa using (writeStringIssuesOneSendCharEach cs [] hcs).2
  have hs' : Ready (s.hostIssues (writeString cs)) :=
    ⟨⟨hs.idle, hs.noReset⟩, hs.noByte, hs.noReceive, hs.noStart, hs.noStop, hs.noDelay⟩
  have hcmds' : (s.hostIssues (writeString cs)).env.cmds = cs.map fun c => encode (.sendChar c 0) := by
    simp [State.hostIssues, State.withCmds, hcmds, hexpand]
  have hw' : wellBehaved [s.cfg.expAddrByte] (drawsOf (cs.flatMap fun _ => frameAsks s.cfg) 0 true
      (onBus s.cfg s.trace).openTo (s.hostIssues (writeString cs)).env) = true := by
    rw [State.drawn, hexpand, he, List.flatMap_map] at hw
    exact (congrArg (wellBehaved _) (drawsOf_cmds_turns _ 0 true _ s.env _ s.env.turns)).trans hw
  obtain ⟨t, es, hrun, hseq, hwords, herr, htrace, hpins⟩ := run_sendChars hs' he hcmds' hw'
  refine ⟨t, hrun, hseq, hwords, herr, fun _ => ?_⟩
  have htrace' : t.trace = s.trace ++ es := htrace
  have hpins' : pinHistory s.cfg es = cs.flatMap fun c => (encodeFrame c true).bytes := hpins
  rw [htrace', List.drop_left, hpins', ← framesReachTheLcdInOrder (cs.map fun c => (true, c)), List.flatMap_map]

/-! ## the source's properties over BEGIN and END -/

/-- An idle state with the activities and the delay of a ready one, and some of its turns still to come, is ready. -/
theorem Ready.of_fields {s t : State} (h : Ready s) (hseq : t.seq = []) (hturns : t.env.turns <:+ s.env.turns)
    (hpending : (t.xbusy, t.rbusy, t.spend, t.ppend, t.dly) = (s.xbusy, s.rbusy, s.spend, s.ppend, s.dly)) : Ready t := by
  simp only [Prod.mk.injEq] at hpending
  obtain ⟨hx, hr, hsp, hp, hd⟩ := hpending
  exact ⟨⟨hseq, fun hm => h.noReset (hturns.mem hm)⟩, hx.trans h.noByte, hr.trans h.noReceive, hsp.trans h.noStart,
    hp.trans h.noStop, hd.trans h.noDelay⟩

theorem Ready.busIdle {s : State} (h : Ready s) : s.busIdle = true := by
  simp [State.busIdle, h.noByte, h.noReceive, h.noStart, h.noStop]

/-- What END needs of the state that BEGIN leaves, its address byte answered with `o`. -/
theorem exec_beginTx_opened {s : State} {a : Byte} {o : ByteOutcome} {os : List CondOutcome} {bs : List ByteOutcome}
    (u : BitVec 24) (hs : Ready s) (he : s.en = true) (hstarts : s.env.starts = .detected :: os) (hbytes : s.env.bytes = o :: bs)
    (ho : o.returns = true) :
    ∃ t, exec (.beginTx a u) s = .next t ∧ Ready t ∧ t.en = true ∧ t.rsp = 0b001 ∧ t.err = false ∧ t.tstate = .addressSent ∧
      t.env.stops = s.env.stops ∧
      t.trace = s.trace ++ [.cmd (encode (.beginTx a u)), .start, .err false, o.event a, .rsp 0b001] := by
  obtain ⟨ts, hts, h⟩ := beginOpensATransaction s a u o os bs hs he hstarts hbytes ho
  exact ⟨_, h, hs.of_fields hs.idle hts rfl, he, rfl, rfl, rfl, rfl, rfl⟩

/-- What the next BEGIN needs of the state that a missing start leaves. -/
theorem exec_beginTx_missing {s : State} {os : List CondOutcome} (a : Byte) (u : BitVec 24) (hs : Ready s) (he : s.en = true)
    (hstarts : s.env.starts = .missing :: os) :
    ∃ t, exec (.beginTx a u) s = .next t ∧ Ready t ∧ t.en = true ∧ t.rsp = 0b000 ∧ t.err = true ∧ t.tstate = .idle ∧
      t.env.starts = os ∧ t.env.bytes = s.env.bytes := by
  obtain ⟨ts, hts, h⟩ := beginFailsWithoutAStart s a u .missing os hs he hstarts (by decide)
  exact ⟨_, h, hs.of_fields hs.idle hts rfl, he, rfl, rfl, rfl, rfl, rfl⟩

/-- Settles O58: the start and the byte of BEGIN, then the stop of END. -/
theorem emptyTransactionLeavesTheBusIdle : Obligations.EmptyTransactionLeavesTheBusIdle := by
  intro s a u v hs he hw
  rw [State.drawn, he] at hw
  obtain ⟨os, hstarts, hw⟩ := wellBehaved_start hw
  obtain ⟨bs, hbytes, hw⟩ := wellBehaved_byte (List.mem_singleton_self a) hw
  obtain ⟨ps, hstops, -⟩ := wellBehaved_stop hw
  obtain ⟨t, hbegin, ht, hen, hrsp, -, -, hsame, htrace⟩ := exec_beginTx_opened u hs he hstarts hbytes rfl
  obtain ⟨ts, -, hend⟩ := endClosesTheTransaction t v .detected ps ht hen (hsame.trans hstops)
  refine ⟨t, _, hbegin, hend, hrsp, rfl, ht.busIdle, rfl, rfl, rfl, rfl, fun _ => ?_⟩
  simp only [State.withTurns, htrace, List.append_assoc]
  rfl

/-- Settles O59: BEGIN with a missing start, and then with a detected one. -/
theorem missingStartIsSignalledUntilTheNextBoundary : Obligations.MissingStartIsSignalledUntilTheNextBoundary := by
  intro s a a' u u' o os bs hs he hstarts hbytes ho
  obtain ⟨t, hfail, ht, hen, hrsp, herr, htstate, hstarts', hbytes'⟩ := exec_beginTx_missing a u hs he hstarts
  obtain ⟨w, hopen, -, -, hrsp', herr', htstate', -⟩ :=
    exec_beginTx_opened (a := a') u' ht hen hstarts' (hbytes'.trans hbytes) ho
  exact ⟨t, w, hfail, herr, hrsp, htstate, hbytes', hopen, herr', hrsp', htstate'⟩

end Sys2Proof.Machine
end
